-- ==== Sys2Proof/Word.lean ====
section
/-! DEFINITION. Sys2Proof/Word.lean: the word types of the block (00_scope R5, R6): 32-bit registers and addresses,
16-bit instruction words, 8-bit headers. -/

namespace Sys2Proof

/-- An 8-bit value: the header of a transaction record (R103) and one byte of a serialised record. -/
abbrev Byte := BitVec 8

/-- A 16-bit PIO instruction word (R5 INSTR_BITS). -/
abbrev Half := BitVec 16

/-- A 32-bit register value, byte address or mask (R5 REG_BITS, ADDR_BITS; R6: all of them unsigned). -/
abbrev Word := BitVec 32

end Sys2Proof
end

