-- ==== Sys2Proof/Machine/Bits.lean ====
section
/-! DEFINITION. Sys2Proof/Machine/Bits.lean: the bit operations of 00_scope R6 and R7. -/

namespace Sys2Proof.Machine

open Sys2Proof

/-- `rotl32(v, k)` for 0 ≤ k ≤ 31 (R7). -/
def rotl32 (v : Word) (k : Nat) : Word := (v <<< k) ||| (v >>> (32 - k))

/-- `lowmask(n)` for 1 ≤ n ≤ 32 (R7, C4): bits n-1..0 set. DESIGN CHOICE (log 27): outside that range, which R7 leaves open,
0 for n = 0 and all ones for n > 32; only WRFIELD (R112) can ask for it. -/
def lowmask (n : Nat) : Word := BitVec.ofNat 32 (2 ^ n - 1)

/-- The index of the lowest set bit among bits i, i+1, ..., at most `fuel` of them. -/
def ctzFrom : Nat → Nat → Word → Nat
  | 0, i, _ => i
  | fuel + 1, i, v => if v.getLsbD i then i else ctzFrom fuel (i + 1) v

/-- `ctz(v)` for v ≠ 0 (R7). -/
def ctz (v : Word) : Nat := ctzFrom 32 0 v

/-- Four one-bit values, one per state machine, as a nibble: bit n is `f n`. -/
def smBits (f : Fin 4 → Bool) : BitVec 4 :=
  BitVec.ofBool (f 3) ++ BitVec.ofBool (f 2) ++ BitVec.ofBool (f 1) ++ BitVec.ofBool (f 0)

/-- The nibble with bit n alone set: `1 << n`. -/
def oneHot (n : Fin 4) : BitVec 4 := 1#4 <<< n.val

/-- The masked write of one register (R151, R182): the written data `d`. -/
def writtenData (old bits mask : Word) (xor : Bool) : Word := (if xor then old ^^^ bits else bits) &&& mask

/-- The masked write of one register (R151, R182): the new value, `(old & ~mask) | d`. A full-mask plain write is
decided first, so that a run evaluates where `old` is a draw; the formula's value there is `bits` as well
(`writtenValue_formula`, Laws/Bits.lean). -/
def writtenValue (old bits mask : Word) (xor : Bool) : Word :=
  if mask = 0xFFFFFFFF#32 ∧ xor = false then bits else (old &&& ~~~mask) ||| writtenData old bits mask xor

/-- Sets one field of a packed word, clearing "exactly its own field's bit mask before OR-ing in the new value"
(R108, R301). -/
def packField (w : Word) (lsb : Nat) (mask : Word) (v : Nat) : Word :=
  (w &&& ~~~mask) ||| ((BitVec.ofNat 32 v <<< lsb) &&& mask)

end Sys2Proof.Machine
end

