-- ==== Sys2Proof/Config.lean ====
section
/-! DEFINITION. Sys2Proof/Config.lean: what is fixed for one machine (00_scope R5, 10_state R21) and the free values.

The parameters the spec leaves OPEN (R5) are plain data in `Params`, held in one field of State that no step changes,
so a statement about every state is a statement about every choice of them (log 7). The free values (`draw()`) are
constants with no body, applied to a counter of State (log 5). -/

namespace Sys2Proof

/-- A PIO instance p, `NUM_PIO` = 2 (R5). -/
abbrev PioId := Fin 2

/-- A state machine n of one PIO, `NUM_SM` = 4 (R5). -/
abbrev SmId := Fin 4

/-- `IMEM_READ_MODE` (R5, R188): what a READ of INSTR_MEMi answers. -/
inductive ImemReadMode
  /-- The stored word. -/
  | stored
  /-- Any value. -/
  | draw
  deriving DecidableEq, Repr

/-- `EXEC_OVERWRITE` (R5, R211): an SMn_INSTR write while a forced instruction is stalled. -/
inductive ExecOverwrite
  /-- The new word replaces the stalled one. -/
  | replace
  /-- The write is refused with EXEC_WHILE_STALLED. -/
  | refuse
  deriving DecidableEq, Repr

/-- One entry of `BLOCKS` (R140): the CSR block of a PIO, whose base and size are fixed (R31), or an opaque block
(R83) with its base, its size in registers and its label. "Every base B_i is a multiple of 4" (R140): an opaque block
holds the word number of its base, bits 31:2, so no other base can be written down. -/
inductive Block
  | csr (p : PioId)
  | device (baseWord : BitVec 30) (size : Nat) (name : String)
  deriving DecidableEq, Repr

/-- The parameters R5 leaves OPEN, arguments of the machine (R21). -/
structure Params where
  /-- `BLOCKS`, in the order of resolution (R140, R142). -/
  blocks        : List Block
  /-- `CYCLE_BITS`, the width of the master-clock counter (R26). -/
  cycleBits     : Nat
  /-- `MILLIS_BITS`, the width of the wall-clock counter (R26). -/
  millisBits    : Nat
  imemReadMode  : ImemReadMode
  execOverwrite : ExecOverwrite
  deriving DecidableEq, Repr

namespace Config

/-- `FIFO_DEPTH` (R5). -/
def fifoDepth : Nat := 4

/-- `IMEM_WORDS` (R5). -/
def imemWords : Nat := 32

/-- `NUM_SM` (R5). -/
def numSm : Nat := 4

/-- `GPIO_COUNT` (R5). -/
def gpioCount : Nat := 32

/-- `PIO_SIZE` in registers (R5, R31). -/
def pioSize : Nat := 81

/-- `ALIAS_MASK` (R5, R100). -/
def aliasMask : Word := 0x00003000#32

/-- FREE VALUE (log 5): the k-th 32-bit `draw()` of a run (R83, R188, R191, R210). -/
opaque freeWord (k : Nat) : Word

/-- FREE VALUE (log 5): the k-th one-bit `draw()` of a run (R83, R211). -/
opaque freeBit (k : Nat) : Bool

/-- FREE VALUE (log 5): the k-th `draw()` of a label's text (R145). -/
opaque freeText (k : Nat) : String

/-- FREE VALUE (log 6): the `draw()` the master-clock counter starts at (R452). -/
opaque cyclesAtReset : Nat

/-- FREE VALUE (log 6): the `draw()` the wall-clock counter starts at (R452). -/
opaque millisAtReset : Nat

/-- The parameters State.reset takes where R5 leaves them OPEN: DESIGN CHOICE (log 7), unsafe to read as the spec's. -/
def resetParams : Params where
  blocks := [.csr 0, .csr 1]
  cycleBits := 32
  millisBits := 32
  imemReadMode := .stored
  execOverwrite := .replace

end Config

end Sys2Proof
end

