-- ==== Sys2Proof/Syntax.lean ====
section
/-! DEFINITION. Sys2Proof/Syntax.lean: the instructions, one constructor per row of spec/opcode_table.json
(30_encoding R103, R104, R110), and the program descriptor some of them carry (42_allocator R260). -/

namespace Sys2Proof

/-- A program descriptor as the operand of a transaction carries it (R260), before its checks: a value that violates
one of them is refused with ILLEGAL_ARGUMENT by the transaction that would build it. -/
structure Desc where
  /-- Absent, or the identifier's text as bytes. -/
  id              : Option (List Byte)
  /-- -1 (relocatable) or the fixed offset. -/
  origin          : Int
  wrap            : Nat
  wrapTarget      : Nat
  sideSetCount    : Nat
  sideSetOpt      : Bool
  sideSetPinDirs  : Bool
  /-- The instruction words, in order. -/
  instrs          : List Nat
  deriving DecidableEq, Repr

/-- The instructions of the opcode table. -/
inductive Instr
  /-- READ (R146). -/
  | read (addr : Word)
  /-- WRITE.RW: a plain write whose address has alias code 0b00 (R102, R150). -/
  | writeRw (addr value : Word)
  /-- WRITE.XOR: alias code 0b01. -/
  | writeXor (addr value : Word)
  /-- WRITE.SET: alias code 0b10. -/
  | writeSet (addr value : Word)
  /-- WRITE.CLR: alias code 0b11. -/
  | writeClr (addr value : Word)
  /-- WRITEM (R151). -/
  | writem (addr bits mask : Word) (xor : Bool)
  /-- WAIT (R160). -/
  | wait (addr expected mask : Word) (cyc ms : Nat)
  /-- PROVIDES (R144). -/
  | provides (addr : Word)
  /-- LABEL (R145). -/
  | label (addr : Word)
  /-- ALLOC (R265). -/
  | alloc (p : Nat) (amask : Word) (origin : Int) (check : Bool)
  /-- DEALLOC (R270). -/
  | dealloc (p : Nat) (prog : Desc) (offset : Int)
  /-- IMCLEAR (R275). -/
  | imclear (p : Nat)
  /-- ADDPROG (R280). -/
  | addprog (p : Nat) (prog : Desc)
  /-- ADDPROGAT (R281). -/
  | addprogat (p : Nat) (prog : Desc) (offset : Int)
  /-- RMPROG (R283). -/
  | rmprog (p : Nat) (prog : Desc) (offset : Int)
  /-- JMP_ALWAYS(a) (R110). -/
  | jmpAlways (a : BitVec 5)
  /-- SET_PINS(v) (R110). -/
  | setPins (v : BitVec 5)
  /-- SET_PINDIRS(v) (R110). -/
  | setPindirs (v : BitVec 5)
  /-- OUT_NULL_32 (R110). -/
  | outNull32
  /-- PULL_NOBLOCK (R110). -/
  | pullNoblock
  deriving DecidableEq, Repr

end Sys2Proof
end

