-- ==== Sys2Proof/Machine/State.lean ====
section
/-! DEFINITION. Sys2Proof/Machine/State.lean: the state of the machine as plain data (10_state R22), its events, its
results, the requests of the host threads, and State.reset (70_reset R451, R452). -/

namespace Sys2Proof.Machine

open Sys2Proof

/-! ## Outcomes of a transaction (60_exceptions) -/

/-- An error result with the information it carries (R401). -/
inductive Err
  /-- Code 1. -/
  | addrMisaligned (addr : Word)
  /-- Code 2. -/
  | addrUnmapped (addr : Word)
  /-- Code 3, with the block's cause, a draw (log 19). -/
  | blockFault (addr cause : Word)
  /-- Code 4, with the offending values (log 24). -/
  | illegalArgument (values : List Int)
  /-- Code 5: `(amask, origin, occ[p])`. -/
  | allocationFailed (amask : Word) (origin : Int) (occ : Word)
  /-- Code 7, with the header byte. -/
  | illegalOperation (header : Byte)
  deriving DecidableEq, Repr

/-- The information of the fatal fault, code 6 (R271, R401): expected mask and actual occupancy. -/
structure FatalInfo where
  expected : Word
  actual   : Word
  deriving DecidableEq, Repr

/-- The reasons of `refuse(reason)` (R405). -/
inductive RefuseReason
  /-- R152. -/
  | writemAtAlias
  /-- R201. -/
  | bothJoined
  /-- R211. -/
  | execWhileStalled
  deriving DecidableEq, Repr

/-- What a host thread receives at the end of a transaction or macro-operation (R10, R400). -/
inductive Result
  /-- Ended with no value. -/
  | unit
  /-- A 32-bit value; PROVIDES and the status queries answer 1 or 0. -/
  | word (v : Word)
  /-- An offset, or -1 for "not possible" (R267, R408). -/
  | offset (k : Int)
  /-- A register's label (R145). -/
  | label (text : String)
  /-- An error result (R401). -/
  | error (e : Err)
  deriving DecidableEq, Repr

/-! ## Engine moves and events -/

/-- The moves of an execution engine at the CSR port (R230), with the data the engine chose (log 4). -/
inductive EngineMove
  /-- E1. -/
  | popTx (n : SmId)
  /-- E2, with the word pushed. -/
  | pushRx (n : SmId) (w : Word)
  /-- E3, TXSTALL. -/
  | stallTx (n : SmId)
  /-- E3, RXSTALL. -/
  | stallRx (n : SmId)
  /-- E4: sets (`on`) or clears one of the eight IRQ flags. -/
  | irqFlag (k : Fin 8) (on : Bool)
  /-- E5, with the new pc. -/
  | setPc (n : SmId) (v : BitVec 5)
  /-- E6, with the pad values and enables. -/
  | setPads (out oe : Word)
  /-- E7. -/
  | execDone (n : SmId)
  /-- E8. -/
  | execStall (n : SmId)
  deriving DecidableEq, Repr

/-- The events of the history (R24). -/
inductive Event
  | rd (addr value : Word)
  | wr (addr bits mask : Word) (xor : Bool)
  | push (p : PioId) (n : SmId) (w : Word)
  | pop (p : PioId) (n : SmId) (w : Word)
  | exec (p : PioId) (n : SmId) (instr : Half)
  | smRestart (p : PioId) (mask : BitVec 4)
  | clkdivRestart (p : PioId) (mask : BitVec 4)
  | flush (p : PioId) (n : SmId)
  | engine (p : PioId) (m : EngineMove)
  | alloc (p : PioId) (mask : Word) (offset : Int)
  | dealloc (p : PioId) (mask : Word) (offset : Int)
  | clear (p : PioId)
  deriving DecidableEq, Repr

/-! ## Host threads (R27) -/

/-- A configuration value (R300): held by a host, written by smSetConfig and smInit. -/
structure SmConfig where
  clkdiv    : Word
  execctrl  : Word
  shiftctrl : Word
  pinctrl   : Word
  deriving DecidableEq, Repr

/-- The six FIFO queries of R330. -/
inductive FifoQuery
  | rxFull
  | rxEmpty
  | txFull
  | txEmpty
  | txLevel
  | rxLevel
  deriving DecidableEq, Repr

/-- The control-protocol operations (43_control R321 to R344) and the other pseudo-instructions (R112, R284), with
their operands as a host gives them, before R320's checks. -/
inductive MacroOp
  | smSetConfig (p n : Nat) (c : SmConfig)
  | smSetEnabled (p n en : Nat)
  | restartSmMask (p m : Nat)
  | clkDivRestartSmMask (p m : Nat)
  | enableSmMaskInSync (p m : Nat)
  | smExec (p n instr : Nat)
  | smExecWaitBlocking (p n instr : Nat)
  | smPut (p n : Nat) (w : Word)
  | smGet (p n : Nat)
  | query (q : FifoQuery) (p n : Nat)
  | smPutBlocking (p n : Nat) (w : Word)
  | smGetBlocking (p n : Nat)
  | smDrainTXFIFO (p n : Nat)
  | smClearFIFOs (p n : Nat)
  | smInit (p n pc : Nat) (c : Option SmConfig)
  | smSetPins (p n : Nat) (pins : Word)
  | smSetPinsWithMask (p n : Nat) (values mask : Word)
  | smSetPinDirsWithMask (p n : Nat) (dirs mask : Word)
  | smSetConsecutivePinDirs (p n pin count : Nat) (isOut : Bool)
  | setBits (addr v : Word)
  | clrBits (addr v : Word)
  | xorBits (addr v : Word)
  | wrField (addr v : Word) (lsb width : Nat)
  | canAdd (p : Nat) (prog : Desc)
  deriving DecidableEq, Repr

/-- What a macro-operation does with the result of its last listed transaction. -/
inductive Cont
  /-- Ends with no value. -/
  | done
  /-- Ends with that result. -/
  | pass
  /-- Ends with a field of the value read (R330). -/
  | field (lsb width : Nat)
  /-- The poll of smExecWaitBlocking (R327). -/
  | execPoll (p : PioId) (n : SmId)
  /-- The poll of smPutBlocking (R331). -/
  | putPoll (p : PioId) (n : SmId) (w : Word)
  /-- The poll of smGetBlocking (R332). -/
  | getPoll (p : PioId) (n : SmId)
  /-- smDrainTXFIFO's choice of its word (R333). -/
  | drainSelect (p : PioId) (n : SmId)
  /-- The poll of smDrainTXFIFO (R333). -/
  | drainPoll (p : PioId) (n : SmId) (instr : Half)
  /-- A pin helper's frame after its first READ (R340): the window values of PINCTRL with their SET words. -/
  | pinFrame (p : PioId) (n : SmId) (windows : List (Word × Half))
  deriving DecidableEq, Repr

/-- A macro-operation in progress: the transactions still to take, what follows them, and whether it is a pin helper,
whose transactions are one critical section (R345). -/
structure MacroState where
  todo : List Instr
  cont : Cont
  pin  : Bool
  deriving DecidableEq, Repr

/-- The poll state of a WAIT (R160): its operands, the start and stop of both timeout domains, and whether the next
poll is enabled (R163, R166). -/
structure WaitState where
  addr       : Word
  expected   : Word
  mask       : Word
  ms         : Nat
  startCyc   : Nat
  stopCyc    : Nat
  startMs    : Nat
  stopMs     : Nat
  mayPoll    : Bool
  deriving DecidableEq, Repr

/-- What a host thread is doing (R27). -/
inductive HostOp
  | idle
  | waiting (w : WaitState)
  | running (m : MacroState)
  deriving DecidableEq, Repr

/-- What a host thread asks for (log 2): a transaction record, a 16-bit instruction word for a state machine (log 11),
or a macro-operation. -/
inductive Request
  | txn (bytes : List Byte)
  | word (p : PioId) (n : SmId) (w : Half)
  | op (m : MacroOp)
  deriving DecidableEq, Repr

/-- A host thread (R27): the requests it has still to make, its operation in progress, and the result its last
operation ended with (none while one is in progress: log 9). -/
structure Thread where
  queue  : List Request
  op     : HostOp
  result : Option Result
  deriving DecidableEq, Repr

/-- An idle thread with nothing to ask for. -/
def Thread.idle : Thread := { queue := [], op := .idle, result := none }

/-- One step of one agent (R20), chosen outside the machine (log 3). -/
inductive Move
  /-- Host thread t takes its next step. -/
  | host (t : Nat)
  /-- The engine of PIO p takes a move. -/
  | engine (p : PioId) (m : EngineMove)
  /-- The master clock ticks (R26). -/
  | masterClock
  /-- The wall clock ticks (R26). -/
  | wallClock
  /-- Host thread t is interrupted while it waits (R166). -/
  | interrupt (t : Nat)
  deriving DecidableEq, Repr

/-! ## The hardware -/

/-- One state machine's registers, FIFOs and engine-owned state (R44 to R51, R56, R57). -/
structure Sm where
  /-- SMn_CLKDIV (R44). -/
  clkdiv      : Word
  /-- SMn_EXECCTRL without bit 31 (R45). -/
  execctrl    : Word
  /-- SMn_SHIFTCTRL (R46). -/
  shiftctrl   : Word
  /-- SMn_PINCTRL (R47). -/
  pinctrl     : Word
  /-- `tx[p][n]`, head first (R57). -/
  tx          : List Word
  /-- `rx[p][n]`, head first (R57). -/
  rx          : List Word
  /-- `pc[p][n]` (R29). -/
  pc          : BitVec 5
  /-- `exec_stalled[p][n]` (R56), EXECCTRL bit 31. -/
  execStalled : Bool
  /-- `pending[p][n]` (R56). -/
  pending     : Option Half
  deriving DecidableEq, Repr

/-- One PIO instance (R22, R31). -/
structure Pio where
  /-- `occ[p]` (R23). -/
  occ             : Word
  /-- CTRL.SM_ENABLE (R32). -/
  smEnable        : BitVec 4
  /-- FDEBUG.TXSTALL (R34). -/
  txstall         : BitVec 4
  /-- FDEBUG.TXOVER (R34). -/
  txover          : BitVec 4
  /-- FDEBUG.RXUNDER (R34). -/
  rxunder         : BitVec 4
  /-- FDEBUG.RXSTALL (R34). -/
  rxstall         : BitVec 4
  /-- The eight IRQ flags (R38). -/
  irq             : BitVec 8
  /-- INPUT_SYNC_BYPASS (R40). -/
  inputSyncBypass : Word
  /-- `padout[p]`, DBG_PADOUT (R41). -/
  padout          : Word
  /-- `padoe[p]`, DBG_PADOE (R41). -/
  padoe           : Word
  /-- `imem[p]` (R43). -/
  imem            : Vector Half 32
  /-- IRQ0_INTE (R53). -/
  irq0Inte        : BitVec 12
  /-- IRQ0_INTF (R54). -/
  irq0Intf        : BitVec 12
  /-- IRQ1_INTE (R53). -/
  irq1Inte        : BitVec 12
  /-- IRQ1_INTF (R54). -/
  irq1Intf        : BitVec 12
  sm0             : Sm
  sm1             : Sm
  sm2             : Sm
  sm3             : Sm
  deriving DecidableEq, Repr

/-- The state of the machine (R22). -/
structure State where
  /-- The OPEN parameters (R5, R21; log 7). -/
  params      : Params
  pio0        : Pio
  pio1        : Pio
  /-- The master-clock counter (R26). -/
  cycles      : Nat
  /-- The wall-clock counter (R26). -/
  millis      : Nat
  /-- The host threads by position; a thread not listed is idle with nothing to ask for (R20, R27; log 10). -/
  threads     : List Thread
  /-- The host thread whose pin helper is in its critical section (R345). -/
  critical    : Option Nat
  /-- The event history, oldest first (R24). -/
  history     : List Event
  /-- The fault mark (R25, R404). -/
  faultMark   : Option FatalInfo
  /-- The refusal mark (R25, R405). -/
  refusalMark : Option RefuseReason
  /-- MODEL'S OWN (log 3): the moves still to come, first the next one. -/
  moves       : List Move
  /-- MODEL'S OWN (log 5): how many draws the run has made. -/
  draws       : Nat
  /-- MODEL'S OWN (log 10): the thread whose transaction is being taken. -/
  turn        : Nat
  /-- MODEL'S OWN (log 11): the state machine a PIO16 word is handed to. -/
  target      : PioId × SmId
  deriving DecidableEq, Repr

/-! ## Reasons a step stops -/

/-- Faults of a step. -/
inductive Fault
  /-- Raised by `step` in a state whose fault mark is set (R25, R404): "no further step: the run is stuck and is
  reported as faulted". SAFE: nothing is claimed of such a run beyond the mark (log 8). -/
  | fatal (info : FatalInfo)
  deriving DecidableEq, Repr

/-- Refusals of a step. -/
inductive Refusal
  /-- An arm of `exec` whose instruction has no meaning yet. SAFE: no claim can be proved of it. No arm raises it. -/
  | notModelled (mnemonic : String)
  /-- Raised by `step` in a state whose refusal mark is set (R25, R405): the spec gives the form no meaning and "a
  model admits no claim about the run from there on". SAFE (log 8). -/
  | refusedBefore (reason : RefuseReason)
  /-- Raised by `step` when a host thread's bytes end before the last operand of the record: they are no transaction
  of R103. SAFE (log 13). -/
  | truncatedRecord
  deriving DecidableEq, Repr

/-! ## Reset (70_reset R450 to R453) -/

/-- The reset state of a state machine (R49, R56, R57). -/
def Sm.reset : Sm where
  clkdiv := 0x00010000#32
  execctrl := 0x0001F000#32
  shiftctrl := 0x000C0000#32
  pinctrl := 0x14000000#32
  tx := []
  rx := []
  pc := 0#5
  execStalled := false
  pending := none

/-- The reset state of a PIO instance (R451, R452). -/
def Pio.reset : Pio where
  occ := 0#32
  smEnable := 0#4
  txstall := 0#4
  txover := 0#4
  rxunder := 0#4
  rxstall := 0#4
  irq := 0#8
  inputSyncBypass := 0#32
  padout := 0#32
  padoe := 0#32
  imem := Vector.replicate 32 0#16
  irq0Inte := 0#12
  irq0Intf := 0#12
  irq1Inte := 0#12
  irq1Intf := 0#12
  sm0 := .reset
  sm1 := .reset
  sm2 := .reset
  sm3 := .reset

/-- The machine right after reset, for any parameters (R5) and any values the two clocks start at (R452: "a model must
not assume they start at 0"). -/
def State.resetWith (params : Params) (cycles millis : Nat) : State where
  params := params
  pio0 := .reset
  pio1 := .reset
  cycles := cycles % 2 ^ params.cycleBits
  millis := millis % 2 ^ params.millisBits
  threads := []
  critical := none
  history := []
  faultMark := none
  refusalMark := none
  moves := []
  draws := 0
  turn := 0
  target := (0, 0)

/-- The machine right after reset: R451 and R452, with the parameters of log 7 and the clocks at free values (log 6). -/
def State.reset : State :=
  State.resetWith Config.resetParams Config.cyclesAtReset Config.millisAtReset

end Sys2Proof.Machine
end

