-- ==== Sys2Proof/Machine/Ops.lean ====
section
/-! DEFINITION. Sys2Proof/Machine/Ops.lean: the named operations over the state: the PIO instances and their state
machines, the event history, the draws, the host threads, and the ways a transaction ends.

THERE IS NO EXCEPTION ENTRY AND NO RETURN FROM ONE in this block: "there is no trap entry", "no transaction saves
state, changes a mode, or transfers control on an error" (60_exceptions R400, R412, R413). What stands in their place
is here, once each: `raise` (an error result, R400, R403), `fatal` (R404) and `refuse` (R405). -/

namespace Sys2Proof.Machine

open Sys2Proof

/-! ## PIO instances and state machines -/

/-- PIO instance p. -/
def State.pio (s : State) (p : PioId) : Pio :=
  match p with
  | 0 => s.pio0
  | 1 => s.pio1

/-- Replaces PIO instance p. -/
def State.setPio (s : State) (p : PioId) (x : Pio) : State :=
  match p with
  | 0 => { s with pio0 := x }
  | 1 => { s with pio1 := x }

/-- Changes PIO instance p. -/
def State.modPio (s : State) (p : PioId) (f : Pio → Pio) : State := s.setPio p (f (s.pio p))

/-- State machine n of a PIO. -/
def Pio.sm (x : Pio) (n : SmId) : Sm :=
  match n with
  | 0 => x.sm0
  | 1 => x.sm1
  | 2 => x.sm2
  | 3 => x.sm3

/-- Replaces state machine n of a PIO. -/
def Pio.setSm (x : Pio) (n : SmId) (m : Sm) : Pio :=
  match n with
  | 0 => { x with sm0 := m }
  | 1 => { x with sm1 := m }
  | 2 => { x with sm2 := m }
  | 3 => { x with sm3 := m }

/-- State machine n of PIO p. -/
def State.sm (s : State) (p : PioId) (n : SmId) : Sm := (s.pio p).sm n

/-- Changes state machine n of PIO p. -/
def State.modSm (s : State) (p : PioId) (n : SmId) (f : Sm → Sm) : State :=
  s.modPio p fun x => x.setSm n (f (x.sm n))

/-- Instruction-memory word i of PIO p (R8, R81). -/
def Pio.word (x : Pio) (i : Fin 32) : Half := x.imem[i]

/-- Writes instruction-memory word i (R188). -/
def Pio.setWord (x : Pio) (i : Fin 32) (w : Half) : Pio := { x with imem := x.imem.set i w }

/-! ## Events and draws -/

/-- `emit E` (R8, R24). -/
def State.emit (s : State) (e : Event) : State := { s with history := s.history ++ [e] }

/-- Takes note that one draw was made, so that the next is a fresh one (log 5). -/
def State.drawn (s : State) : State := { s with draws := s.draws + 1 }

/-! ## Host threads (R27) -/

/-- The entry at position n; a position not listed holds an idle thread (log 10). -/
def threadAt (l : List Thread) (n : Nat) : Thread := (l[n]?).getD .idle

/-- The list with another entry at position n, idle threads filling the positions in between. -/
def setThreadAt : List Thread → Nat → Thread → List Thread
  | [], 0, x => [x]
  | [], n + 1, x => .idle :: setThreadAt [] n x
  | _ :: l, 0, x => x :: l
  | y :: l, n + 1, x => y :: setThreadAt l n x

/-- Host thread t. -/
def State.thread (s : State) (t : Nat) : Thread := threadAt s.threads t

/-- Replaces host thread t. -/
def State.setThread (s : State) (t : Nat) (x : Thread) : State := { s with threads := setThreadAt s.threads t x }

/-- The result reaches the host thread whose transaction it is (R400, log 9). -/
def State.deliver (s : State) (r : Result) : State :=
  s.setThread s.turn { s.thread s.turn with result := some r }

/-- The thread's operation is over, with this result. -/
def State.finish (s : State) (r : Result) : State :=
  s.setThread s.turn { s.thread s.turn with op := .idle, result := some r }

/-- The thread's operation goes on; it has no result yet. -/
def State.proceed (s : State) (op : HostOp) : State :=
  s.setThread s.turn { s.thread s.turn with op := op, result := none }

/-! ## Ends of a transaction that are no normal result -/

/-- `raise Err(code, info)` (R8, R400, R403): the issuing thread receives the error, and nothing else changes. -/
def State.raise (s : State) (e : Err) : State := s.deliver (.error e)

/-- `fault Fatal(info)` (R8, R404): the fault mark is set, and nothing else changes. -/
def State.fatal (s : State) (info : FatalInfo) : State := { s with faultMark := some info }

/-- `refuse(reason)` (R8, R405): the refusal mark is set, and nothing else changes. -/
def State.refuse (s : State) (reason : RefuseReason) : State := { s with refusalMark := some reason }

/-- Neither mark is set (R25). -/
def State.unmarked (s : State) : Bool := s.faultMark.isNone && s.refusalMark.isNone

end Sys2Proof.Machine
end

