-- ==== Sys2Proof/Machine/Flags.lean ====
section
/-! DEFINITION. Sys2Proof/Machine/Flags.lean: every computed status of the block: the FIFO predicates (41_csr R192),
FSTAT, FLEVEL, FDEBUG, INTR, IRQk_INTS and the interrupt outputs, WAIT's timeout predicate (40_dispatch R161), and the
engine's guard (R231). The block has no ALU flags (10_state R61). -/

namespace Sys2Proof.Machine

open Sys2Proof

/-! ## FIFOs (R57, R192) -/

/-- `jr`: SHIFTCTRL.FJOIN_RX (R46). -/
def Sm.joinRx (m : Sm) : Bool := m.shiftctrl.getLsbD 31

/-- `jt`: SHIFTCTRL.FJOIN_TX (R46). -/
def Sm.joinTx (m : Sm) : Bool := m.shiftctrl.getLsbD 30

/-- `capTX` (R192). -/
def Sm.capTx (m : Sm) : Nat :=
  if m.joinTx then 2 * Config.fifoDepth else if m.joinRx then 0 else Config.fifoDepth

/-- `capRX` (R192). -/
def Sm.capRx (m : Sm) : Nat :=
  if m.joinRx then 2 * Config.fifoDepth else if m.joinTx then 0 else Config.fifoDepth

/-- `txLevel` (R192). -/
def Sm.txLevel (m : Sm) : Nat := if m.capTx = 0 then 0 else m.tx.length

/-- `rxLevel` (R192). -/
def Sm.rxLevel (m : Sm) : Nat := if m.capRx = 0 then 0 else m.rx.length

/-- `txReadsFull` (R192). -/
def Sm.txReadsFull (m : Sm) : Bool := decide (m.capTx = 0) || decide (m.tx.length = m.capTx)

/-- `txReadsEmpty` (R192). -/
def Sm.txReadsEmpty (m : Sm) : Bool := decide (m.capTx = 0) || decide (m.tx.length = 0)

/-- `rxReadsFull` (R192). -/
def Sm.rxReadsFull (m : Sm) : Bool := decide (m.capRx = 0) || decide (m.rx.length = m.capRx)

/-- `rxReadsEmpty` (R192). -/
def Sm.rxReadsEmpty (m : Sm) : Bool := decide (m.capRx = 0) || decide (m.rx.length = 0)

/-! ## Status registers -/

/-- Four nibbles at bits 27:24, 19:16, 11:8 and 3:0, the layout of FSTAT and FDEBUG (R33, R34). -/
def fourNibbles (a b c d : BitVec 4) : Word :=
  (a.setWidth 32 <<< 24) ||| (b.setWidth 32 <<< 16) ||| (c.setWidth 32 <<< 8) ||| d.setWidth 32

/-- FSTAT (R33, R193). -/
def Pio.fstat (x : Pio) : Word :=
  fourNibbles (smBits fun n => (x.sm n).txReadsEmpty) (smBits fun n => (x.sm n).txReadsFull)
    (smBits fun n => (x.sm n).rxReadsEmpty) (smBits fun n => (x.sm n).rxReadsFull)

/-- FDEBUG (R34, R195). -/
def Pio.fdebug (x : Pio) : Word := fourNibbles x.txstall x.txover x.rxunder x.rxstall

/-- The levels of one state machine at their place in FLEVEL (R35, R194). -/
def levelBits (x : Pio) (n : SmId) : Word :=
  (BitVec.ofNat 32 (x.sm n).txLevel <<< (8 * n.val)) ||| (BitVec.ofNat 32 (x.sm n).rxLevel <<< (8 * n.val + 4))

/-- FLEVEL (R35, R194). -/
def Pio.flevel (x : Pio) : Word := levelBits x 0 ||| levelBits x 1 ||| levelBits x 2 ||| levelBits x 3

/-- INTR, bits 11:0 (R52, R220): IRQ flags 3..0, TX not full, RX not empty. -/
def Pio.intr (x : Pio) : BitVec 12 :=
  x.irq.extractLsb' 0 4 ++ (smBits fun n => !(x.sm n).txReadsFull) ++ (smBits fun n => !(x.sm n).rxReadsEmpty)

/-- IRQk_INTE (R53). -/
def Pio.inte (x : Pio) (k : Fin 2) : BitVec 12 :=
  match k with
  | 0 => x.irq0Inte
  | 1 => x.irq1Inte

/-- IRQk_INTF (R54). -/
def Pio.intf (x : Pio) (k : Fin 2) : BitVec 12 :=
  match k with
  | 0 => x.irq0Intf
  | 1 => x.irq1Intf

/-- IRQk_INTS, bits 11:0 (R55, R221). -/
def Pio.ints (x : Pio) (k : Fin 2) : BitVec 12 := (x.intr ||| x.intf k) &&& x.inte k

/-- `irq_out[p][k]` (R222, R410): the level interrupt output, a function of the state at every step (log 26). -/
def State.irqOut (s : State) (p : PioId) (k : Fin 2) : Bool := (s.pio p).ints k != 0#12

/-- DBG_CFGINFO (R42, R198). -/
def cfgInfo : Word :=
  (BitVec.ofNat 32 Config.imemWords <<< 16) ||| (BitVec.ofNat 32 Config.numSm <<< 8) ||| BitVec.ofNat 32 Config.fifoDepth

/-! ## Predicates -/

/-- `timedOut(S, T, now)` (R161), "transcribed from the source". -/
def timedOut (S T now : Nat) : Bool :=
  if S < T then decide (now < S) || decide (T ≤ now) else decide (now < S) && decide (T ≤ now)

/-- `active(p, n)` (R231). -/
def Pio.active (x : Pio) (n : SmId) : Bool := x.smEnable.getLsbD n.val || (x.sm n).pending.isSome

/-- Some state machine is active (R231, the guard of E4 and E6). -/
def Pio.anyActive (x : Pio) : Bool := x.active 0 || x.active 1 || x.active 2 || x.active 3

end Sys2Proof.Machine
end

