-- ==== Sys2Proof/Machine/Operands.lean ====
section
/-! DEFINITION. Sys2Proof/Machine/Operands.lean: every operand form: register addresses and their resolution
(30_encoding R100, 40_dispatch R140 to R143), the register map (10_state R31), the alias triples (R102), and program
descriptors with their checks and masks (42_allocator R260 to R262). -/

namespace Sys2Proof.Machine

open Sys2Proof

/-! ## Indices -/

/-- A PIO index operand in 0..NUM_PIO-1. -/
def pioOf (p : Nat) : Option PioId := if h : p < 2 then some ⟨p, h⟩ else none

/-- A state-machine index operand in 0..NUM_SM-1 (R320). -/
def smOf (n : Nat) : Option SmId := if h : n < 4 then some ⟨n, h⟩ else none

/-! ## The register map (R31) -/

/-- The registers of a PIO CSR block. -/
inductive Reg
  | ctrl
  | fstat
  | fdebug
  | flevel
  | txf (n : SmId)
  | rxf (n : SmId)
  | irq
  | irqForce
  | inputSyncBypass
  | dbgPadout
  | dbgPadoe
  | dbgCfginfo
  | instrMem (i : Fin 32)
  | smClkdiv (n : SmId)
  | smExecctrl (n : SmId)
  | smShiftctrl (n : SmId)
  | smAddr (n : SmId)
  | smInstr (n : SmId)
  | smPinctrl (n : SmId)
  | intr
  | inte (k : Fin 2)
  | intf (k : Fin 2)
  | ints (k : Fin 2)
  deriving DecidableEq, Repr

/-- The register index r (R31). -/
def regIndex : Reg → Nat
  | .ctrl => 0
  | .fstat => 1
  | .fdebug => 2
  | .flevel => 3
  | .txf n => 4 + n.val
  | .rxf n => 8 + n.val
  | .irq => 12
  | .irqForce => 13
  | .inputSyncBypass => 14
  | .dbgPadout => 15
  | .dbgPadoe => 16
  | .dbgCfginfo => 17
  | .instrMem i => 18 + i.val
  | .smClkdiv n => 50 + 6 * n.val
  | .smExecctrl n => 51 + 6 * n.val
  | .smShiftctrl n => 52 + 6 * n.val
  | .smAddr n => 53 + 6 * n.val
  | .smInstr n => 54 + 6 * n.val
  | .smPinctrl n => 55 + 6 * n.val
  | .intr => 74
  | .inte k => 75 + 3 * k.val
  | .intf k => 76 + 3 * k.val
  | .ints k => 77 + 3 * k.val

/-- The register of a state machine at place k of its six (R31). -/
def smReg (n : SmId) (k : Nat) : Reg :=
  match k with
  | 0 => .smClkdiv n
  | 1 => .smExecctrl n
  | 2 => .smShiftctrl n
  | 3 => .smAddr n
  | 4 => .smInstr n
  | _ => .smPinctrl n

/-- The interrupt register at place k of its seven (R31). -/
def intReg (k : Nat) : Reg :=
  match k with
  | 0 => .intr
  | 1 => .inte 0
  | 2 => .intf 0
  | 3 => .ints 0
  | 4 => .inte 1
  | 5 => .intf 1
  | _ => .ints 1

/-- The register at index r, for r < 81 (R31). -/
def regOf (r : Nat) : Reg :=
  if r = 0 then .ctrl
  else if r = 1 then .fstat
  else if r = 2 then .fdebug
  else if r = 3 then .flevel
  else if r < 8 then .txf (Fin.ofNat 4 (r - 4))
  else if r < 12 then .rxf (Fin.ofNat 4 (r - 8))
  else if r = 12 then .irq
  else if r = 13 then .irqForce
  else if r = 14 then .inputSyncBypass
  else if r = 15 then .dbgPadout
  else if r = 16 then .dbgPadoe
  else if r = 17 then .dbgCfginfo
  else if r < 50 then .instrMem (Fin.ofNat 32 (r - 18))
  else if r < 74 then smReg (Fin.ofNat 4 ((r - 50) / 6)) ((r - 50) % 6)
  else intReg (r - 74)

/-- A number below 100 in decimal. -/
def decimal (n : Nat) : String :=
  if n < 10 then String.singleton (Char.ofNat (48 + n))
  else String.singleton (Char.ofNat (48 + n / 10)) ++ String.singleton (Char.ofNat (48 + n % 10))

/-- `name(r)` (R31). -/
def regName : Reg → String
  | .ctrl => "CTRL"
  | .fstat => "FSTAT"
  | .fdebug => "FDEBUG"
  | .flevel => "FLEVEL"
  | .txf n => "TXF" ++ decimal n.val
  | .rxf n => "RXF" ++ decimal n.val
  | .irq => "IRQ"
  | .irqForce => "IRQ_FORCE"
  | .inputSyncBypass => "INPUT_SYNC_BYPASS"
  | .dbgPadout => "DBG_PADOUT"
  | .dbgPadoe => "DBG_PADOE"
  | .dbgCfginfo => "DBG_CFGINFO"
  | .instrMem i => "INSTR_MEM" ++ decimal i.val
  | .smClkdiv n => "SM" ++ decimal n.val ++ "_CLKDIV"
  | .smExecctrl n => "SM" ++ decimal n.val ++ "_EXECCTRL"
  | .smShiftctrl n => "SM" ++ decimal n.val ++ "_SHIFTCTRL"
  | .smAddr n => "SM" ++ decimal n.val ++ "_ADDR"
  | .smInstr n => "SM" ++ decimal n.val ++ "_INSTR"
  | .smPinctrl n => "SM" ++ decimal n.val ++ "_PINCTRL"
  | .intr => "INTR"
  | .inte k => "IRQ" ++ decimal k.val ++ "_INTE"
  | .intf k => "IRQ" ++ decimal k.val ++ "_INTF"
  | .ints k => "IRQ" ++ decimal k.val ++ "_INTS"

/-- The label of a PIO register (R145): `"PIO" ++ p ++ "_" ++ name(r)`. -/
def regLabel (p : PioId) (r : Reg) : String := "PIO" ++ decimal p.val ++ "_" ++ regName r

/-! ## Addresses -/

/-- `PIO_BASE(p)` (R5). -/
def pioBase (p : PioId) : Word :=
  match p with
  | 0 => 0x50200000#32
  | 1 => 0x50300000#32

/-- `A(p, NAME)`: the alias-0 address of a register (43_control, notation). -/
def regAddr (p : PioId) (r : Reg) : Word := pioBase p + BitVec.ofNat 32 (4 * regIndex r)

/-- The base of a block, a multiple of 4 (R140). -/
def blockBase : Block → Word
  | .csr p => pioBase p
  | .device baseWord _ _ => baseWord ++ 0#2

/-- The size of a block in registers (R140). -/
def blockSize : Block → Nat
  | .csr _ => Config.pioSize
  | .device _ size _ => size

/-- The register index of an address relative to a base (R100, C1). -/
def regIndexAt (addr base : Word) : Nat := (((addr - base) &&& ~~~Config.aliasMask) >>> 2).toNat

/-- The alias field of an address relative to a base (R100). -/
def aliasAt (addr base : Word) : BitVec 2 := (addr - base).extractLsb' 12 2

/-- What an address resolves to (R141). -/
inductive Resolution
  | misaligned
  | unmapped
  | hit (b : Block) (r : Nat) (code : BitVec 2)
  deriving DecidableEq, Repr

/-- The scan of the block list, first match (R141, R142). -/
def resolveIn (addr : Word) : List Block → Resolution
  | [] => .unmapped
  | b :: bs =>
    if regIndexAt addr (blockBase b) < blockSize b then
      .hit b (regIndexAt addr (blockBase b)) (aliasAt addr (blockBase b))
    else resolveIn addr bs

/-- The address is word-aligned (R87). -/
def aligned (addr : Word) : Bool := addr.extractLsb' 0 2 == 0#2

/-- `resolve(addr)` (R141): alignment before any block (R143). -/
def State.resolve (s : State) (addr : Word) : Resolution :=
  if aligned addr then resolveIn addr s.params.blocks else .misaligned

/-- The masked-write triple (bits, mask, xor). -/
structure Triple where
  bits : Word
  mask : Word
  xor  : Bool
  deriving DecidableEq, Repr

/-- `aliasTriple(a, v)` (R102). -/
def aliasTriple (code : BitVec 2) (v : Word) : Triple :=
  if code = 0#2 then ⟨v, 0xFFFFFFFF#32, false⟩
  else if code = 1#2 then ⟨v, v, true⟩
  else if code = 2#2 then ⟨v, v, false⟩
  else ⟨~~~v, v, false⟩

/-! ## Program descriptors (R260 to R262) -/

/-- The checks a descriptor passes when it is built (R260, C6). -/
def descOk (d : Desc) : Bool :=
  decide (d.id ≠ some []) && decide (-1 ≤ d.origin) && decide (d.origin ≤ 31) && decide (d.wrap ≤ 31) &&
    decide (d.wrapTarget ≤ 31) && decide (d.sideSetCount ≤ if d.sideSetOpt then 4 else 5) &&
    decide (1 ≤ d.instrs.length) && decide (d.instrs.length ≤ 32) && d.instrs.all fun w => decide (w ≤ 0xFFFF)

/-- A value that fails its check, as "the offending values" of code 4 (R401). -/
def offending (ok : Bool) (v : Int) : List Int := if ok then [] else [v]

/-- "The offending values" (R401) of a descriptor, in the order of R260's fields: each value that fails its check of
`descOk`, an empty identifier as its length 0, an instruction list of illegal length as that length, and every instruction
word above 0xFFFF (log 24). -/
def descInfo (d : Desc) : List Int :=
  offending (decide (d.id ≠ some [])) 0 ++ offending (decide (-1 ≤ d.origin) && decide (d.origin ≤ 31)) d.origin ++
    offending (decide (d.wrap ≤ 31)) d.wrap ++ offending (decide (d.wrapTarget ≤ 31)) d.wrapTarget ++
    offending (decide (d.sideSetCount ≤ if d.sideSetOpt then 4 else 5)) d.sideSetCount ++
    offending (decide (1 ≤ d.instrs.length) && decide (d.instrs.length ≤ 32)) d.instrs.length ++
    d.instrs.flatMap fun w : Nat => offending (decide (w ≤ 0xFFFF)) w

/-- The mask of a program of `len` words placed at `off` (R261, R270, R281). -/
def placedMask (len off : Nat) : Word := rotl32 (lowmask len) off

/-- `allocationMask` (R261): `rotl32(lowmask(len), origin ≥ 0 ? origin : 0)`. -/
def allocMask (d : Desc) : Word := placedMask d.instrs.length (if 0 ≤ d.origin then d.origin.toNat else 0)

/-- The default of `wrapTarget` (R262). -/
def wrapTargetDefault (origin : Int) : Nat := if 0 ≤ origin then origin.toNat else 0

/-- The default of `wrap` (R262). -/
def wrapDefault (origin : Int) (len : Nat) : Nat := if 0 ≤ origin then (origin.toNat + len - 1) % 32 else len - 1

/-- An offset operand in 0..31 (R106). -/
def offsetOk (k : Int) : Bool := decide (0 ≤ k) && decide (k ≤ 31)

/-- The offset agrees with the program's origin (R270, R281): any for a relocatable one, the origin for a fixed one. -/
def offsetFits (d : Desc) (k : Int) : Bool := !(decide (0 ≤ d.origin) && decide (k ≠ d.origin))

end Sys2Proof.Machine
end

