-- ==== Sys2Proof/Machine/Csr.lean ====
section
/-! DEFINITION. Sys2Proof/Machine/Csr.lean: the PIO block's side of a read and of a write, register by register:
`view`, `pioRead` and `pioWrite` (41_csr R180 to R221). -/

namespace Sys2Proof.Machine

open Sys2Proof

/-! ## Reads -/

/-- SMn_EXECCTRL as it reads (R45, R202): the stored bits and EXEC_STALLED in bit 31. -/
def Sm.execctrlRead (m : Sm) : Word := m.execctrl ||| (if m.execStalled then 0x80000000#32 else 0#32)

/-- `view(p, r)` (R181): the value the masked-write formula takes as `old`, without side effects. SMn_INSTR with a
word pending views a draw (R210; log 12). -/
def pioView (s : State) (p : PioId) : Reg → Word
  | .ctrl => (s.pio p).smEnable.setWidth 32
  | .fstat => (s.pio p).fstat
  | .fdebug => (s.pio p).fdebug
  | .flevel => (s.pio p).flevel
  | .txf _ => 0#32
  | .rxf _ => 0#32
  | .irq => (s.pio p).irq.setWidth 32
  | .irqForce => 0#32
  | .inputSyncBypass => (s.pio p).inputSyncBypass
  | .dbgPadout => (s.pio p).padout
  | .dbgPadoe => (s.pio p).padoe
  | .dbgCfginfo => cfgInfo
  | .instrMem i => ((s.pio p).word i).setWidth 32
  | .smClkdiv n => (s.sm p n).clkdiv
  | .smExecctrl n => (s.sm p n).execctrlRead
  | .smShiftctrl n => (s.sm p n).shiftctrl
  | .smAddr n => (s.sm p n).pc.setWidth 32
  | .smInstr n =>
    match (s.sm p n).pending with
    | none => ((s.pio p).word (s.sm p n).pc.toFin).setWidth 32
    | some _ => Config.freeWord s.draws
  | .smPinctrl n => (s.sm p n).pinctrl
  | .intr => (s.pio p).intr.setWidth 32
  | .inte k => ((s.pio p).inte k).setWidth 32
  | .intf k => ((s.pio p).intf k).setWidth 32
  | .ints k => ((s.pio p).ints k).setWidth 32

/-- A read of RXFn (R191): pops a word, or sets RXUNDER and answers a draw. -/
def readRx (s : State) (p : PioId) (n : SmId) : Word × State :=
  match (s.sm p n).rxReadsEmpty, (s.sm p n).rx with
  | false, w :: ws => (w, (s.modSm p n fun m => { m with rx := ws }).emit (.pop p n w))
  | _, _ => (Config.freeWord s.draws, (s.modPio p fun x => { x with rxunder := x.rxunder ||| oneHot n }).drawn)

/-- `pioRead(p, r)` (R180): the value read and the state after it. Only RXFn reads change the block (R90); a value
that is a draw advances the model's own count of draws (log 5). -/
def pioRead (s : State) (p : PioId) (r : Reg) : Word × State :=
  match r with
  | .rxf n => readRx s p n
  | .instrMem _ =>
    match s.params.imemReadMode with
    | .stored => (pioView s p r, s)
    | .draw => (Config.freeWord s.draws, s.drawn)
  | .smInstr n => (pioView s p r, if (s.sm p n).pending.isSome then s.drawn else s)
  | _ => (pioView s p r, s)

/-! ## Writes -/

/-- Restart of state machine n (R205). -/
def restartSm (s : State) (p : PioId) (n : SmId) : State :=
  (s.modSm p n fun m => { m with pending := none, execStalled := false }).emit (.smRestart p (oneHot n))

/-- Restart of state machine n if its strobe bit is set (R185, R186). -/
def restartIf (s : State) (p : PioId) (strobe : BitVec 4) (n : SmId) : State :=
  if strobe.getLsbD n.val then restartSm s p n else s

/-- The clock-divider restart strobes (R186): one event for all of them, none if no bit is set. -/
def clkdivRestart (s : State) (p : PioId) (strobe : BitVec 4) : State :=
  if strobe = 0#4 then s else s.emit (.clkdivRestart p strobe)

/-- CTRL write (R186). -/
def writeCtrl (s : State) (p : PioId) (new d : Word) : State :=
  let s0 := s.modPio p fun x => { x with smEnable := new.extractLsb' 0 4 }
  let strobe := d.extractLsb' 4 4
  clkdivRestart (restartIf (restartIf (restartIf (restartIf s0 p strobe 0) p strobe 1) p strobe 2) p strobe 3) p
    (d.extractLsb' 8 4)

/-- FDEBUG write (R184, R195): the flags set in `d` are cleared. -/
def writeFdebug (s : State) (p : PioId) (d : Word) : State :=
  s.modPio p fun x =>
    { x with
      txstall := x.txstall &&& ~~~(d.extractLsb' 24 4)
      txover := x.txover &&& ~~~(d.extractLsb' 16 4)
      rxunder := x.rxunder &&& ~~~(d.extractLsb' 8 4)
      rxstall := x.rxstall &&& ~~~(d.extractLsb' 0 4) }

/-- TXFn write (R190): a full FIFO drops the word and sets TXOVER. -/
def writeTx (s : State) (p : PioId) (n : SmId) (w : Word) : State :=
  if (s.sm p n).txReadsFull then s.modPio p fun x => { x with txover := x.txover ||| oneHot n }
  else (s.modSm p n fun m => { m with tx := m.tx ++ [w] }).emit (.push p n w)

/-- The reserved bits of SHIFTCTRL dropped (R46). -/
def shiftctrlStored (v : Word) : Word := v &&& 0xFFFF0000#32

/-- The reserved and read-only bits of EXECCTRL dropped (R45, R202). -/
def execctrlStored (v : Word) : Word := v &&& 0x7FFFFF9F#32

/-- The reserved bits of CLKDIV dropped (R44, R199). -/
def clkdivStored (v : Word) : Word := v &&& 0xFFFFFF00#32

/-- SMn_SHIFTCTRL write (R200, R201): a change of a join bit flushes both FIFOs; both join bits together are refused. -/
def writeShiftctrl (s : State) (p : PioId) (n : SmId) (new : Word) : Except RefuseReason State :=
  if new.getLsbD 31 && new.getLsbD 30 then .error .bothJoined
  else if new.getLsbD 31 = (s.sm p n).joinRx ∧ new.getLsbD 30 = (s.sm p n).joinTx then
    .ok (s.modSm p n fun m => { m with shiftctrl := shiftctrlStored new })
  else
    .ok ((s.modSm p n fun m => { m with shiftctrl := shiftctrlStored new, tx := [], rx := [] }).emit (.flush p n))

/-- SMn_INSTR write (R211): the word is handed to the engine; whether it stalls is a draw. -/
def writeInstrReg (s : State) (p : PioId) (n : SmId) (w : Half) : Except RefuseReason State :=
  if (s.sm p n).pending.isSome && (s.sm p n).execStalled && decide (s.params.execOverwrite = .refuse) then
    .error .execWhileStalled
  else
    .ok ((s.modSm p n fun m =>
      { m with pending := some w, execStalled := Config.freeBit s.draws }).drawn.emit (.exec p n w))

/-- IRQk_INTE write (R53, R197). -/
def Pio.setInte (x : Pio) (k : Fin 2) (v : BitVec 12) : Pio :=
  match k with
  | 0 => { x with irq0Inte := v }
  | 1 => { x with irq1Inte := v }

/-- IRQk_INTF write (R54, R197). -/
def Pio.setIntf (x : Pio) (k : Fin 2) (v : BitVec 12) : Pio :=
  match k with
  | 0 => { x with irq0Intf := v }
  | 1 => { x with irq1Intf := v }

/-- What a write does to register r, given the new value and the written data of R182. -/
def applyWrite (s : State) (p : PioId) (r : Reg) (new d : Word) : Except RefuseReason State :=
  match r with
  | .ctrl => .ok (writeCtrl s p new d)
  | .fstat => .ok s
  | .fdebug => .ok (writeFdebug s p d)
  | .flevel => .ok s
  | .txf n => .ok (writeTx s p n new)
  | .rxf _ => .ok s
  | .irq => .ok (s.modPio p fun x => { x with irq := x.irq &&& ~~~(d.extractLsb' 0 8) })
  | .irqForce => .ok (s.modPio p fun x => { x with irq := x.irq ||| d.extractLsb' 0 8 })
  | .inputSyncBypass => .ok (s.modPio p fun x => { x with inputSyncBypass := new })
  | .dbgPadout => .ok s
  | .dbgPadoe => .ok s
  | .dbgCfginfo => .ok s
  | .instrMem i => .ok (s.modPio p fun x => x.setWord i (new.setWidth 16))
  | .smClkdiv n => .ok (s.modSm p n fun m => { m with clkdiv := clkdivStored new })
  | .smExecctrl n => .ok (s.modSm p n fun m => { m with execctrl := execctrlStored new })
  | .smShiftctrl n => writeShiftctrl s p n new
  | .smAddr _ => .ok s
  | .smInstr n => writeInstrReg s p n (new.setWidth 16)
  | .smPinctrl n => .ok (s.modSm p n fun m => { m with pinctrl := new })
  | .intr => .ok s
  | .inte k => .ok (s.modPio p fun x => x.setInte k (new.setWidth 12))
  | .intf k => .ok (s.modPio p fun x => x.setIntf k (new.setWidth 12))
  | .ints _ => .ok s

/-- `pioWrite(p, r, bits, mask, xor)` (R182). -/
def pioWrite (s : State) (p : PioId) (r : Reg) (bits mask : Word) (xor : Bool) : Except RefuseReason State :=
  applyWrite s p r (writtenValue (pioView s p r) bits mask xor) (writtenData (pioView s p r) bits mask xor)

end Sys2Proof.Machine
end

