-- ==== Sys2Proof/Machine/Bus.lean ====
section
/-! DEFINITION. Sys2Proof/Machine/Bus.lean: `BusRead` and `BusWriteM` (00_scope R8): an access routed to the block its
address resolves to (40_dispatch R146, R150, R151), opaque blocks included (20_memory R83, R148). -/

namespace Sys2Proof.Machine

open Sys2Proof

/-- An opaque block fails while serving the access: the access ends with BLOCK_FAULT (R83, R148; log 19). -/
def blockFaults (s : State) : Bool := Config.freeBit s.draws

/-- READ at an address (R146), aliases read alike (R147): the value or the error, and the state after it. -/
def busRead (s : State) (addr : Word) : Except Err Word × State :=
  match s.resolve addr with
  | .misaligned => (.error (.addrMisaligned addr), s)
  | .unmapped => (.error (.addrUnmapped addr), s)
  | .hit (.csr p) r _ =>
    let (v, s1) := pioRead s p (regOf r)
    (.ok v, s1.emit (.rd addr v))
  | .hit (.device _ _ _) _ _ =>
    let v := Config.freeWord s.draws
    if blockFaults s then (.error (.blockFault addr v), s.drawn)
    else (.ok v, s.drawn.emit (.rd addr v))

/-- `blockWrite` and the event of a write (R150, R151), with the end of the transaction. -/
def blockWrite (s : State) (addr : Word) (b : Block) (r : Nat) (t : Triple) : State :=
  match b with
  | .csr p =>
    match pioWrite s p (regOf r) t.bits t.mask t.xor with
    | .ok s1 => (s1.emit (.wr addr t.bits t.mask t.xor)).deliver .unit
    | .error reason => s.refuse reason
  | .device _ _ _ =>
    if blockFaults s then s.drawn.raise (.blockFault addr (Config.freeWord s.draws))
    else (s.drawn.emit (.wr addr t.bits t.mask t.xor)).deliver .unit

/-- The plain WRITE transaction (R150): the alias code of the resolved address gives the triple (R102). -/
def busWrite (s : State) (addr value : Word) : State :=
  match s.resolve addr with
  | .misaligned => s.raise (.addrMisaligned addr)
  | .unmapped => s.raise (.addrUnmapped addr)
  | .hit b r code => blockWrite s addr b r (aliasTriple code value)

/-- The WRITEM transaction (R151): refused at an alias address (R152). -/
def busWriteM (s : State) (addr bits mask : Word) (xor : Bool) : State :=
  match s.resolve addr with
  | .misaligned => s.raise (.addrMisaligned addr)
  | .unmapped => s.raise (.addrUnmapped addr)
  | .hit b r code =>
    if code = 0#2 then blockWrite s addr b r ⟨bits, mask, xor⟩ else s.refuse .writemAtAlias

end Sys2Proof.Machine
end

