-- ==== Sys2Proof/Machine/Allocator.lean ====
section
/-! DEFINITION. Sys2Proof/Machine/Allocator.lean: the instruction-memory allocator (42_allocator R265 to R285): ALLOC,
DEALLOC, IMCLEAR, ADDPROG, ADDPROGAT, RMPROG. -/

namespace Sys2Proof.Machine

open Sys2Proof

/-- The least k in 0..31 whose rotated mask meets no occupied slot (R265, R266). -/
def firstFit (occ amask : Word) : Option Nat :=
  (List.range 32).find? fun k => rotl32 amask k &&& occ == 0#32

/-- Where an allocation goes: the mask it occupies and the offset it answers (R265). -/
def findPlace (occ amask : Word) (origin : Int) : Option (Word × Nat) :=
  if 0 ≤ origin then
    if amask &&& occ = 0#32 then some (amask, origin.toNat) else none
  else
    match firstFit occ amask with
    | some k => some (rotl32 amask k, k)
    | none => none

/-- The operand checks of ALLOC (R265). -/
def allocArgsOk (amask : Word) (origin : Int) : Bool :=
  decide (amask ≠ 0#32) && decide (-1 ≤ origin) && decide (origin ≤ 31)

/-- The slots of `mask` become occupied (R265). -/
def occupy (s : State) (p : PioId) (mask : Word) (k : Nat) : State :=
  (s.modPio p fun x => { x with occ := x.occ ||| mask }).emit (.alloc p mask k)

/-- ALLOC's pseudocode (R265): the offset, or -1, with the state after it; or an error. -/
def allocate (p : Nat) (amask : Word) (origin : Int) (check : Bool) (s : State) : Except Err (Int × State) :=
  match pioOf p with
  | none => .error (.illegalArgument [p, amask.toNat, origin])
  | some q =>
    if allocArgsOk amask origin then
      match findPlace (s.pio q).occ amask origin with
      | some (m, k) => .ok (k, if check then s else occupy s q m k)
      | none => if check then .ok (-1, s) else .error (.allocationFailed amask origin (s.pio q).occ)
    else .error (.illegalArgument [p, amask.toNat, origin])

/-- The end of a transaction that answers an offset or an error. -/
def endOffset (x : Except Err (Int × State)) (s : State) : State :=
  match x with
  | .ok (k, s1) => s1.deliver (.offset k)
  | .error e => s.raise e

/-- ALLOC (R265). -/
def execAlloc (p : Nat) (amask : Word) (origin : Int) (check : Bool) (s : State) :
    Host.Outcome State Fault Refusal :=
  .next (endOffset (allocate p amask origin check s) s)

/-- DEALLOC's pseudocode (R270): the checks, the double-free fault (R271), or the slots freed. The instruction memory
is not touched (R272). -/
def deallocate (p : Nat) (prog : Desc) (offset : Int) (s : State) : State :=
  if descOk prog then
    match pioOf p with
    | none => s.raise (.illegalArgument [p, offset])
    | some q =>
      if offsetOk offset then
        if offsetFits prog offset then
          let m := placedMask prog.instrs.length offset.toNat
          if m &&& ~~~(s.pio q).occ = 0#32 then
            ((s.modPio q fun x => { x with occ := x.occ &&& ~~~m }).emit (.dealloc q m offset)).deliver .unit
          else s.fatal { expected := m, actual := (s.pio q).occ }
        else s.raise (.illegalArgument [prog.origin, offset])
      else s.raise (.illegalArgument [p, offset])
  else s.raise (.illegalArgument (descInfo prog))

/-- DEALLOC (R270). -/
def execDealloc (p : Nat) (prog : Desc) (offset : Int) (s : State) : Host.Outcome State Fault Refusal :=
  .next (deallocate p prog offset s)

/-- RMPROG (R283): "it is DEALLOC(p, prog, offset)". -/
def execRmprog (p : Nat) (prog : Desc) (offset : Int) (s : State) : Host.Outcome State Fault Refusal :=
  .next (deallocate p prog offset s)

/-- One instruction word written through the register path (R275, R282, R188). -/
def storeWord (s : State) (p : PioId) (i : Fin 32) (v : Word) : State :=
  match pioWrite s p (.instrMem i) v 0xFFFFFFFF#32 false with
  | .ok s1 => s1
  | .error reason => s.refuse reason

/-- INSTR_MEM0..k-1 <- 0, in order (R275). -/
def clearWords (s : State) (p : PioId) : Nat → State
  | 0 => s
  | k + 1 => storeWord (clearWords s p k) p (Fin.ofNat 32 k) 0#32

/-- IMCLEAR (R275): occupancy and memory of one PIO are cleared, and one event is emitted (log 23). -/
def execImclear (p : Nat) (s : State) : Host.Outcome State Fault Refusal :=
  match pioOf p with
  | none => .next (s.raise (.illegalArgument [p]))
  | some q =>
    .next (((clearWords (s.modPio q fun x => { x with occ := 0#32 }) q 32).emit (.clear q)).deliver .unit)

/-- The slot of instruction i of a program placed at `off` (R282). -/
def slotOf (off i : Nat) : Fin 32 := Fin.ofNat 32 (off + i)

/-- One word of `place` (R282): the write and its `Wr` event. -/
def placeWord (s : State) (p : PioId) (i : Fin 32) (w : Nat) : State :=
  (storeWord s p i (BitVec.ofNat 32 w)).emit (.wr (regAddr p (.instrMem i)) (BitVec.ofNat 32 w) 0xFFFFFFFF#32 false)

/-- `place(p, prog, off)` (R282), from instruction i on. -/
def placeFrom (p : PioId) (off : Nat) : Nat → List Nat → State → State
  | _, [], s => s
  | i, w :: ws, s => placeFrom p off (i + 1) ws (placeWord s p (slotOf off i) w)

/-- Allocation followed by placement, one atomic step (R280, R281). -/
def allocAndPlace (p : Nat) (amask : Word) (origin : Int) (prog : Desc) (s : State) : Except Err (Int × State) :=
  match pioOf p, allocate p amask origin false s with
  | _, .error e => .error e
  | some q, .ok (k, s1) => .ok (k, placeFrom q k.toNat 0 prog.instrs s1)
  | none, .ok x => .ok x

/-- ADDPROG (R280). -/
def execAddprog (p : Nat) (prog : Desc) (s : State) : Host.Outcome State Fault Refusal :=
  if descOk prog then .next (endOffset (allocAndPlace p (allocMask prog) prog.origin prog s) s)
  else .next (s.raise (.illegalArgument (descInfo prog)))

/-- ADDPROGAT (R281). -/
def execAddprogat (p : Nat) (prog : Desc) (offset : Int) (s : State) : Host.Outcome State Fault Refusal :=
  if descOk prog then
    if offsetOk offset then
      if offsetFits prog offset then
        .next (endOffset (allocAndPlace p (placedMask prog.instrs.length offset.toNat) offset prog s) s)
      else .next (s.raise (.illegalArgument [prog.origin, offset]))
    else .next (s.raise (.illegalArgument [offset]))
  else .next (s.raise (.illegalArgument (descInfo prog)))

end Sys2Proof.Machine
end

