-- ==== Sys2Proof/WellFormed.lean ====
section
/-! DEFINITION. Sys2Proof/WellFormed.lean: which terms of `Instr` the encoding of 30_encoding can carry. The checks
are those of the record format (R103, R104), not the range checks of R106, which the transactions make themselves. -/

namespace Sys2Proof

/-- An integer operand fits its 32-bit two's-complement field (log 1). -/
def fitsInt (v : Int) : Bool := decide (-(2 ^ 31 : Int) ≤ v) && decide (v < 2 ^ 31)

/-- An unsigned operand fits its 32-bit field (log 1). -/
def fitsWord (v : Nat) : Bool := decide (v < 2 ^ 32)

/-- The alias field `addr[13:12]` (R100) has the given code: it selects the WRITE variant (R104). -/
def hasAlias (addr : Word) (code : BitVec 2) : Bool := addr.extractLsb' 12 2 == code

/-- The identifier is absent, or "a non-empty string" (R260; log 22). -/
def idFits : Option (List Byte) → Bool
  | none => true
  | some text => decide (1 ≤ text.length)

/-- A descriptor's fields fit the serialised operand (log 1, log 22). -/
def Desc.wellFormed (d : Desc) : Bool :=
  idFits d.id && fitsInt d.origin && fitsWord d.wrap && fitsWord d.wrapTarget && fitsWord d.sideSetCount &&
    d.instrs.all fitsWord

/-- The instruction is one the encoding can carry. -/
def Instr.wellFormed : Instr → Bool
  | .read _ => true
  | .writeRw addr _ => hasAlias addr 0
  | .writeXor addr _ => hasAlias addr 1
  | .writeSet addr _ => hasAlias addr 2
  | .writeClr addr _ => hasAlias addr 3
  | .writem _ _ _ _ => true
  | .wait _ _ _ _ _ => true
  | .provides _ => true
  | .label _ => true
  | .alloc p _ origin _ => fitsWord p && fitsInt origin
  | .dealloc p prog offset => fitsWord p && prog.wellFormed && fitsInt offset
  | .imclear p => fitsWord p
  | .addprog p prog => fitsWord p && prog.wellFormed
  | .addprogat p prog offset => fitsWord p && prog.wellFormed && fitsInt offset
  | .rmprog p prog offset => fitsWord p && prog.wellFormed && fitsInt offset
  | .jmpAlways _ => true
  | .setPins _ => true
  | .setPindirs _ => true
  | .outNull32 => true
  | .pullNoblock => true

end Sys2Proof
end

