-- ==== Sys2Proof/Decode.lean ====
section
/-! DEFINITION. Sys2Proof/Decode.lean: the decoder and the encoder of 30_encoding.

An instruction is coded in one of two ways: a transaction record {header, operands} (R103), serialised into bytes as
log 1 says (little-endian, R86), or a 16-bit synthesised PIO word (R110). The decoder is total and rejects by name. -/

namespace Sys2Proof

/-- The coded form of one instruction. -/
inductive Coded
  /-- The bytes of a transaction record (TXN40 rows of the opcode table). -/
  | txn (bytes : List Byte)
  /-- A 16-bit PIO instruction word (PIO16 rows of the opcode table). -/
  | pio (w : Half)
  deriving DecidableEq, Repr

/-- Why a coded form is no instruction of the table. -/
inductive DecodeError
  /-- A reserved header (R105): op 0xC to 0xF, or bits 7:4 not all zero. -/
  | illegalOperation (header : Byte)
  /-- A one-bit operand (R103) whose byte is neither 0 nor 1 (R106). -/
  | illegalArgument (value : Nat)
  /-- The bytes end before the last operand: no record of R103 at all (log 13). -/
  | truncated
  /-- A 16-bit word that is none of R110's. -/
  | notSynthesised (w : Half)
  deriving DecidableEq, Repr

/-! ## Byte order (R86: little-endian where a value is serialised) -/

/-- The low `k` bytes of `v`, least significant first. -/
def leBytes : Nat → Nat → List Byte
  | 0, _ => []
  | k + 1, v => BitVec.ofNat 8 v :: leBytes k (v / 256)

/-- Reads `k` bytes, least significant first, and answers the rest. -/
def takeNat : Nat → List Byte → Except DecodeError (Nat × List Byte)
  | 0, bs => .ok (0, bs)
  | _ + 1, [] => .error .truncated
  | k + 1, b :: bs =>
    match takeNat k bs with
    | .ok (v, rest) => .ok (b.toNat + 256 * v, rest)
    | .error e => .error e

/-- A 32-bit word as 4 bytes. -/
def leWord (w : Word) : List Byte := leBytes 4 w.toNat

/-- Reads a 32-bit word. -/
def takeWord (bs : List Byte) : Except DecodeError (Word × List Byte) := do
  let (v, rest) ← takeNat 4 bs
  return (BitVec.ofNat 32 v, rest)

/-- An integer operand as 32-bit two's complement (log 1). -/
def leInt (v : Int) : List Byte := leBytes 4 (v % 2 ^ 32).toNat

/-- The integer whose 32-bit two's complement is `v`. -/
def intOfNat32 (v : Nat) : Int := if v < 2 ^ 31 then (v : Int) else (v : Int) - 2 ^ 32

/-- Reads an integer operand. -/
def takeInt (bs : List Byte) : Except DecodeError (Int × List Byte) := do
  let (v, rest) ← takeNat 4 bs
  return (intOfNat32 v, rest)

/-- An unsigned number of any size as bytes of 7 bits, least significant first, bit 7 set in every byte but the last
(log 1); `fuel` bounds the number of bytes after the first. -/
def leVarFrom : Nat → Nat → List Byte
  | 0, v => [BitVec.ofNat 8 v]
  | fuel + 1, v => if v < 128 then [BitVec.ofNat 8 v] else BitVec.ofNat 8 (v % 128 + 128) :: leVarFrom fuel (v / 128)

/-- An unsigned number of any size (log 1): `cyc` and `ms`, whose width is OPEN (R5, R103), and lengths. -/
def leVar (v : Nat) : List Byte := leVarFrom (Nat.log2 v) v

/-- Reads an unsigned number of any size. -/
def takeVar : List Byte → Except DecodeError (Nat × List Byte)
  | [] => .error .truncated
  | b :: bs =>
    if b.toNat < 128 then .ok (b.toNat, bs)
    else
      match takeVar bs with
      | .ok (v, rest) => .ok (b.toNat - 128 + 128 * v, rest)
      | .error e => .error e

/-- A one-bit operand as one byte. -/
def leFlag (b : Bool) : List Byte := [if b then 1#8 else 0#8]

/-- Reads a one-bit operand: 0 or 1, "an operand outside its legal range" otherwise (R106). -/
def takeFlag (bs : List Byte) : Except DecodeError (Bool × List Byte) := do
  let (v, rest) ← takeNat 1 bs
  if v = 0 then return (false, rest)
  else if v = 1 then return (true, rest)
  else .error (.illegalArgument v)

/-- Reads `k` bytes as they are. -/
def takeBytes : Nat → List Byte → Except DecodeError (List Byte × List Byte)
  | 0, bs => .ok ([], bs)
  | _ + 1, [] => .error .truncated
  | k + 1, b :: bs =>
    match takeBytes k bs with
    | .ok (v, rest) => .ok (b :: v, rest)
    | .error e => .error e

/-- Reads `k` 32-bit numbers. -/
def takeNats : Nat → List Byte → Except DecodeError (List Nat × List Byte)
  | 0, bs => .ok ([], bs)
  | k + 1, bs =>
    match takeNat 4 bs with
    | .error e => .error e
    | .ok (v, bs1) =>
      match takeNats k bs1 with
      | .ok (vs, rest) => .ok (v :: vs, rest)
      | .error e => .error e

/-! ## The descriptor operand (R103, R260; log 1, log 22) -/

/-- The identifier: its length (0: absent), then its bytes. -/
def leId : Option (List Byte) → List Byte
  | none => leVar 0
  | some text => leVar text.length ++ text

/-- Reads an identifier. -/
def takeId (bs : List Byte) : Except DecodeError (Option (List Byte) × List Byte) := do
  let (k, rest) ← takeVar bs
  if k = 0 then return (none, rest)
  else
    let (text, rest') ← takeBytes k rest
    return (some text, rest')

/-- A descriptor as operand bytes. -/
def leDesc (d : Desc) : List Byte :=
  leId d.id ++ (leInt d.origin ++ (leBytes 4 d.wrap ++ (leBytes 4 d.wrapTarget ++ (leBytes 4 d.sideSetCount ++
    (leFlag d.sideSetOpt ++ (leFlag d.sideSetPinDirs ++ (leVar d.instrs.length ++
      d.instrs.flatMap (leBytes 4))))))))

/-- Reads a descriptor. -/
def takeDesc (bs : List Byte) : Except DecodeError (Desc × List Byte) := do
  let (id, bs) ← takeId bs
  let (origin, bs) ← takeInt bs
  let (wrap, bs) ← takeNat 4 bs
  let (wrapTarget, bs) ← takeNat 4 bs
  let (sideSetCount, bs) ← takeNat 4 bs
  let (sideSetOpt, bs) ← takeFlag bs
  let (sideSetPinDirs, bs) ← takeFlag bs
  let (len, bs) ← takeVar bs
  let (instrs, bs) ← takeNats len bs
  return ({ id, origin, wrap, wrapTarget, sideSetCount, sideSetOpt, sideSetPinDirs, instrs }, bs)

/-! ## Transaction records (R103 to R107) -/

/-- The WRITE variant is "selected by the address's alias field" (R104): `addr[13:12]`, codes of R102. -/
def writeInstr (addr value : Word) : Instr :=
  if addr.extractLsb' 12 2 = 0#2 then .writeRw addr value
  else if addr.extractLsb' 12 2 = 1#2 then .writeXor addr value
  else if addr.extractLsb' 12 2 = 2#2 then .writeSet addr value
  else .writeClr addr value

/-- The operands that follow the decode word of opcode `op` (R104), read into an instruction. -/
def takeOperands (header : Byte) (addr : Word) (bs : List Byte) : Except DecodeError Instr :=
  match header.toNat with
  | 0x0 => .ok (.read addr)
  | 0x1 => do
    let (value, _) ← takeWord bs
    return writeInstr addr value
  | 0x2 => do
    let (bits, bs) ← takeWord bs
    let (mask, bs) ← takeWord bs
    let (xor, _) ← takeFlag bs
    return .writem addr bits mask xor
  | 0x3 => do
    let (expected, bs) ← takeWord bs
    let (mask, bs) ← takeWord bs
    let (cyc, bs) ← takeVar bs
    let (ms, _) ← takeVar bs
    return .wait addr expected mask cyc ms
  | 0x4 => .ok (.provides addr)
  | 0x5 => .ok (.label addr)
  | 0x6 => do
    let (p, bs) ← takeNat 4 bs
    let (amask, bs) ← takeWord bs
    let (origin, bs) ← takeInt bs
    let (check, _) ← takeFlag bs
    return .alloc p amask origin check
  | 0x7 => do
    let (p, bs) ← takeNat 4 bs
    let (prog, bs) ← takeDesc bs
    let (offset, _) ← takeInt bs
    return .dealloc p prog offset
  | 0x8 => do
    let (p, _) ← takeNat 4 bs
    return .imclear p
  | 0x9 => do
    let (p, bs) ← takeNat 4 bs
    let (prog, _) ← takeDesc bs
    return .addprog p prog
  | 0xA => do
    let (p, bs) ← takeNat 4 bs
    let (prog, bs) ← takeDesc bs
    let (offset, _) ← takeInt bs
    return .addprogat p prog offset
  | 0xB => do
    let (p, bs) ← takeNat 4 bs
    let (prog, bs) ← takeDesc bs
    let (offset, _) ← takeInt bs
    return .rmprog p prog offset
  | _ => .error (.illegalOperation header)

/-- A header is legal when bits 7:4 are zero and op is 0x0 to 0xB (R103, R105). -/
def headerLegal (header : Byte) : Bool :=
  header.extractLsb' 4 4 == 0#4 && decide ((header.extractLsb' 0 4).toNat < 0xC)

/-- Decodes a record: the header is decoded first (R105, R406), then the address, then the operands. -/
def decodeRecord : List Byte → Except DecodeError Instr
  | [] => .error .truncated
  | header :: bs =>
    if headerLegal header then do
      let (addr, bs) ← takeWord bs
      takeOperands header addr bs
    else .error (.illegalOperation header)

/-! ## Synthesised PIO words (R110) -/

/-- JMP_ALWAYS(a), `00000000000aaaaa`. -/
def jmpAlwaysWord (a : BitVec 5) : Half := a.setWidth 16

/-- SET_PINS(v), `11100000000vvvvv`. -/
def setPinsWord (v : BitVec 5) : Half := 0xE000#16 ||| v.setWidth 16

/-- SET_PINDIRS(v), `11100000100vvvvv`. -/
def setPindirsWord (v : BitVec 5) : Half := 0xE080#16 ||| v.setWidth 16

/-- OUT_NULL_32. -/
def outNull32Word : Half := 0x6060#16

/-- PULL_NOBLOCK. -/
def pullNoblockWord : Half := 0x8080#16

/-- Decodes a 16-bit word by the rows of R110. -/
def decodePio (w : Half) : Except DecodeError Instr :=
  if w.extractLsb' 5 11 = 0b00000000000#11 then .ok (.jmpAlways (w.extractLsb' 0 5))
  else if w.extractLsb' 5 11 = 0b11100000000#11 then .ok (.setPins (w.extractLsb' 0 5))
  else if w.extractLsb' 5 11 = 0b11100000100#11 then .ok (.setPindirs (w.extractLsb' 0 5))
  else if w = outNull32Word then .ok .outNull32
  else if w = pullNoblockWord then .ok .pullNoblock
  else .error (.notSynthesised w)

/-- The decoder of both forms. -/
def decode : Coded → Except DecodeError Instr
  | .txn bytes => decodeRecord bytes
  | .pio w => decodePio w

/-! ## The encoder -/

/-- A record: header, address (0 for an opcode without one: R103), operands. -/
def record (op : Byte) (addr : Word) (operands : List Byte) : Coded :=
  .txn (op :: (leWord addr ++ operands))

/-- The coded form of an instruction (R103, R104, R110). -/
def encode : Instr → Coded
  | .read addr => record 0x0 addr []
  | .writeRw addr value => record 0x1 addr (leWord value)
  | .writeXor addr value => record 0x1 addr (leWord value)
  | .writeSet addr value => record 0x1 addr (leWord value)
  | .writeClr addr value => record 0x1 addr (leWord value)
  | .writem addr bits mask xor => record 0x2 addr (leWord bits ++ (leWord mask ++ leFlag xor))
  | .wait addr expected mask cyc ms =>
    record 0x3 addr (leWord expected ++ (leWord mask ++ (leVar cyc ++ leVar ms)))
  | .provides addr => record 0x4 addr []
  | .label addr => record 0x5 addr []
  | .alloc p amask origin check =>
    record 0x6 0 (leBytes 4 p ++ (leWord amask ++ (leInt origin ++ leFlag check)))
  | .dealloc p prog offset => record 0x7 0 (leBytes 4 p ++ (leDesc prog ++ leInt offset))
  | .imclear p => record 0x8 0 (leBytes 4 p)
  | .addprog p prog => record 0x9 0 (leBytes 4 p ++ leDesc prog)
  | .addprogat p prog offset => record 0xA 0 (leBytes 4 p ++ (leDesc prog ++ leInt offset))
  | .rmprog p prog offset => record 0xB 0 (leBytes 4 p ++ (leDesc prog ++ leInt offset))
  | .jmpAlways a => .pio (jmpAlwaysWord a)
  | .setPins v => .pio (setPinsWord v)
  | .setPindirs v => .pio (setPindirsWord v)
  | .outNull32 => .pio outNull32Word
  | .pullNoblock => .pio pullNoblockWord

/-! ## The opcode table's numbering -/

/-- The record whose 40-bit decode word {header, addr} (R103) is `w`, every operand byte after it zero: 64 of them,
more than any record needs whose operands are all zero. -/
def tableRecord (w : Nat) : List Byte :=
  BitVec.ofNat 8 (w / 2 ^ 32) :: (leBytes 4 w ++ List.replicate 64 0#8)

/-- The coded form of a row's number: 40 bits are a decode word, 16 bits a PIO word. -/
def tableCoded (nbits w : Nat) : Option Coded :=
  if nbits = 40 then some (.txn (tableRecord w))
  else if nbits = 16 then some (.pio (BitVec.ofNat 16 w))
  else none

/-- What the decoder reads from an instruction numbered as spec/opcode_table.json numbers it. -/
def decodeTableWord (nbits w : Nat) : Option Instr :=
  match tableCoded nbits w with
  | none => none
  | some c =>
    match decode c with
    | .ok i => some i
    | .error _ => none

end Sys2Proof
end

