-- ==== Sys2Proof/Machine/Inject.lean ====
section
/-! DEFINITION. Sys2Proof/Machine/Inject.lean: the meanings of the synthesised PIO words (30_encoding R109, R110). The
block "stores and forwards 16-bit PIO instruction words without interpreting them": each is handed to the state machine
`target` by the one transaction of smExec, a WRITE of the word to its SMn_INSTR (43_control R326, 41_csr R211). What
the engine does with it is an engine move (R230), out of the block (R4 a; log 11). -/

namespace Sys2Proof.Machine

open Sys2Proof

/-- The instruction-override register of the state machine the word is for (R51, R326). -/
def targetAddr (s : State) : Word := regAddr s.target.1 (.smInstr s.target.2)

/-- smExec's transaction (R326). -/
def forwardWord (w : Half) (s : State) : State := busWrite s (targetAddr s) (w.setWidth 32)

/-- JMP_ALWAYS(a), used by smInit (R110, R335). -/
def execJmpAlways (a : BitVec 5) (s : State) : Host.Outcome State Fault Refusal :=
  .next (forwardWord (jmpAlwaysWord a) s)

/-- SET_PINS(v), used by smSetPins and smSetPinsWithMask (R110). -/
def execSetPins (v : BitVec 5) (s : State) : Host.Outcome State Fault Refusal :=
  .next (forwardWord (setPinsWord v) s)

/-- SET_PINDIRS(v), used by smSetPinDirsWithMask and smSetConsecutivePinDirs (R110). -/
def execSetPindirs (v : BitVec 5) (s : State) : Host.Outcome State Fault Refusal :=
  .next (forwardWord (setPindirsWord v) s)

/-- OUT_NULL_32, used by smDrainTXFIFO with AUTOPULL = 1 (R110). -/
def execOutNull32 (s : State) : Host.Outcome State Fault Refusal := .next (forwardWord outNull32Word s)

/-- PULL_NOBLOCK, used by smDrainTXFIFO with AUTOPULL = 0 (R110). -/
def execPullNoblock (s : State) : Host.Outcome State Fault Refusal := .next (forwardWord pullNoblockWord s)

end Sys2Proof.Machine
end

