-- ==== Sys2Proof/Machine/Transfer.lean ====
section
/-! DEFINITION. Sys2Proof/Machine/Transfer.lean: the meanings of READ, the four WRITE forms, WRITEM, PROVIDES and LABEL
(40_dispatch sections 2 to 4). -/

namespace Sys2Proof.Machine

open Sys2Proof

/-- The end of a transaction that answers a value or an error. -/
def endRead (x : Except Err Word × State) : State :=
  match x.1 with
  | .ok v => x.2.deliver (.word v)
  | .error e => x.2.raise e

/-- READ (R146). -/
def execRead (addr : Word) (s : State) : Host.Outcome State Fault Refusal := .next (endRead (busRead s addr))

/-- WRITE.RW (R102, R150). -/
def execWriteRw (addr value : Word) (s : State) : Host.Outcome State Fault Refusal := .next (busWrite s addr value)

/-- WRITE.XOR (R102, R150). -/
def execWriteXor (addr value : Word) (s : State) : Host.Outcome State Fault Refusal := .next (busWrite s addr value)

/-- WRITE.SET (R102, R150). -/
def execWriteSet (addr value : Word) (s : State) : Host.Outcome State Fault Refusal := .next (busWrite s addr value)

/-- WRITE.CLR (R102, R150). -/
def execWriteClr (addr value : Word) (s : State) : Host.Outcome State Fault Refusal := .next (busWrite s addr value)

/-- WRITEM (R151). -/
def execWritem (addr bits mask : Word) (xor : Bool) (s : State) : Host.Outcome State Fault Refusal :=
  .next (busWriteM s addr bits mask xor)

/-- PROVIDES (R144). -/
def execProvides (addr : Word) (s : State) : Host.Outcome State Fault Refusal :=
  match s.resolve addr with
  | .hit _ _ _ => .next (s.deliver (.word 1#32))
  | .misaligned => .next (s.deliver (.word 0#32))
  | .unmapped => .next (s.deliver (.word 0#32))

/-- LABEL (R145): an opaque block's label is a draw. -/
def execLabel (addr : Word) (s : State) : Host.Outcome State Fault Refusal :=
  match s.resolve addr with
  | .misaligned => .next (s.raise (.addrMisaligned addr))
  | .unmapped => .next (s.raise (.addrUnmapped addr))
  | .hit (.csr p) r _ => .next (s.deliver (.label (regLabel p (regOf r))))
  | .hit (.device _ _ _) _ _ => .next (s.drawn.deliver (.label (Config.freeText s.draws)))

end Sys2Proof.Machine
end

