-- ==== Sys2Proof/Machine/Wait.lean ====
section
/-! DEFINITION. Sys2Proof/Machine/Wait.lean: the WAIT transaction (40_dispatch R160 to R167): its start step with the
first poll, its later polls, and the moves of the two clocks and of an interruption that enable them (10_state R26,
40_dispatch R163, R166). -/

namespace Sys2Proof.Machine

open Sys2Proof

/-- The poll's stop condition (R160): the masked value matches, or a timeout domain has run out. -/
def waitOver (w : WaitState) (v : Word) (s : State) : Bool :=
  decide (v = w.expected) || timedOut w.startCyc w.stopCyc s.cycles ||
    (decide (w.ms ≠ 0) && timedOut w.startMs w.stopMs s.millis)

/-- One poll step (R160): an error of its READ ends the WAIT; otherwise the WAIT ends with the masked value (R164) or
suspends until the next clock step (R163). -/
def waitPoll (w : WaitState) (s : State) : State :=
  match busRead s w.addr with
  | (.error e, s1) => s1.finish (.error e)
  | (.ok v, s1) =>
    if waitOver w (v &&& w.mask) s1 then s1.finish (.word (v &&& w.mask))
    else s1.proceed (.waiting { w with mayPoll := false })

/-- The poll state of a WAIT that starts now (R160). -/
def waitStart (addr expected mask : Word) (cyc ms : Nat) (s : State) : WaitState where
  addr := addr
  expected := expected
  mask := mask
  ms := ms
  startCyc := s.cycles
  stopCyc := (s.cycles + cyc) % 2 ^ s.params.cycleBits
  startMs := s.millis
  stopMs := (s.millis + ms) % 2 ^ s.params.millisBits
  mayPoll := true

/-- A timeout operand is at most one full counter period (R103, R160, C12). -/
def timeoutOk (v bits : Nat) : Bool := decide (v ≤ 2 ^ bits)

/-- WAIT (R160): the operand checks (R406), then the start step together with the first poll. -/
def execWait (addr expected mask : Word) (cyc ms : Nat) (s : State) : Host.Outcome State Fault Refusal :=
  if timeoutOk cyc s.params.cycleBits && timeoutOk ms s.params.millisBits then
    .next (waitPoll (waitStart addr expected mask cyc ms s) s)
  else .next (s.raise (.illegalArgument [cyc, ms]))

/-- A waiting thread may take one more poll (R163, R166). DESIGN CHOICE (log 29): permissions do not add up, so an
interruption or a clock step that finds the next poll already enabled leaves it enabled and grants no second one. -/
def Thread.wake (x : Thread) : Thread :=
  match x.op with
  | .waiting w => { x with op := .waiting { w with mayPoll := true } }
  | .idle => x
  | .running _ => x

/-- A master-clock step (R26): the counter advances and every waiting thread sees the phase change. -/
def masterTick (s : State) : State :=
  { s with cycles := (s.cycles + 1) % 2 ^ s.params.cycleBits, threads := s.threads.map Thread.wake }

/-- A wall-clock step (R26). -/
def wallTick (s : State) : State :=
  { s with millis := (s.millis + 1) % 2 ^ s.params.millisBits, threads := s.threads.map Thread.wake }

/-- An interruption of thread t (R166, R411): it may recheck its condition, and nothing is cancelled. -/
def interruptThread (t : Nat) (s : State) : State := s.setThread t (s.thread t).wake

end Sys2Proof.Machine
end

