-- ==== Sys2Proof/Machine/Dispatch.lean ====
section
/-! DEFINITION. Sys2Proof/Machine/Dispatch.lean: one arm per constructor of Instr, one direct call of its meaning. -/

namespace Sys2Proof.Machine

open Sys2Proof

def exec (i : Instr) (s : State) : Host.Outcome State Fault Refusal :=
  match i with
  | .read addr => Sys2Proof.Machine.execRead addr s
  | .writeRw addr value => Sys2Proof.Machine.execWriteRw addr value s
  | .writeXor addr value => Sys2Proof.Machine.execWriteXor addr value s
  | .writeSet addr value => Sys2Proof.Machine.execWriteSet addr value s
  | .writeClr addr value => Sys2Proof.Machine.execWriteClr addr value s
  | .writem addr bits mask xor => Sys2Proof.Machine.execWritem addr bits mask xor s
  | .wait addr expected mask cyc ms => Sys2Proof.Machine.execWait addr expected mask cyc ms s
  | .provides addr => Sys2Proof.Machine.execProvides addr s
  | .label addr => Sys2Proof.Machine.execLabel addr s
  | .alloc p amask origin check => Sys2Proof.Machine.execAlloc p amask origin check s
  | .dealloc p prog offset => Sys2Proof.Machine.execDealloc p prog offset s
  | .imclear p => Sys2Proof.Machine.execImclear p s
  | .addprog p prog => Sys2Proof.Machine.execAddprog p prog s
  | .addprogat p prog offset => Sys2Proof.Machine.execAddprogat p prog offset s
  | .rmprog p prog offset => Sys2Proof.Machine.execRmprog p prog offset s
  | .jmpAlways a => Sys2Proof.Machine.execJmpAlways a s
  | .setPins v => Sys2Proof.Machine.execSetPins v s
  | .setPindirs v => Sys2Proof.Machine.execSetPindirs v s
  | .outNull32 => Sys2Proof.Machine.execOutNull32 s
  | .pullNoblock => Sys2Proof.Machine.execPullNoblock s

end Sys2Proof.Machine
end

