-- ==== Sys2Proof/Machine/Engine.lean ====
section
/-! DEFINITION. Sys2Proof/Machine/Engine.lean: the moves of an execution engine at the CSR port (41_csr R230), each with
its guard (R231). Which move happens, when, and with which data is the environment's free choice (log 3, log 4). -/

namespace Sys2Proof.Machine

open Sys2Proof

/-- The guard of a move (R231). -/
def engineEnabled (x : Pio) : EngineMove → Bool
  | .popTx n => x.active n
  | .pushRx n _ => x.active n
  | .stallTx n => x.active n
  | .stallRx n => x.active n
  | .irqFlag _ _ => x.anyActive
  | .setPc n _ => x.active n
  | .setPads _ _ => x.anyActive
  | .execDone n => (x.sm n).pending.isSome
  | .execStall n => (x.sm n).pending.isSome

/-- E2's condition (R230). -/
def Sm.rxCanTake (m : Sm) : Bool := !m.rxReadsFull && decide (0 < m.capRx)

/-- The effect of a move on its PIO (R230). -/
def engineEffect (x : Pio) : EngineMove → Pio
  | .popTx n => x.setSm n { x.sm n with tx := (x.sm n).tx.tail }
  | .pushRx n w => if (x.sm n).rxCanTake then x.setSm n { x.sm n with rx := (x.sm n).rx ++ [w] } else x
  | .stallTx n => { x with txstall := x.txstall ||| oneHot n }
  | .stallRx n => { x with rxstall := x.rxstall ||| oneHot n }
  | .irqFlag k on =>
    { x with irq := if on then x.irq ||| (1#8 <<< k.val) else x.irq &&& ~~~(1#8 <<< k.val) }
  | .setPc n v => x.setSm n { x.sm n with pc := v }
  | .setPads out oe => { x with padout := out, padoe := oe }
  | .execDone n => x.setSm n { x.sm n with pending := none, execStalled := false }
  | .execStall n => x.setSm n { x.sm n with execStalled := true }

/-- A move of the engine of PIO p (R230): if its guard does not hold there is no such move (R231; log 15). -/
def engineMove (p : PioId) (m : EngineMove) (s : State) : State :=
  if engineEnabled (s.pio p) m then (s.modPio p fun x => engineEffect x m).emit (.engine p m) else s

end Sys2Proof.Machine
end

