-- ==== Sys2Proof/Machine/Builder.lean ====
section
/-! DEFINITION. Sys2Proof/Machine/Builder.lean: the configuration builder (43_control R300 to R316): pure functions on a
value a host holds; none of them makes a transaction. -/

namespace Sys2Proof.Machine

open Sys2Proof

/-- The place of a field in its word (R108): least significant bit and mask. -/
structure Field where
  lsb  : Nat
  mask : Word
  deriving DecidableEq, Repr

def fClkInt : Field := ⟨16, 0xFFFF0000#32⟩
def fClkFrac : Field := ⟨8, 0x0000FF00#32⟩
def fSideEn : Field := ⟨30, 0x40000000#32⟩
def fSidePindir : Field := ⟨29, 0x20000000#32⟩
def fJmpPin : Field := ⟨24, 0x1F000000#32⟩
def fOutEnSel : Field := ⟨19, 0x00F80000#32⟩
def fInlineOutEn : Field := ⟨18, 0x00040000#32⟩
def fOutSticky : Field := ⟨17, 0x00020000#32⟩
def fWrapTop : Field := ⟨12, 0x0001F000#32⟩
def fWrapBottom : Field := ⟨7, 0x00000F80#32⟩
def fStatusSel : Field := ⟨4, 0x00000010#32⟩
def fStatusN : Field := ⟨0, 0x0000000F#32⟩
def fFjoinRx : Field := ⟨31, 0x80000000#32⟩
def fFjoinTx : Field := ⟨30, 0x40000000#32⟩
def fPullThresh : Field := ⟨25, 0x3E000000#32⟩
def fPushThresh : Field := ⟨20, 0x01F00000#32⟩
def fOutShiftdir : Field := ⟨19, 0x00080000#32⟩
def fInShiftdir : Field := ⟨18, 0x00040000#32⟩
def fAutopull : Field := ⟨17, 0x00020000#32⟩
def fAutopush : Field := ⟨16, 0x00010000#32⟩
def fSidesetCount : Field := ⟨29, 0xE0000000#32⟩
def fSetCount : Field := ⟨26, 0x1C000000#32⟩
def fOutCount : Field := ⟨20, 0x03F00000#32⟩
def fInBase : Field := ⟨15, 0x000F8000#32⟩
def fSidesetBase : Field := ⟨10, 0x00007C00#32⟩
def fSetBase : Field := ⟨5, 0x000003E0#32⟩
def fOutBase : Field := ⟨0, 0x0000001F#32⟩

/-- Packs a value into one field of a word (R301). -/
def setField (f : Field) (v : Nat) (w : Word) : Word := packField w f.lsb f.mask v

/-- A flag as a field value. -/
def flagValue (b : Bool) : Nat := if b then 1 else 0

/-- `default()` (R300): the reset values of the four words. -/
def defaultConfig : SmConfig := ⟨0x00010000#32, 0x0001F000#32, 0x000C0000#32, 0x14000000#32⟩

/-- The first argument outside its legal range, in the order listed (R301). -/
def firstBad : List (Nat × Bool) → Option Nat
  | [] => none
  | (v, ok) :: rest => if ok then firstBad rest else some v

/-- The form of every setter (R301): the range checks, then the new configuration. -/
def setter (args : List (Nat × Bool)) (c : SmConfig) : Except Err SmConfig :=
  match firstBad args with
  | some v => .error (.illegalArgument [v])
  | none => .ok c

/-- R302. -/
def setClkdivIntFrac (c : SmConfig) (int frac : Nat) : Except Err SmConfig :=
  setter [(int, decide (int ≤ 65535)), (frac, decide (frac ≤ 255) && (decide (int ≠ 0) || decide (frac = 0)))]
    { c with clkdiv := setField fClkFrac frac (setField fClkInt int c.clkdiv) }

/-- R303, with the divisor given as the fraction num/den (log 17). -/
def setClkdiv (c : SmConfig) (num den : Nat) : Except Err SmConfig :=
  if den ≠ 0 ∧ den ≤ num ∧ num ≤ 65536 * den then
    setClkdivIntFrac c (num / den % 65536) (num % den * 256 / den)
  else .error (.illegalArgument [num, den])

/-- R304. -/
def setWrap (c : SmConfig) (target wrap : Nat) : Except Err SmConfig :=
  setter [(target, decide (target ≤ 31)), (wrap, decide (wrap ≤ 31))]
    { c with execctrl := setField fWrapTop wrap (setField fWrapBottom target c.execctrl) }

/-- R305. -/
def setJmpPin (c : SmConfig) (pin : Nat) : Except Err SmConfig :=
  setter [(pin, decide (pin ≤ 31))] { c with execctrl := setField fJmpPin pin c.execctrl }

/-- R306. -/
def setMovStatus (c : SmConfig) (sel n : Nat) : Except Err SmConfig :=
  setter [(sel, decide (sel ≤ 1)), (n, decide (n ≤ 15))]
    { c with execctrl := setField fStatusN n (setField fStatusSel sel c.execctrl) }

/-- R307. -/
def setSideset (c : SmConfig) (count : Nat) (opt pindirs : Bool) : Except Err SmConfig :=
  setter [(count, decide (count ≤ 5) && (!opt || decide (1 ≤ count)))]
    { c with
      pinctrl := setField fSidesetCount count c.pinctrl
      execctrl := setField fSidePindir (flagValue pindirs) (setField fSideEn (flagValue opt) c.execctrl) }

/-- R308. -/
def setOutSpecial (c : SmConfig) (sticky hasEnablePin : Bool) (enablePin : Nat) : Except Err SmConfig :=
  setter [(enablePin, decide (enablePin ≤ 31))]
    { c with
      execctrl := setField fOutEnSel enablePin
        (setField fInlineOutEn (flagValue hasEnablePin) (setField fOutSticky (flagValue sticky) c.execctrl)) }

/-- R309. -/
def setOutPins (c : SmConfig) (base count : Nat) : Except Err SmConfig :=
  setter [(base, decide (base ≤ 31)), (count, decide (count ≤ 32))]
    { c with pinctrl := setField fOutCount count (setField fOutBase base c.pinctrl) }

/-- R310. -/
def setSetPins (c : SmConfig) (base count : Nat) : Except Err SmConfig :=
  setter [(base, decide (base ≤ 31)), (count, decide (count ≤ 5))]
    { c with pinctrl := setField fSetCount count (setField fSetBase base c.pinctrl) }

/-- R311. -/
def setInPins (c : SmConfig) (base : Nat) : Except Err SmConfig :=
  setter [(base, decide (base ≤ 31))] { c with pinctrl := setField fInBase base c.pinctrl }

/-- R312. -/
def setSidesetPins (c : SmConfig) (base : Nat) : Except Err SmConfig :=
  setter [(base, decide (base ≤ 31))] { c with pinctrl := setField fSidesetBase base c.pinctrl }

/-- R313. -/
def setOutShift (c : SmConfig) (shiftRight autopull : Bool) (threshold : Nat) : Except Err SmConfig :=
  setter [(threshold, decide (1 ≤ threshold) && decide (threshold ≤ 32))]
    { c with
      shiftctrl := setField fPullThresh (threshold % 32)
        (setField fAutopull (flagValue autopull) (setField fOutShiftdir (flagValue shiftRight) c.shiftctrl)) }

/-- R314. -/
def setInShift (c : SmConfig) (shiftRight autopush : Bool) (threshold : Nat) : Except Err SmConfig :=
  setter [(threshold, decide (1 ≤ threshold) && decide (threshold ≤ 32))]
    { c with
      shiftctrl := setField fPushThresh (threshold % 32)
        (setField fAutopush (flagValue autopush) (setField fInShiftdir (flagValue shiftRight) c.shiftctrl)) }

/-- The join modes of R315. -/
inductive JoinMode
  | none
  | tx
  | rx
  deriving DecidableEq, Repr

/-- R315: "no setter produces both join bits set". -/
def setFifoJoin (c : SmConfig) (mode : JoinMode) : SmConfig :=
  { c with
    shiftctrl := setField fFjoinRx (flagValue (mode == .rx)) (setField fFjoinTx (flagValue (mode == .tx)) c.shiftctrl) }

end Sys2Proof.Machine
end

