-- ==== Sys2Proof/Machine/Protocol.lean ====
section
/-! DEFINITION. Sys2Proof/Machine/Protocol.lean: the control protocol (43_control R320 to R345) and the other
pseudo-instructions (30_encoding R112, 42_allocator R284): each operation's operand checks, and its expansion into the
transactions it takes, in order. -/

namespace Sys2Proof.Machine

open Sys2Proof

/-! ## The transactions an operation is made of -/

/-- `READ A(p, r)`. -/
def readReg (p : PioId) (r : Reg) : Instr := .read (regAddr p r)

/-- `WRITE A(p, r), v`: an alias-0 address, so the RW variant. -/
def writeReg (p : PioId) (r : Reg) (v : Word) : Instr := .writeRw (regAddr p r) v

/-- `WRITEM A(p, r), bits, mask, xor`. -/
def maskReg (p : PioId) (r : Reg) (bits mask : Word) (xor : Bool) : Instr := .writem (regAddr p r) bits mask xor

/-- smExec's one transaction (R326). -/
def execReg (p : PioId) (n : SmId) (w : Half) : Instr := writeReg p (.smInstr n) (w.setWidth 32)

/-- The bit for state machine n at a place of a shared register: `1 << (lsb + n)`. -/
def smBitAt (lsb : Nat) (n : SmId) : Word := 1#32 <<< (lsb + n.val)

/-- smSetEnabled's transaction (R322). -/
def enableTxn (p : PioId) (n : SmId) (en : Nat) : Instr :=
  maskReg p .ctrl (BitVec.ofNat 32 en <<< n.val) (smBitAt 0 n) false

/-- restartSmMask's transaction (R323). -/
def restartTxn (p : PioId) (m : Nat) : Instr :=
  maskReg p .ctrl (BitVec.ofNat 32 m <<< 4) (BitVec.ofNat 32 m <<< 4) false

/-- clkDivRestartSmMask's transaction (R324). -/
def clkdivTxn (p : PioId) (m : Nat) : Instr :=
  maskReg p .ctrl (BitVec.ofNat 32 m <<< 8) (BitVec.ofNat 32 m <<< 8) false

/-- enableSmMaskInSync's transaction (R325). -/
def enableInSyncTxn (p : PioId) (m : Nat) : Instr :=
  maskReg p .ctrl ((BitVec.ofNat 32 m <<< 8) ||| BitVec.ofNat 32 m) ((BitVec.ofNat 32 m <<< 8) ||| BitVec.ofNat 32 m)
    false

/-- smSetConfig's four transactions (R321). -/
def configTxns (p : PioId) (n : SmId) (c : SmConfig) : List Instr :=
  [writeReg p (.smClkdiv n) c.clkdiv, writeReg p (.smExecctrl n) c.execctrl, writeReg p (.smShiftctrl n) c.shiftctrl,
    writeReg p (.smPinctrl n) c.pinctrl]

/-- One toggle of FJOIN_RX (R334). -/
def toggleTxn (p : PioId) (n : SmId) : Instr := maskReg p (.smShiftctrl n) 0x80000000#32 0x80000000#32 true

/-- smClearFIFOs's two transactions (R334, C8). -/
def clearFifosTxns (p : PioId) (n : SmId) : List Instr := [toggleTxn p n, toggleTxn p n]

/-- The FDEBUG clear of smInit (R335, R337). -/
def fdebugClearTxn (p : PioId) (n : SmId) : Instr :=
  writeReg p .fdebug (smBitAt 24 n ||| smBitAt 16 n ||| smBitAt 8 n ||| smBitAt 0 n)

/-- smInit's eleven transactions (R335). -/
def initTxns (p : PioId) (n : SmId) (pc : Nat) (c : SmConfig) : List Instr :=
  enableTxn p n 0 :: (configTxns p n c ++ (clearFifosTxns p n ++
    [fdebugClearTxn p n, restartTxn p (2 ^ n.val), clkdivTxn p (2 ^ n.val), execReg p n (jmpAlwaysWord (BitVec.ofNat 5 pc))]))

/-- The register a FIFO query reads (R330). -/
def queryReg : FifoQuery → Reg
  | .rxFull => .fstat
  | .rxEmpty => .fstat
  | .txFull => .fstat
  | .txEmpty => .fstat
  | .txLevel => .flevel
  | .rxLevel => .flevel

/-- The field of it that a FIFO query answers (R330). -/
def queryField (q : FifoQuery) (n : SmId) : Cont :=
  match q with
  | .rxFull => .field n.val 1
  | .rxEmpty => .field (8 + n.val) 1
  | .txFull => .field (16 + n.val) 1
  | .txEmpty => .field (24 + n.val) 1
  | .txLevel => .field (8 * n.val) 4
  | .rxLevel => .field (8 * n.val + 4) 4

/-! ## The pin helpers' windows (R340 to R344) -/

/-- A window value of PINCTRL (R340). -/
def windowValue (cnt base : Nat) : Word := (BitVec.ofNat 32 cnt <<< 26) ||| (BitVec.ofNat 32 base <<< 5)

/-- smSetPins's windows (R341): `fuel` bounds the loop, which takes 7 turns. -/
def pinWindows : Nat → Nat → Nat → Word → List (Word × Half)
  | 0, _, _, _ => []
  | fuel + 1, remaining, base, v =>
    if remaining = 0 then []
    else
      (windowValue (min remaining 5) base, setPinsWord (v.setWidth 5)) ::
        pinWindows fuel (remaining - min remaining 5) (base + min remaining 5) (v >>> 5)

/-- The windows of smSetPinsWithMask and smSetPinDirsWithMask (R342, R343): lowest set bit first. -/
def maskWindows (word : BitVec 5 → Half) : Nat → Word → Word → List (Word × Half)
  | 0, _, _ => []
  | fuel + 1, values, m =>
    if m = 0#32 then []
    else
      (windowValue 1 (ctz m), word ((BitVec.ofBool (values.getLsbD (ctz m))).setWidth 5)) ::
        maskWindows word fuel values (m &&& (m - 1#32))

/-- smSetConsecutivePinDirs's windows (R344). -/
def dirWindows (word : Half) : Nat → Nat → Nat → List (Word × Half)
  | 0, _, _ => []
  | fuel + 1, pin, count =>
    if 5 < count then (windowValue 5 pin, word) :: dirWindows word fuel ((pin + 5) % 32) (count - 5)
    else [(windowValue count pin, word)]

/-- The two transactions of one window (R340). -/
def windowTxns (p : PioId) (n : SmId) (w : Word × Half) : List Instr :=
  [writeReg p (.smPinctrl n) w.1, execReg p n w.2]

/-- The rest of a pin helper's frame after its first READ (R340): the windows, then the restoring WRITE. -/
def frameTxns (p : PioId) (n : SmId) (windows : List (Word × Half)) (saved : Word) : List Instr :=
  windows.flatMap (windowTxns p n) ++ [writeReg p (.smPinctrl n) saved]

/-! ## Starting an operation: operand checks, then its first transactions (R320) -/

/-- A macro-operation in progress that is no pin helper. -/
def plainMacro (todo : List Instr) (cont : Cont) : MacroState := { todo, cont, pin := false }

/-- A pin helper: it starts with the READ of PINCTRL (R340). -/
def pinMacro (p : PioId) (n : SmId) (windows : List (Word × Half)) : MacroState where
  todo := [readReg p (.smPinctrl n)]
  cont := .pinFrame p n windows
  pin := true

/-- R320's checks of p, n and one further operand condition. -/
def withSm (p n : Nat) (more : List Int) (ok : Bool) (k : PioId → SmId → MacroState) : Except Err MacroState :=
  match pioOf p, smOf n, ok with
  | some q, some m, true => .ok (k q m)
  | _, _, _ => .error (.illegalArgument ([(p : Int), (n : Int)] ++ more))

/-- R320's checks of p and of a state-machine mask in 0..15. -/
def withMask (p m : Nat) (k : PioId → MacroState) : Except Err MacroState :=
  match pioOf p, decide (m ≤ 15) with
  | some q, true => .ok (k q)
  | _, _ => .error (.illegalArgument [p, m])

/-- The start of every operation. Two points of R112 are DESIGN CHOICES: a width of WRFIELD outside 1..32 is no error and
takes the mask of `lowmask` there (log 27); SETBITS, CLRBITS and XORBITS at an address whose alias code is not 0b00 add
their constant to it all the same, modulo 2^32, and issue the WRITE of the address that results (log 28). -/
def macroStart : MacroOp → Except Err MacroState
  | .smSetConfig p n c => withSm p n [] true fun q m => plainMacro (configTxns q m c) .done
  | .smSetEnabled p n en => withSm p n [en] (decide (en ≤ 1)) fun q m => plainMacro [enableTxn q m en] .done
  | .restartSmMask p m => withMask p m fun q => plainMacro [restartTxn q m] .done
  | .clkDivRestartSmMask p m => withMask p m fun q => plainMacro [clkdivTxn q m] .done
  | .enableSmMaskInSync p m => withMask p m fun q => plainMacro [enableInSyncTxn q m] .done
  | .smExec p n instr =>
    withSm p n [instr] (decide (instr ≤ 0xFFFF)) fun q m => plainMacro [execReg q m (BitVec.ofNat 16 instr)] .done
  | .smExecWaitBlocking p n instr =>
    withSm p n [instr] (decide (instr ≤ 0xFFFF)) fun q m =>
      plainMacro [execReg q m (BitVec.ofNat 16 instr), readReg q (.smExecctrl m)] (.execPoll q m)
  | .smPut p n w => withSm p n [] true fun q m => plainMacro [writeReg q (.txf m) w] .done
  | .smGet p n => withSm p n [] true fun q m => plainMacro [readReg q (.rxf m)] .pass
  | .query k p n => withSm p n [] true fun q m => plainMacro [readReg q (queryReg k)] (queryField k m)
  | .smPutBlocking p n w => withSm p n [] true fun q m => plainMacro [readReg q .fstat] (.putPoll q m w)
  | .smGetBlocking p n => withSm p n [] true fun q m => plainMacro [readReg q .fstat] (.getPoll q m)
  | .smDrainTXFIFO p n => withSm p n [] true fun q m => plainMacro [readReg q (.smShiftctrl m)] (.drainSelect q m)
  | .smClearFIFOs p n => withSm p n [] true fun q m => plainMacro (clearFifosTxns q m) .done
  | .smInit p n pc c =>
    withSm p n [pc] (decide (pc ≤ 31)) fun q m => plainMacro (initTxns q m pc (c.getD defaultConfig)) .done
  | .smSetPins p n pins => withSm p n [] true fun q m => pinMacro q m (pinWindows 8 Config.gpioCount 0 pins)
  | .smSetPinsWithMask p n values mask =>
    withSm p n [] true fun q m => pinMacro q m (maskWindows setPinsWord 32 values mask)
  | .smSetPinDirsWithMask p n dirs mask =>
    withSm p n [] true fun q m => pinMacro q m (maskWindows setPindirsWord 32 dirs mask)
  | .smSetConsecutivePinDirs p n pin count isOut =>
    withSm p n [pin, count] (decide (pin ≤ 31) && decide (count ≤ 32)) fun q m =>
      pinMacro q m (dirWindows (setPindirsWord (if isOut then 0x1F#5 else 0#5)) 8 pin count)
  | .setBits addr v => .ok (plainMacro [writeInstr (addr + 0x2000#32) v] .done)
  | .clrBits addr v => .ok (plainMacro [writeInstr (addr + 0x3000#32) v] .done)
  | .xorBits addr v => .ok (plainMacro [writeInstr (addr + 0x1000#32) v] .done)
  | .wrField addr v lsb width => .ok (plainMacro [.writem addr (v <<< lsb) (lowmask width <<< lsb) false] .done)
  | .canAdd p prog =>
    if descOk prog then .ok (plainMacro [.alloc p (allocMask prog) prog.origin true] .pass)
    else .error (.illegalArgument (descInfo prog))

/-! ## Going on after the last listed transaction -/

/-- What a macro-operation does next. -/
inductive MacroNext
  /-- It ends with this result. -/
  | finish (r : Result)
  /-- It takes these transactions and then decides again. -/
  | more (todo : List Instr) (cont : Cont)
  deriving DecidableEq, Repr

/-- The value a READ answered. -/
def valueOf : Result → Word
  | .word v => v
  | .unit => 0#32
  | .offset _ => 0#32
  | .label _ => 0#32
  | .error _ => 0#32

/-- The word smDrainTXFIFO injects: by SHIFTCTRL.AUTOPULL, bit 17 (R333). -/
def drainWord (shiftctrl : Word) : Half := if shiftctrl.getLsbD 17 then outNull32Word else pullNoblockWord

/-- The continuation after a result (R327, R330 to R333, R340). -/
def contNext (c : Cont) (r : Result) : MacroNext :=
  match c with
  | .done => .finish .unit
  | .pass => .finish r
  | .field lsb width => .finish (.word ((valueOf r >>> lsb) &&& lowmask width))
  | .execPoll p n =>
    if (valueOf r).getLsbD 31 then .more [readReg p (.smExecctrl n)] (.execPoll p n) else .finish .unit
  | .putPoll p n w =>
    if (valueOf r).getLsbD (16 + n.val) then .more [readReg p .fstat] (.putPoll p n w)
    else .more [writeReg p (.txf n) w] .done
  | .getPoll p n =>
    if (valueOf r).getLsbD (8 + n.val) then .more [readReg p .fstat] (.getPoll p n)
    else .more [readReg p (.rxf n)] .pass
  | .drainSelect p n => .more [readReg p .fstat] (.drainPoll p n (drainWord (valueOf r)))
  | .drainPoll p n instr =>
    if (valueOf r).getLsbD (24 + n.val) then .finish .unit
    else .more [execReg p n instr, readReg p .fstat] (.drainPoll p n instr)
  | .pinFrame p n windows => .more (frameTxns p n windows (valueOf r)) .done

end Sys2Proof.Machine
end

