-- ==== Sys2Proof/Machine/Threads.lean ====
section
/-! DEFINITION. Sys2Proof/Machine/Threads.lean: one step of a host thread (10_state R20, R27), of a macro-operation
(43_control), and of the machine: which agent moves, and what it does (20_memory R92; log 3). -/

namespace Sys2Proof.Machine

open Sys2Proof

/-! ## Macro-operations (R9, R27, R345, R407) -/

/-- A pin helper holds the critical section from its first READ on (R345). -/
def enterFrame (m : MacroState) (s : State) : State := if m.pin then { s with critical := some s.turn } else s

/-- A macro-operation that ends, well or with an error, leaves its critical section (R345; log 20). -/
def leaveFrame (m : MacroState) (s : State) : State := if m.pin then { s with critical := none } else s

/-- After one transaction of a macro-operation: a fault or refusal ends the run as it stands (R407), an error ends the
operation with that error (R407), and otherwise it goes on. -/
def macroContinue (m : MacroState) (rest : List Instr) (s : State) : State :=
  if s.unmarked then
    match (s.thread s.turn).result with
    | some (.error e) => (leaveFrame m s).finish (.error e)
    | some r =>
      match rest with
      | i :: is => s.proceed (.running { m with todo := i :: is })
      | [] =>
        match contNext m.cont r with
        | .finish r' => (leaveFrame m s).finish r'
        | .more todo cont => s.proceed (.running { m with todo, cont })
    | none => s
  else s

/-- One transaction of a macro-operation in progress. -/
def macroStep (m : MacroState) (s : State) : Host.Outcome State Fault Refusal :=
  match m.todo with
  | [] => .next ((leaveFrame m s).finish .unit)
  | i :: rest =>
    match exec i (enterFrame m s) with
    | .next s1 => .next (macroContinue m rest s1)
    | .fault f => .fault f
    | .refused r => .refused r

/-! ## Requests -/

/-- The instruction a 16-bit word for a state machine is taken as: a row of R110, or the plain WRITE of smExec for any
other word (R326; log 11). -/
def wordInstr (p : PioId) (n : SmId) (w : Half) : Instr :=
  match decode (.pio w) with
  | .ok i => i
  | .error _ => execReg p n w

/-- Starts a request of thread `turn`: a transaction is taken at once; an illegal record ends with its error (R105,
R106); a macro-operation checks its operands (R320) and begins (log 21). -/
def startRequest (r : Request) (s : State) : Host.Outcome State Fault Refusal :=
  match r with
  | .txn bytes =>
    match decode (.txn bytes) with
    | .ok i => exec i s
    | .error (.illegalOperation h) => .next (s.raise (.illegalOperation h))
    | .error (.illegalArgument v) => .next (s.raise (.illegalArgument [v]))
    | .error .truncated => .refused .truncatedRecord
    | .error (.notSynthesised _) => .refused .truncatedRecord
  | .word p n w => exec (wordInstr p n w) { s with target := (p, n) }
  | .op m =>
    match macroStart m with
    | .error e => .next (s.raise e)
    | .ok st => .next (s.proceed (.running st))

/-! ## Steps of the agents -/

/-- Another host thread is inside a pin helper's critical section (R345). -/
def excluded (s : State) (t : Nat) : Bool :=
  match s.critical with
  | none => false
  | some t' => decide (t' ≠ t)

/-- Host thread t takes its next step (R20 a). A thread that is excluded (R345), suspended (R163), or has nothing to ask
for takes no step (log 15). -/
def hostMove (t : Nat) (s : State) : Host.Outcome State Fault Refusal :=
  if excluded s t then .next s
  else
    match (s.thread t).op with
    | .idle =>
      match (s.thread t).queue with
      | [] => .next s
      | r :: rest => startRequest r { s.setThread t { queue := rest, op := .idle, result := none } with turn := t }
    | .waiting w => if w.mayPoll then .next (waitPoll w { s with turn := t }) else .next s
    | .running m => macroStep m { s with turn := t }

/-- One agent's step (R20). -/
def perform (m : Move) (s : State) : Host.Outcome State Fault Refusal :=
  match m with
  | .host t => hostMove t s
  | .engine p e => .next (engineMove p e s)
  | .masterClock => .next (masterTick s)
  | .wallClock => .next (wallTick s)
  | .interrupt t => .next (interruptThread t s)

/-- Host thread 0 has a step to take. -/
def hostReady (s : State) : Bool :=
  match (s.thread 0).op with
  | .idle => !(s.thread 0).queue.isEmpty
  | .waiting w => w.mayPoll
  | .running _ => true

/-- The move taken when none is listed (log 3): the thread inside a critical section if there is one, else host thread 0
if it has a step to take, else the master clock. -/
def defaultMove (s : State) : Move :=
  match s.critical with
  | some t => .host t
  | none => if hostReady s then .host 0 else .masterClock

/-- One step of a machine with neither mark set. -/
def agentStep (s : State) : Host.Outcome State Fault Refusal :=
  match s.moves with
  | [] => perform (defaultMove s) s
  | m :: ms => perform m { s with moves := ms }

/-- One step (R25, R404, R405): a marked machine has no further step. -/
def machineStep (s : State) : Host.Outcome State Fault Refusal :=
  match s.faultMark with
  | some info => .fault (.fatal info)
  | none =>
    match s.refusalMark with
    | some reason => .refused (.refusedBefore reason)
    | none => agentStep s

/-! ## Placing a request -/

/-- Host thread 0 will take this request in the very next step (log 2). -/
def placeRequest (s : State) (r : Request) : State :=
  { s.setThread 0 { queue := r :: (s.thread 0).queue, op := .idle, result := (s.thread 0).result } with
    critical := none, faultMark := none, refusalMark := none, moves := .host 0 :: s.moves }

/-- The request that carries a row's number (spec/opcode_table.json): a record, or a word for PIO0's SM0. -/
def tableRequest (nbits w : Nat) : Option Request :=
  match tableCoded nbits w with
  | some (.txn bytes) => some (.txn bytes)
  | some (.pio v) => some (.word 0 0 v)
  | none => none

end Sys2Proof.Machine
end

