-- ==== Sys2Proof/Machine/Step.lean ====
section
/-! DEFINITION. Sys2Proof/Machine/Step.lean: the step of the machine, and the state in which a row's instruction is the
next one taken. -/

namespace Sys2Proof.Machine

open Sys2Proof

/-- One step of the machine. -/
def step (s : State) : Host.Outcome State Fault Refusal := machineStep s

/-- The state with the instruction of a row's number as the next thing host thread 0 does (log 2): it stands for a host
that asks for it, since the block has no program counter and fetches nothing (R28, R85). -/
def State.withFetchWord (s : State) (nbits w : Nat) : State :=
  match tableRequest nbits w with
  | some r => placeRequest s r
  | none => s

end Sys2Proof.Machine
end

