-- ==== Sys2Proof/Safety.lean ====
section
/-! DEFINITION. Sys2Proof/Safety.lean: what counts as a safe run, and the words the claims use: the invariants of the
block, a live machine, an address that hits a register, and what the alias forms do to a register. -/

namespace Sys2Proof.Machine

open Sys2Proof

/-! ## Invariants -/

/-- A state machine is sound: never both join bits (R201), FIFOs within their capacity (R57, R192), the reserved bits of
the configuration words zero (R30, R44 to R46), and a stalled flag only with a word pending (R56, R211, R230). -/
structure Sm.Sound (m : Sm) : Prop where
  notBothJoined : ¬ (m.shiftctrl.getLsbD 31 = true ∧ m.shiftctrl.getLsbD 30 = true)
  txFits        : m.tx.length ≤ m.capTx
  rxFits        : m.rx.length ≤ m.capRx
  clkdivRes     : m.clkdiv &&& 0x000000FF#32 = 0#32
  execctrlRes   : m.execctrl &&& 0x80000060#32 = 0#32
  shiftctrlRes  : m.shiftctrl &&& 0x0000FFFF#32 = 0#32
  stallPending  : m.execStalled = true → m.pending.isSome = true

/-- The invariant of the machine: every state machine is sound, and both counters are below their period (R26). -/
structure State.Sound (s : State) : Prop where
  sms      : ∀ p n, (s.sm p n).Sound
  cyclesIn : s.cycles < 2 ^ s.params.cycleBits
  millisIn : s.millis < 2 ^ s.params.millisBits

/-- Neither mark is set (R25): the machine has a further step. -/
def State.Live (s : State) : Prop := s.faultMark = none ∧ s.refusalMark = none

/-- Host thread t is free to begin a request: no other thread is in a critical section (R345), and it is idle with `r`
as its next request and `rest` after it. -/
structure State.Asks (s : State) (t : Nat) (r : Request) (rest : List Request) : Prop where
  live   : s.Live
  free   : s.critical = none ∨ s.critical = some t
  idle   : (s.thread t).op = .idle
  queued : (s.thread t).queue = r :: rest

/-- The state in which the request of thread t is taken up: the move and the request are consumed. -/
def State.taken (s : State) (t : Nat) (rest : List Request) (ms : List Move) : State :=
  { ({ s with moves := ms } : State).setThread t { queue := rest, op := .idle, result := none } with turn := t }

/-! ## Words of the claims -/

/-- The address resolves to register r of PIO p with this alias code (R141). -/
def Hits (s : State) (addr : Word) (p : PioId) (r : Reg) (code : BitVec 2) : Prop :=
  s.resolve addr = .hit (.csr p) (regIndex r) code

/-- The WRITE form of an alias code (R104). -/
def writeForm (code : BitVec 2) (addr v : Word) : Instr :=
  if code = 0#2 then .writeRw addr v
  else if code = 1#2 then .writeXor addr v
  else if code = 2#2 then .writeSet addr v
  else .writeClr addr v

/-- "Effect on an RW field" of an alias code (R102). -/
def aliasEffect (code : BitVec 2) (old v : Word) : Word :=
  if code = 0#2 then v
  else if code = 1#2 then old ^^^ v
  else if code = 2#2 then old ||| v
  else old &&& ~~~v

/-- The event of a WRITE with an alias code (R102, R150). -/
def aliasEvent (code : BitVec 2) (addr v : Word) : Event :=
  if code = 0#2 then .wr addr v 0xFFFFFFFF#32 false
  else if code = 1#2 then .wr addr v v true
  else if code = 2#2 then .wr addr v v false
  else .wr addr (~~~v) v false

/-- "new value = (old & ~mask) | (xor ? (old ^ bits) & mask : bits & mask)" (R151). -/
def maskedValue (old bits mask : Word) (xor : Bool) : Word :=
  (old &&& ~~~mask) ||| (if xor then (old ^^^ bits) &&& mask else bits &&& mask)

/-- "d := (xor ? (old ^ bits) : bits) & mask" (R182). -/
def maskedData (old bits mask : Word) (xor : Bool) : Word := (if xor then old ^^^ bits else bits) &&& mask

/-- The instruction is a write transaction, of any form, to register r of PIO p with this masked-write triple: a WRITEM at
the alias-0 address (R151), or a WRITE whose alias code gives the triple by R102's table. -/
def Writes (i : Instr) (s : State) (addr : Word) (p : PioId) (r : Reg) (bits mask : Word) (xor : Bool) : Prop :=
  (i = .writem addr bits mask xor ∧ Hits s addr p r 0#2) ∨
  (i = .writeRw addr bits ∧ Hits s addr p r 0#2 ∧ mask = 0xFFFFFFFF#32 ∧ xor = false) ∨
  (i = .writeXor addr bits ∧ Hits s addr p r 1#2 ∧ mask = bits ∧ xor = true) ∨
  (i = .writeSet addr bits ∧ Hits s addr p r 2#2 ∧ mask = bits ∧ xor = false) ∨
  (i = .writeClr addr mask ∧ Hits s addr p r 3#2 ∧ bits = ~~~mask ∧ xor = false)

/-- The register is read-only (R183): writes to it are accepted and ignored. -/
def readOnly : Reg → Bool
  | .fstat => true
  | .flevel => true
  | .dbgPadout => true
  | .dbgPadoe => true
  | .dbgCfginfo => true
  | .smAddr _ => true
  | .intr => true
  | .ints _ => true
  | _ => false

/-- A READ of the register is neither a pop (R191) nor a draw (R188, R210). -/
def plainRead : Reg → Bool
  | .rxf _ => false
  | .instrMem _ => false
  | .smInstr _ => false
  | _ => true

/-- An allocator transaction (42_allocator). -/
def isAllocator : Instr → Bool
  | .alloc _ _ _ _ => true
  | .dealloc _ _ _ => true
  | .imclear _ => true
  | .addprog _ _ => true
  | .addprogat _ _ _ => true
  | .rmprog _ _ _ => true
  | _ => false

/-- A list of transactions taken one after the other by the thread whose turn it is, nothing between them, stopping at
a mark: the uninterrupted run of a macro-operation's transactions (43_control). -/
def runTxns : List Instr → State → Host.Outcome State Fault Refusal
  | [], s => .next s
  | i :: is, s =>
    match exec i s with
    | .next t => if t.unmarked then runTxns is t else .next t
    | .fault f => .fault f
    | .refused r => .refused r

/-- Occupied slots of a PIO (R23): bit i of `occ`. -/
def Pio.occupied (x : Pio) (i : Nat) : Bool := x.occ.getLsbD i

end Sys2Proof.Machine
end

