-- ==== Sys2Proof/Certificates/Slice0/Obligations.lean ====
section
/-! DEFINITION. Sys2Proof/Certificates/Slice0/Obligations.lean: the statements for the provers, each from the numbered
rules its docstring names. A statement holds in every state, with every choice of the parameters (State.params), every
free value (Config) and every order of the agents (State.moves). Where an equation `exec i s = .next (...)` lists the
updates of s, everything it does not list is unchanged: that is the frame. -/

open Sys2Proof Sys2Proof.Machine

/-! ## Encoding -/

/-- R103, R104, R110: a few words written out from the encoding decode to the instruction they stand for. -/
def Obligations.SampleWordsDecode : Prop :=
  decode (.txn [0x00#8, 0x04#8, 0x00#8, 0x20#8, 0x50#8]) = .ok (.read 0x50200004#32) ∧
  decode (.txn [0x01#8, 0x38#8, 0x10#8, 0x20#8, 0x50#8, 0xFF#8, 0x00#8, 0x00#8, 0x00#8]) =
    .ok (.writeXor 0x50201038#32 0x000000FF#32) ∧
  decode (.txn [0x08#8, 0#8, 0#8, 0#8, 0#8, 0x01#8, 0#8, 0#8, 0#8]) = .ok (.imclear 1) ∧
  decode (.pio 0xE09F#16) = .ok (.setPindirs 0x1F#5)

/-- R103, R104, R110: the decoder reads back every well-formed instruction the encoder writes, every operand at every
value its field admits. -/
def Obligations.DecodeOfEncodeIsIdentity : Prop :=
  ∀ i : Instr, i.wellFormed = true → decode (encode i) = .ok i

/-- R103, R104: what the decoder accepts is a well-formed instruction (in particular a WRITE form whose address has its
alias code). -/
def Obligations.DecodedInstructionIsWellFormed : Prop :=
  ∀ (c : Coded) (i : Instr), decode c = .ok i → i.wellFormed = true

/-- R105: a header with op 0xC to 0xF, or with bits 7:4 not all zero, is illegal whatever follows it: the transaction ends
with ILLEGAL_OPERATION and changes no state. -/
def Obligations.ReservedHeaderIsIllegalOperation : Prop :=
  ∀ (s : State) (t : Nat) (header : Byte) (operands : List Byte) (rest : List Request) (ms : List Move),
    s.Asks t (.txn (header :: operands)) rest → s.moves = .host t :: ms →
    header.extractLsb' 4 4 ≠ 0#4 ∨ 0xC ≤ (header.extractLsb' 0 4).toNat →
    step s = .next ((s.taken t rest ms).deliver (.error (.illegalOperation header)))

/-! ## Steps -/

/-- R9, R20, R110, R326: when the next request of the thread that moves is a record that decodes to an instruction, or
a synthesised word handed to state machine n of PIO p (log 11), the step is exec of that instruction in the state in
which the move and the request are consumed (log 2, log 3). -/
def Obligations.StepRunsTheDecodedInstruction : Prop :=
  ∀ (s : State) (t : Nat) (i : Instr) (rest : List Request) (ms : List Move), s.moves = .host t :: ms →
    (∀ bytes, s.Asks t (.txn bytes) rest → decode (.txn bytes) = .ok i → step s = exec i (s.taken t rest ms)) ∧
    (∀ (p : PioId) (n : SmId) (w : Half), s.Asks t (.word p n w) rest → decode (.pio w) = .ok i →
      step s = exec i { s.taken t rest ms with target := (p, n) })

/-- R25, R404, R405: a machine with the fault mark or the refusal mark set has no further step, and says why. -/
def Obligations.MarkedMachineHasNoStep : Prop :=
  ∀ s : State,
    (∀ info, s.faultMark = some info → step s = .fault (.fatal info)) ∧
    (∀ reason, s.faultMark = none → s.refusalMark = some reason → step s = .refused (.refusedBefore reason))

/-- R10, R400, R412: every instruction, in every state, ends in a next state: no transaction traps, and errors, the
double free and the spec's refusals are next states that carry a result or a mark. -/
def Obligations.EveryInstructionAnswersANextState : Prop :=
  ∀ (i : Instr) (s : State), ∃ t, exec i s = .next t

/-! ## Address resolution -/

/-- R84, R87, R142, R143, R150: an address with `addr[1:0] ≠ 0` is misaligned, whatever block it lies in; an aligned
address no block covers is unmapped. READ, the four WRITE variants (whatever the alias code of the address), WRITEM and
LABEL end with that error, and nothing changes. -/
def Obligations.BadAddressEndsWithItsError : Prop :=
  ∀ (s : State) (addr bits mask value : Word) (xor : Bool),
    let ends : Err → Prop := fun e =>
      exec (.read addr) s = .next (s.deliver (.error e)) ∧
      exec (.writeRw addr value) s = .next (s.deliver (.error e)) ∧
      exec (.writeXor addr value) s = .next (s.deliver (.error e)) ∧
      exec (.writeSet addr value) s = .next (s.deliver (.error e)) ∧
      exec (.writeClr addr value) s = .next (s.deliver (.error e)) ∧
      exec (.writem addr bits mask xor) s = .next (s.deliver (.error e)) ∧
      exec (.label addr) s = .next (s.deliver (.error e))
    (addr.extractLsb' 0 2 ≠ 0#2 → ends (.addrMisaligned addr)) ∧
    (addr.extractLsb' 0 2 = 0#2 →
      (∀ b ∈ s.params.blocks, ¬ ((((addr - blockBase b) &&& ~~~0x3000#32) >>> 2).toNat < blockSize b)) →
      ends (.addrUnmapped addr))

/-- R141, R142: resolution is first match in list order, with register index `((addr - B) & ~ALIAS_MASK) >> 2` and
alias code `o[13:12]`. -/
def Obligations.ResolutionIsFirstMatch : Prop :=
  ∀ (s : State) (addr : Word) (before after : List Block) (b : Block), addr.extractLsb' 0 2 = 0#2 →
    s.params.blocks = before ++ b :: after →
    (∀ c ∈ before, ¬ ((((addr - blockBase c) &&& ~~~0x3000#32) >>> 2).toNat < blockSize c)) →
    (((addr - blockBase b) &&& ~~~0x3000#32) >>> 2).toNat < blockSize b →
    s.resolve addr =
      .hit b (((addr - blockBase b) &&& ~~~0x3000#32) >>> 2).toNat ((addr - blockBase b).extractLsb' 12 2)

/-- R31, R82: with BLOCKS = [PIO0, PIO1], register r of PIO p answers at `PIO_BASE(p) + 0x1000*a + 4*r` for every alias
code a; the bases and the index of every register are those of R31's table (the spec's general knowledge, log 25); and the
81 indices and the 81 registers match one to one. -/
def Obligations.PioRegistersAnswerInFourWindows : Prop :=
  (∀ (s : State) (p : PioId) (r : Reg) (a : BitVec 2), s.params.blocks = [.csr 0, .csr 1] →
    Hits s (pioBase p + 0x1000#32 * a.setWidth 32 + 4#32 * BitVec.ofNat 32 (regIndex r)) p r a) ∧
  (pioBase 0 = 0x50200000#32 ∧ pioBase 1 = 0x50300000#32 ∧
    (∀ p r, regAddr p r = pioBase p + 4#32 * BitVec.ofNat 32 (regIndex r)) ∧
    regIndex .ctrl = 0 ∧ regIndex .fstat = 1 ∧ regIndex .fdebug = 2 ∧ regIndex .flevel = 3 ∧
    (∀ n : SmId, regIndex (.txf n) = 4 + n.val ∧ regIndex (.rxf n) = 8 + n.val) ∧
    regIndex .irq = 12 ∧ regIndex .irqForce = 13 ∧ regIndex .inputSyncBypass = 14 ∧ regIndex .dbgPadout = 15 ∧
    regIndex .dbgPadoe = 16 ∧ regIndex .dbgCfginfo = 17 ∧ (∀ i : Fin 32, regIndex (.instrMem i) = 18 + i.val) ∧
    (∀ n : SmId, regIndex (.smClkdiv n) = 50 + 6 * n.val ∧ regIndex (.smExecctrl n) = 51 + 6 * n.val ∧
      regIndex (.smShiftctrl n) = 52 + 6 * n.val ∧ regIndex (.smAddr n) = 53 + 6 * n.val ∧
      regIndex (.smInstr n) = 54 + 6 * n.val ∧ regIndex (.smPinctrl n) = 55 + 6 * n.val) ∧
    regIndex .intr = 74 ∧ regIndex (.inte 0) = 75 ∧ regIndex (.intf 0) = 76 ∧ regIndex (.ints 0) = 77 ∧
    regIndex (.inte 1) = 78 ∧ regIndex (.intf 1) = 79 ∧ regIndex (.ints 1) = 80) ∧
  (∀ r : Reg, regIndex r < 81 ∧ regOf (regIndex r) = r) ∧ (∀ k : Nat, k < 81 → regIndex (regOf k) = k)

/-! ## Queries -/

/-- R144: PROVIDES answers 1 where the address is aligned and some block covers it, and 0 otherwise, and changes
nothing. -/
def Obligations.ProvidesAnswersCoverage : Prop :=
  ∀ (s : State) (addr : Word),
    exec (.provides addr) s =
      .next (s.deliver (.word (if addr.extractLsb' 0 2 = 0#2 ∧
        ∃ b ∈ s.params.blocks, (((addr - blockBase b) &&& ~~~0x3000#32) >>> 2).toNat < blockSize b
        then 1#32 else 0#32)))

/-- R145: LABEL answers "PIO" ++ p ++ "_" ++ name(r) at any alias code of a PIO register, a draw (log 5) on an opaque
block, and an error with the raw address where the address is misaligned or unmapped. -/
def Obligations.LabelNamesTheRegister : Prop :=
  (∀ (s : State) (addr : Word) (p : PioId) (r : Reg) (a : BitVec 2), Hits s addr p r a →
    exec (.label addr) s =
      .next (s.deliver (.label ("PIO" ++ (if p = 0 then "0" else "1") ++ "_" ++ regName r)))) ∧
  (∀ (s : State) (addr : Word) (base : BitVec 30) (size : Nat) (name : String) (r : Nat) (a : BitVec 2),
    s.resolve addr = .hit (.device base size name) r a →
    ∃ text, exec (.label addr) s = .next (s.drawn.deliver (.label text))) ∧
  (∀ (s : State) (addr : Word),
    (s.resolve addr = .misaligned → exec (.label addr) s = .next (s.deliver (.error (.addrMisaligned addr)))) ∧
    (s.resolve addr = .unmapped → exec (.label addr) s = .next (s.deliver (.error (.addrUnmapped addr)))))

/-! ## Reads -/

/-- R32, R36, R38 to R42, R44 to R47, R50, R53 to R55, R146, R147, R180: a READ of a register that neither pops nor draws
answers its value at any alias code, records one `Rd` event and changes nothing else; and the value of each register
that is not a status of FIFOs. -/
def Obligations.PlainReadsAnswerTheRegister : Prop :=
  (∀ (s : State) (addr : Word) (p : PioId) (r : Reg) (a : BitVec 2), Hits s addr p r a → plainRead r = true →
    exec (.read addr) s = .next ((s.emit (.rd addr (pioView s p r))).deliver (.word (pioView s p r)))) ∧
  (∀ (s : State) (p : PioId) (n : SmId),
      pioView s p .ctrl = (s.pio p).smEnable.setWidth 32 ∧ pioView s p (.txf n) = 0#32 ∧
      pioView s p .irq = (s.pio p).irq.setWidth 32 ∧ pioView s p .irqForce = 0#32 ∧
      pioView s p .inputSyncBypass = (s.pio p).inputSyncBypass ∧ pioView s p .dbgPadout = (s.pio p).padout ∧
      pioView s p .dbgPadoe = (s.pio p).padoe ∧ pioView s p .dbgCfginfo = 0x00200404#32 ∧
      pioView s p (.smClkdiv n) = (s.sm p n).clkdiv ∧
      pioView s p (.smExecctrl n) = (s.sm p n).execctrl ||| (if (s.sm p n).execStalled then 0x80000000#32 else 0#32) ∧
      pioView s p (.smShiftctrl n) = (s.sm p n).shiftctrl ∧ pioView s p (.smPinctrl n) = (s.sm p n).pinctrl ∧
      pioView s p (.smAddr n) = (s.sm p n).pc.setWidth 32 ∧
      pioView s p (.inte 0) = (s.pio p).irq0Inte.setWidth 32 ∧ pioView s p (.inte 1) = (s.pio p).irq1Inte.setWidth 32 ∧
      pioView s p (.intf 0) = (s.pio p).irq0Intf.setWidth 32 ∧ pioView s p (.intf 1) = (s.pio p).irq1Intf.setWidth 32 ∧
      pioView s p (.ints 0) = (((s.pio p).intr ||| (s.pio p).irq0Intf) &&& (s.pio p).irq0Inte).setWidth 32 ∧
      pioView s p (.ints 1) = (((s.pio p).intr ||| (s.pio p).irq1Intf) &&& (s.pio p).irq1Inte).setWidth 32)

/-- R33, R34, R52, R192, R193, R195, R220, R222, R410: every bit of FSTAT, FDEBUG, INTR and IRQk_INTS, and the interrupt
outputs, each high exactly when its IRQk_INTS is not zero. A FIFO whose storage the other took reads full and empty in
FSTAT. -/
def Obligations.StatusRegisterBits : Prop :=
  ∀ (s : State) (p : PioId) (i : Nat),
    ((pioView s p .fstat).getLsbD i =
      if 24 ≤ i ∧ i < 28 then ((s.pio p).sm (Fin.ofNat 4 (i - 24))).txReadsEmpty
      else if 16 ≤ i ∧ i < 20 then ((s.pio p).sm (Fin.ofNat 4 (i - 16))).txReadsFull
      else if 8 ≤ i ∧ i < 12 then ((s.pio p).sm (Fin.ofNat 4 (i - 8))).rxReadsEmpty
      else if i < 4 then ((s.pio p).sm (Fin.ofNat 4 i)).rxReadsFull
      else false) ∧
    ((pioView s p .fdebug).getLsbD i =
      if 24 ≤ i ∧ i < 28 then (s.pio p).txstall.getLsbD (i - 24)
      else if 16 ≤ i ∧ i < 20 then (s.pio p).txover.getLsbD (i - 16)
      else if 8 ≤ i ∧ i < 12 then (s.pio p).rxunder.getLsbD (i - 8)
      else if i < 4 then (s.pio p).rxstall.getLsbD i
      else false) ∧
    ((pioView s p .intr).getLsbD i =
      if 8 ≤ i ∧ i < 12 then (s.pio p).irq.getLsbD (i - 8)
      else if 4 ≤ i ∧ i < 8 then !((s.pio p).sm (Fin.ofNat 4 (i - 4))).txReadsFull
      else if i < 4 then !((s.pio p).sm (Fin.ofNat 4 i)).rxReadsEmpty
      else false) ∧
    (∀ k : Fin 2,
      ((pioView s p (.ints k)).getLsbD i =
        (((pioView s p .intr).getLsbD i || (pioView s p (.intf k)).getLsbD i) && (pioView s p (.inte k)).getLsbD i)) ∧
      (s.irqOut p k = true ↔ pioView s p (.ints k) ≠ 0#32))

/-- R35, R194: in a sound machine FLEVEL holds, for every state machine n, its TX level in bits 8n+3..8n and its RX level
in bits 8n+7..8n+4, a level being the number of words in the FIFO. -/
def Obligations.FlevelNibbles : Prop :=
  ∀ (s : State) (p : PioId) (n : SmId), s.Sound →
    ((pioView s p .flevel).extractLsb' (8 * n.val) 4).toNat = (s.sm p n).tx.length ∧
    ((pioView s p .flevel).extractLsb' (8 * n.val + 4) 4).toNat = (s.sm p n).rx.length

/-- R192: the FIFO predicates by join mode, for a state machine that does not have both join bits. -/
def Obligations.FifoPredicatesByJoin : Prop :=
  ∀ (m : Sm) (jr jt : Bool), m.shiftctrl.getLsbD 31 = jr → m.shiftctrl.getLsbD 30 = jt → ¬ (jr = true ∧ jt = true) →
    (m.txReadsFull = if jr then true else decide (m.tx.length = if jt then 8 else 4)) ∧
    (m.txReadsEmpty = if jr then true else decide (m.tx.length = 0)) ∧
    (m.rxReadsFull = if jt then true else decide (m.rx.length = if jr then 8 else 4)) ∧
    (m.rxReadsEmpty = if jt then true else decide (m.rx.length = 0)) ∧
    (m.txLevel = if jr then 0 else m.tx.length) ∧ (m.rxLevel = if jt then 0 else m.rx.length)

/-- R191: a READ of RXFn pops the head word; on a FIFO that reads empty it sets RXUNDER[n], leaves the FIFO and answers
a draw (log 5); a write to RXFn, in any of its forms, has no effect. -/
def Obligations.RxfReadPopsOrUnderflows : Prop :=
  ∀ (s : State) (addr : Word) (p : PioId) (n : SmId),
    (∀ (a : BitVec 2) (w : Word) (ws : List Word), Hits s addr p (.rxf n) a → (s.sm p n).rxReadsEmpty = false →
      (s.sm p n).rx = w :: ws →
      exec (.read addr) s =
        .next ((((s.modSm p n fun m => { m with rx := ws }).emit (.pop p n w)).emit (.rd addr w)).deliver (.word w))) ∧
    (∀ a : BitVec 2, Hits s addr p (.rxf n) a → (s.sm p n).rxReadsEmpty = true →
      ∃ v, exec (.read addr) s =
        .next (((s.modPio p fun x => { x with rxunder := x.rxunder ||| (1#4 <<< n.val) }).drawn.emit
          (.rd addr v)).deliver (.word v))) ∧
    (∀ (i : Instr) (bits mask : Word) (xor : Bool), Writes i s addr p (.rxf n) bits mask xor →
      exec i s = .next ((s.emit (.wr addr bits mask xor)).deliver .unit))

/-- R188, R210: a READ of INSTR_MEMi answers the stored word, zero-extended, in the mode `stored` and a draw in the mode
`draw`; a READ of SMn_INSTR answers the instruction word at the pc when nothing is pending, and a draw otherwise (a draw:
log 5, log 12). -/
def Obligations.InstructionWordReads : Prop :=
  ∀ (s : State) (addr : Word) (p : PioId) (i : Fin 32) (n : SmId) (a : BitVec 2),
    let answers : Word → Prop := fun v => exec (.read addr) s = .next ((s.emit (.rd addr v)).deliver (.word v))
    let draws : Prop := ∃ v, exec (.read addr) s = .next ((s.drawn.emit (.rd addr v)).deliver (.word v))
    (Hits s addr p (.instrMem i) a → s.params.imemReadMode = .stored → answers (((s.pio p).word i).setWidth 32)) ∧
    (Hits s addr p (.instrMem i) a → s.params.imemReadMode = .draw → draws) ∧
    (Hits s addr p (.smInstr n) a → (s.sm p n).pending = none →
      answers (((s.pio p).word (s.sm p n).pc.toFin).setWidth 32)) ∧
    (Hits s addr p (.smInstr n) a → (s.sm p n).pending ≠ none → draws)

/-- R83, R148: a READ or a write, a WRITEM at alias code 0 included, that resolves to an opaque block either ends with
BLOCK_FAULT carrying the raw address, or answers a draw (a READ) or is recorded as an event (a write); no register changes
either way (the cause a draw too: log 5, log 19). -/
def Obligations.OpaqueBlockAccess : Prop :=
  ∀ (s : State) (addr : Word) (base : BitVec 30) (size : Nat) (name : String) (r : Nat) (a : BitVec 2),
    s.resolve addr = .hit (.device base size name) r a →
    (∃ v, exec (.read addr) s = .next (s.drawn.deliver (.error (.blockFault addr v))) ∨
      exec (.read addr) s = .next ((s.drawn.emit (.rd addr v)).deliver (.word v))) ∧
    (∀ v, (∃ c, exec (writeForm a addr v) s = .next (s.drawn.deliver (.error (.blockFault addr c)))) ∨
      exec (writeForm a addr v) s = .next ((s.drawn.emit (aliasEvent a addr v)).deliver .unit)) ∧
    (a = 0#2 → ∀ (bits mask : Word) (xor : Bool),
      (∃ c, exec (.writem addr bits mask xor) s = .next (s.drawn.deliver (.error (.blockFault addr c)))) ∨
      exec (.writem addr bits mask xor) s = .next ((s.drawn.emit (.wr addr bits mask xor)).deliver .unit))

/-! ## Writes -/

/-- R151, R182, R188, R197, R199, R202, R203: every write transaction (WRITEM and the four WRITE forms, R102) on a
register that takes the new value: "new value = (old & ~mask) | (xor ? (old ^ bits) & mask : bits & mask)", the reserved
and read-only bits staying as they were, one `Wr` event, nothing else changed. -/
def Obligations.WritesSetTheRegisterByFormula : Prop :=
  ∀ (i : Instr) (s : State) (addr bits mask : Word) (xor : Bool) (p : PioId) (n : SmId) (j : Fin 32),
    let sets : Reg → (Word → Pio → Pio) → Prop := fun r f =>
      Writes i s addr p r bits mask xor → exec i s =
        .next (((s.modPio p (f (maskedValue (pioView s p r) bits mask xor))).emit (.wr addr bits mask xor)).deliver .unit)
    sets .inputSyncBypass (fun v x => { x with inputSyncBypass := v }) ∧
    sets (.smPinctrl n) (fun v x => x.setSm n { x.sm n with pinctrl := v }) ∧
    sets (.smClkdiv n) (fun v x => x.setSm n { x.sm n with clkdiv := v &&& 0xFFFFFF00#32 }) ∧
    sets (.smExecctrl n) (fun v x => x.setSm n { x.sm n with execctrl := v &&& 0x7FFFFF9F#32 }) ∧
    sets (.instrMem j) (fun v x => { x with imem := x.imem.set j (v.setWidth 16) }) ∧
    sets (.inte 0) (fun v x => { x with irq0Inte := v.setWidth 12 }) ∧
    sets (.inte 1) (fun v x => { x with irq1Inte := v.setWidth 12 }) ∧
    sets (.intf 0) (fun v x => { x with irq0Intf := v.setWidth 12 }) ∧
    sets (.intf 1) (fun v x => { x with irq1Intf := v.setWidth 12 })

/-- R102, R150, R199, R202, R203: the four WRITE forms on INPUT_SYNC_BYPASS, a register that is RW in every bit, and,
by alias code, on the configuration words that have no other effect, their reserved bits staying zero. -/
def Obligations.WriteFormsByAliasCode : Prop :=
  ∀ (s : State) (addr v : Word) (p : PioId) (n : SmId) (a : BitVec 2),
    (Hits s addr p .inputSyncBypass 0#2 → exec (.writeRw addr v) s =
      .next (((s.modPio p fun x => { x with inputSyncBypass := v }).emit
        (.wr addr v 0xFFFFFFFF#32 false)).deliver .unit)) ∧
    (Hits s addr p .inputSyncBypass 1#2 → exec (.writeXor addr v) s =
      .next (((s.modPio p fun x => { x with inputSyncBypass := x.inputSyncBypass ^^^ v }).emit
        (.wr addr v v true)).deliver .unit)) ∧
    (Hits s addr p .inputSyncBypass 2#2 → exec (.writeSet addr v) s =
      .next (((s.modPio p fun x => { x with inputSyncBypass := x.inputSyncBypass ||| v }).emit
        (.wr addr v v false)).deliver .unit)) ∧
    (Hits s addr p .inputSyncBypass 3#2 → exec (.writeClr addr v) s =
      .next (((s.modPio p fun x => { x with inputSyncBypass := x.inputSyncBypass &&& ~~~v }).emit
        (.wr addr (~~~v) v false)).deliver .unit)) ∧
    (Hits s addr p (.smPinctrl n) a → exec (writeForm a addr v) s =
      .next (((s.modSm p n fun m => { m with pinctrl := aliasEffect a m.pinctrl v }).emit
        (aliasEvent a addr v)).deliver .unit)) ∧
    (Hits s addr p (.smClkdiv n) a → exec (writeForm a addr v) s =
      .next (((s.modSm p n fun m => { m with clkdiv := aliasEffect a m.clkdiv v &&& 0xFFFFFF00#32 }).emit
        (aliasEvent a addr v)).deliver .unit)) ∧
    (Hits s addr p (.smExecctrl n) a → exec (writeForm a addr v) s =
      .next (((s.modSm p n fun m => { m with execctrl := aliasEffect a m.execctrl v &&& 0x7FFFFF9F#32 }).emit
        (aliasEvent a addr v)).deliver .unit))

/-- R184, R195, R196: on FDEBUG and IRQ a write clears exactly the flags set in its data
`d = (xor ? old ^ bits : bits) & mask`, on IRQ_FORCE it sets the IRQ flags set in d[7:0]; so on FDEBUG a plain WRITE or
WRITE.SET of v clears the flags set in v, and WRITE.CLR and WRITE.XOR change no flag. IRQ_FORCE reads 0. -/
def Obligations.FlagWritesClearAndForce : Prop :=
  (∀ (i : Instr) (s : State) (addr bits mask : Word) (xor : Bool) (p : PioId),
    (Writes i s addr p .fdebug bits mask xor →
      let d := maskedData (pioView s p .fdebug) bits mask xor
      exec i s = .next (((s.modPio p fun x =>
        { x with
          txstall := x.txstall &&& ~~~(d.extractLsb' 24 4), txover := x.txover &&& ~~~(d.extractLsb' 16 4),
          rxunder := x.rxunder &&& ~~~(d.extractLsb' 8 4), rxstall := x.rxstall &&& ~~~(d.extractLsb' 0 4) }).emit
        (.wr addr bits mask xor)).deliver .unit)) ∧
    (Writes i s addr p .irq bits mask xor → exec i s =
      .next (((s.modPio p fun x =>
        { x with irq := x.irq &&& ~~~((maskedData (pioView s p .irq) bits mask xor).extractLsb' 0 8) }).emit
        (.wr addr bits mask xor)).deliver .unit)) ∧
    (Writes i s addr p .irqForce bits mask xor → exec i s =
      .next (((s.modPio p fun x =>
        { x with irq := x.irq ||| (maskedData 0#32 bits mask xor).extractLsb' 0 8 }).emit
        (.wr addr bits mask xor)).deliver .unit)) ∧
    pioView s p .irqForce = 0#32) ∧
  (∀ (s t : State) (addr v : Word) (p : PioId) (a : BitVec 2), Hits s addr p .fdebug a →
    exec (writeForm a addr v) s = .next t →
    pioView t p .fdebug = if a = 0#2 ∨ a = 2#2 then pioView s p .fdebug &&& ~~~v else pioView s p .fdebug)

/-- R183: a write, in any of its forms, to a read-only register is accepted and ignored, with no error. -/
def Obligations.ReadOnlyRegistersIgnoreWrites : Prop :=
  ∀ (i : Instr) (s : State) (addr bits mask : Word) (xor : Bool) (p : PioId) (r : Reg), readOnly r = true →
    Writes i s addr p r bits mask xor → exec i s = .next ((s.emit (.wr addr bits mask xor)).deliver .unit)

/-- R185, R186, R205: a write to CTRL, in any of its forms, with new value `new` and data `d`, sets SM_ENABLE to
new[3:0], restarts exactly the state machines whose bit is set in d[7:4] (nothing pending, not stalled, every other part
of them unchanged), emits ClkdivRestart once if d[11:8] is not 0, and leaves everything else as it was; CTRL reads
SM_ENABLE and 0 elsewhere. The order of the events within this one step is the model's choice (log 23). -/
def Obligations.CtrlWriteEnablesAndRestarts : Prop :=
  ∀ (i : Instr) (s : State) (addr bits mask : Word) (xor : Bool) (p : PioId), Writes i s addr p .ctrl bits mask xor →
    let new := maskedValue (pioView s p .ctrl) bits mask xor
    let d := maskedData (pioView s p .ctrl) bits mask xor
    ∃ t, exec i s = .next t ∧ pioView t p .ctrl = (new.extractLsb' 0 4).setWidth 32 ∧
      t.pio p = { s.pio p with
        smEnable := new.extractLsb' 0 4, sm0 := (t.pio p).sm0, sm1 := (t.pio p).sm1, sm2 := (t.pio p).sm2,
        sm3 := (t.pio p).sm3 } ∧
      (∀ n : SmId, t.sm p n =
        if d.getLsbD (4 + n.val) then { s.sm p n with pending := none, execStalled := false } else s.sm p n) ∧
      t.history = s.history ++
        ([0, 1, 2, 3].filter fun n : SmId => d.getLsbD (4 + n.val)).map (fun n => Event.smRestart p (1#4 <<< n.val)) ++
        (if d.extractLsb' 8 4 = 0#4 then [] else [.clkdivRestart p (d.extractLsb' 8 4)]) ++
        [.wr addr bits mask xor] ∧
      t = { (s.setPio p (t.pio p)).deliver .unit with history := t.history }

/-- R190: every write transaction to TXFn, whatever its mask, offers one word (the new value over an old value of 0): on
a TX FIFO that reads full the word is dropped and TXOVER[n] set; otherwise it is appended and Push emitted. TXFn
reads 0. -/
def Obligations.TxfWritePushesOrOverflows : Prop :=
  ∀ (i : Instr) (s : State) (addr bits mask : Word) (xor : Bool) (p : PioId) (n : SmId),
    (Writes i s addr p (.txf n) bits mask xor → (s.sm p n).txReadsFull = true → exec i s =
      .next (((s.modPio p fun x => { x with txover := x.txover ||| (1#4 <<< n.val) }).emit
        (.wr addr bits mask xor)).deliver .unit)) ∧
    (Writes i s addr p (.txf n) bits mask xor → (s.sm p n).txReadsFull = false → exec i s =
      .next ((((s.modSm p n fun m => { m with tx := m.tx ++ [maskedValue 0#32 bits mask xor] }).emit
        (.push p n (maskedValue 0#32 bits mask xor))).emit (.wr addr bits mask xor)).deliver .unit)) ∧
    (∀ a, Hits s addr p (.txf n) a →
      exec (.read addr) s = .next ((s.emit (.rd addr 0#32)).deliver (.word 0#32)))

/-- R200: a write to SMn_SHIFTCTRL, in any of its forms, stores bits 31:16 of the new value; if it changes a join bit it
flushes both FIFOs in the same step and emits Flush, and if it changes neither it does not flush. -/
def Obligations.ShiftctrlWriteFlushesOnJoinChange : Prop :=
  ∀ (i : Instr) (s : State) (addr bits mask : Word) (xor : Bool) (p : PioId) (n : SmId),
    Writes i s addr p (.smShiftctrl n) bits mask xor →
    let old := (s.sm p n).shiftctrl
    let new := maskedValue old bits mask xor
    ¬ (new.getLsbD 31 = true ∧ new.getLsbD 30 = true) →
    exec i s =
      if new.getLsbD 31 = old.getLsbD 31 ∧ new.getLsbD 30 = old.getLsbD 30 then
        .next (((s.modSm p n fun m => { m with shiftctrl := new &&& 0xFFFF0000#32 }).emit
          (.wr addr bits mask xor)).deliver .unit)
      else
        .next ((((s.modSm p n fun m => { m with shiftctrl := new &&& 0xFFFF0000#32, tx := [], rx := [] }).emit
          (.flush p n)).emit (.wr addr bits mask xor)).deliver .unit)

/-- R201: a write, in any of its forms, that would leave both FJOIN_RX and FJOIN_TX set is refused and changes nothing
else. -/
def Obligations.BothJoinsAreRefused : Prop :=
  ∀ (i : Instr) (s : State) (addr bits mask : Word) (xor : Bool) (p : PioId) (n : SmId),
    Writes i s addr p (.smShiftctrl n) bits mask xor →
    (maskedValue (s.sm p n).shiftctrl bits mask xor).getLsbD 31 = true →
    (maskedValue (s.sm p n).shiftctrl bits mask xor).getLsbD 30 = true →
    exec i s = .next { s with refusalMark := some .bothJoined }

/-- R211: a write to SMn_INSTR, in any of its forms, makes the low 16 bits of the new value pending, leaves exec_stalled
at a draw (log 5) and emits Exec, whether or not the state machine is enabled; over a stalled pending word,
EXEC_OVERWRITE = refuse refuses it and nothing else changes. -/
def Obligations.InstrWriteHandsTheWordToTheEngine : Prop :=
  ∀ (i : Instr) (s : State) (addr bits mask : Word) (xor : Bool) (p : PioId) (n : SmId),
    Writes i s addr p (.smInstr n) bits mask xor →
    (¬ ((s.sm p n).pending ≠ none ∧ (s.sm p n).execStalled = true ∧ s.params.execOverwrite = .refuse) →
      ∃ b : Bool,
        let w : Half := (maskedValue (pioView s p (.smInstr n)) bits mask xor).setWidth 16
        exec i s = .next ((((s.modSm p n fun m => { m with pending := some w, execStalled := b }).drawn.emit
          (.exec p n w)).emit (.wr addr bits mask xor)).deliver .unit)) ∧
    ((s.sm p n).pending ≠ none → (s.sm p n).execStalled = true → s.params.execOverwrite = .refuse →
      exec i s = .next { s with refusalMark := some .execWhileStalled })

/-- R152: a WRITEM whose address has an alias code other than 0b00 is refused, on any block, and nothing else changes. -/
def Obligations.WritemAtAliasIsRefused : Prop :=
  ∀ (s : State) (addr bits mask : Word) (xor : Bool) (b : Block) (r : Nat) (a : BitVec 2),
    s.resolve addr = .hit b r a → a ≠ 0#2 →
    exec (.writem addr bits mask xor) s = .next { s with refusalMark := some .writemAtAlias }

/-! ## Synthesised words -/

/-- R110, R211, R326 (log 11): each synthesised word is handed, uninterpreted, to the state machine it is for: the words
of R110 become pending there by one WRITE to SMn_INSTR. -/
def Obligations.SynthesisedWordsAreForwarded : Prop :=
  ∀ (s : State) (p : PioId) (n : SmId), s.target = (p, n) → Hits s (regAddr p (.smInstr n)) p (.smInstr n) 0#2 →
    ¬ ((s.sm p n).pending ≠ none ∧ (s.sm p n).execStalled = true ∧ s.params.execOverwrite = .refuse) →
    ∃ b : Bool,
      let handed : Word → State := fun w =>
        (((s.modSm p n fun m => { m with pending := some (w.setWidth 16), execStalled := b }).drawn.emit
          (.exec p n (w.setWidth 16))).emit (.wr (regAddr p (.smInstr n)) w 0xFFFFFFFF#32 false)).deliver .unit
      (∀ a : BitVec 5, exec (.jmpAlways a) s = .next (handed (a.setWidth 32))) ∧
      (∀ v : BitVec 5, exec (.setPins v) s = .next (handed (0xE000#32 ||| v.setWidth 32))) ∧
      (∀ v : BitVec 5, exec (.setPindirs v) s = .next (handed (0xE080#32 ||| v.setWidth 32))) ∧
      exec .outNull32 s = .next (handed 0x6060#32) ∧ exec .pullNoblock s = .next (handed 0x8080#32)

/-! ## WAIT and the clocks -/

/-- R161, and what it means on a counter of any period N: the predicate never holds when T = S, and otherwise holds
exactly when at least T - S steps (modulo N) separate `now` from S (modulo N) (R162, which the spec marks as derived). -/
def Obligations.TimedOutCountsFromTheStart : Prop :=
  (∀ S T now : Nat, timedOut S T now = true ↔
    if S < T then now < S ∨ T ≤ now else now < S ∧ T ≤ now) ∧
  (∀ N S T now : Nat, S < N → T < N → now < N →
    (timedOut S T now = true ↔ S ≠ T ∧ (T + N - S) % N ≤ (now + N - S) % N))

/-- R160, R164, R165: a WAIT whose first READ answers a value that already matches returns the masked value at once,
without suspending, with what that READ did and nothing else; on a register that neither pops nor draws, that is one `Rd`
event. -/
def Obligations.WaitReturnsAtOnceOnAMatch : Prop :=
  (∀ (s t : State) (addr expected mask v : Word) (cyc ms : Nat), exec (.read addr) s = .next t →
    (t.thread s.turn).result = some (.word v) → v &&& mask = expected →
    cyc ≤ 2 ^ s.params.cycleBits → ms ≤ 2 ^ s.params.millisBits →
    exec (.wait addr expected mask cyc ms) s = .next (t.finish (.word expected))) ∧
  (∀ (s : State) (addr mask : Word) (cyc ms : Nat) (p : PioId) (r : Reg) (a : BitVec 2), Hits s addr p r a →
    plainRead r = true → cyc ≤ 2 ^ s.params.cycleBits → ms ≤ 2 ^ s.params.millisBits →
    exec (.wait addr (pioView s p r &&& mask) mask cyc ms) s =
      .next ((s.emit (.rd addr (pioView s p r))).finish (.word (pioView s p r &&& mask))))

/-- R160 to R163: a WAIT whose first READ answers a value that does not match suspends its thread, with no result and no
poll enabled, whatever its timeouts (none has run out at the first poll); a READ that ends with an error ends the WAIT
with it (R407); and a timeout above one full counter period is ILLEGAL_ARGUMENT before anything is read (R406). -/
def Obligations.WaitSuspendsOrFails : Prop :=
  ∀ (s t : State) (addr expected mask : Word) (cyc ms : Nat), exec (.read addr) s = .next t →
    (∀ v, (t.thread s.turn).result = some (.word v) → v &&& mask ≠ expected →
      cyc ≤ 2 ^ s.params.cycleBits → ms ≤ 2 ^ s.params.millisBits →
      exec (.wait addr expected mask cyc ms) s = .next (t.proceed (.waiting
        { addr, expected, mask, ms, startCyc := s.cycles, startMs := s.millis, mayPoll := false,
          stopCyc := (s.cycles + cyc) % 2 ^ s.params.cycleBits,
          stopMs := (s.millis + ms) % 2 ^ s.params.millisBits }))) ∧
    (∀ e, (t.thread s.turn).result = some (.error e) →
      cyc ≤ 2 ^ s.params.cycleBits → ms ≤ 2 ^ s.params.millisBits →
      exec (.wait addr expected mask cyc ms) s = .next (t.finish (.error e))) ∧
    (2 ^ s.params.cycleBits < cyc ∨ 2 ^ s.params.millisBits < ms →
      exec (.wait addr expected mask cyc ms) s = .next (s.deliver (.error (.illegalArgument [cyc, ms]))))

/-- R163, R166: a suspended thread takes no poll (a listed move of it is the model's own step that only consumes the move:
log 15); after a master-clock step, a wall-clock step, or its own interruption, its next poll is enabled, once (log 29),
and nothing of the WAIT is cancelled. -/
def Obligations.PollWaitsForAClockStep : Prop :=
  ∀ (s : State) (t : Nat) (w : WaitState) (ms : List Move) (m : Move), s.Live → (s.thread t).op = .waiting w →
    (w.mayPoll = false → s.moves = .host t :: ms → step s = .next { s with moves := ms }) ∧
    (m = .masterClock ∨ m = .wallClock ∨ m = .interrupt t → s.moves = m :: ms →
      ∃ u, step s = .next u ∧ u.thread t = { s.thread t with op := .waiting { w with mayPoll := true } } ∧
        u.pio0 = s.pio0 ∧ u.pio1 = s.pio1 ∧ u.history = s.history)

/-- R160, R164: an enabled poll of a plain register ends the WAIT with the masked value when it matches or a domain has
run out, and suspends it again otherwise. -/
def Obligations.LaterPollDecidesByValueAndTimeouts : Prop :=
  ∀ (s : State) (t : Nat) (w : WaitState) (ms : List Move) (p : PioId) (r : Reg) (a : BitVec 2), s.Live →
    s.critical = none → (s.thread t).op = .waiting w → w.mayPoll = true → s.moves = .host t :: ms →
    Hits s w.addr p r a → plainRead r = true →
    let u : State := ({ s with moves := ms, turn := t } : State).emit (.rd w.addr (pioView s p r))
    step s = .next
      (if pioView s p r &&& w.mask = w.expected ∨ timedOut w.startCyc w.stopCyc s.cycles = true ∨
          (w.ms ≠ 0 ∧ timedOut w.startMs w.stopMs s.millis = true) then
        u.finish (.word (pioView s p r &&& w.mask))
      else u.proceed (.waiting { w with mayPoll := false }))

/-- R26: a master-clock step adds 1 to `cycles` and a wall-clock step 1 to `millis`, modulo the period; neither changes
the hardware or the history. -/
def Obligations.ClockStepsAdvanceTheirCounter : Prop :=
  ∀ (s : State) (ms : List Move), s.Live →
    (s.moves = .masterClock :: ms → ∃ l, step s =
      .next { s with moves := ms, cycles := (s.cycles + 1) % 2 ^ s.params.cycleBits, threads := l }) ∧
    (s.moves = .wallClock :: ms → ∃ l, step s =
      .next { s with moves := ms, millis := (s.millis + 1) % 2 ^ s.params.millisBits, threads := l })

/-! ## The allocator -/

/-- R265 to R268, R408: a relocatable ALLOC takes the least offset k in 0..31 whose rotated mask meets no occupied slot,
occupies those slots and answers k; a fixed ALLOC takes its mask as it is, if it meets no occupied slot, and answers its
origin; with check = 1 the answer is the same and nothing is occupied. With no place, nothing changes: the end is
ALLOCATION_FAILED, or, with check = 1, the normal result -1. -/
def Obligations.AllocTakesItsPlace : Prop :=
  ∀ (s : State) (p : PioId) (amask : Word) (k : Nat), amask ≠ 0#32 → k < 32 →
    let occ := (s.pio p).occ
    let takes : Int → Word → Prop := fun origin m =>
      exec (.alloc p.val amask origin false) s =
        .next (((s.modPio p fun x => { x with occ := x.occ ||| m }).emit (.alloc p m k)).deliver (.offset k)) ∧
      exec (.alloc p.val amask origin true) s = .next (s.deliver (.offset k))
    let fails : Int → Prop := fun origin =>
      exec (.alloc p.val amask origin false) s =
        .next (s.deliver (.error (.allocationFailed amask origin occ))) ∧
      exec (.alloc p.val amask origin true) s = .next (s.deliver (.offset (-1)))
    (rotl32 amask k &&& occ = 0#32 → (∀ j < k, rotl32 amask j &&& occ ≠ 0#32) → takes (-1) (rotl32 amask k)) ∧
    (amask &&& occ = 0#32 → takes k amask) ∧
    ((∀ j < 32, rotl32 amask j &&& occ ≠ 0#32) → fails (-1)) ∧
    (amask &&& occ ≠ 0#32 → fails k)

/-- R260, R265, R270, R275, R280, R281, R283, R401: an operand of the allocator out of its range is ILLEGAL_ARGUMENT with
the values the rules name: of an illegal descriptor exactly the values that fail R260's checks (checked first: log 22; an
empty identifier as 0: log 24); else of DEALLOC and RMPROG `(p, offset)`, or `(origin, offset)` where the offset does not
fit a fixed origin; of ADDPROGAT the offset, or that pair, or ALLOC's `(p, amask, origin)`; of ADDPROG and ALLOC
`(p, amask, origin)`; of IMCLEAR p. Nothing changes. -/
def Obligations.AllocatorRefusesBadOperands : Prop :=
  ∀ (s : State) (p : Nat) (amask : Word) (origin offset : Int) (check : Bool) (prog : Desc),
    let illegal : Instr → List Int → Prop := fun i info =>
      exec i s = .next (s.deliver (.error (.illegalArgument info)))
    let misfit : Prop := 0 ≤ prog.origin ∧ offset ≠ prog.origin
    let mask : Nat → Word := fun k => rotl32 (lowmask prog.instrs.length) k
    (2 ≤ p ∨ amask = 0#32 ∨ origin < -1 ∨ 31 < origin →
      illegal (.alloc p amask origin check) [p, amask.toNat, origin]) ∧
    (2 ≤ p → illegal (.imclear p) [p]) ∧
    (descOk prog = true →
      (2 ≤ p ∨ offset < 0 ∨ 31 < offset →
        illegal (.dealloc p prog offset) [p, offset] ∧ illegal (.rmprog p prog offset) [p, offset]) ∧
      (p < 2 → 0 ≤ offset → offset ≤ 31 → misfit →
        illegal (.dealloc p prog offset) [prog.origin, offset] ∧ illegal (.rmprog p prog offset) [prog.origin, offset]) ∧
      (offset < 0 ∨ 31 < offset → illegal (.addprogat p prog offset) [offset]) ∧
      (0 ≤ offset → offset ≤ 31 → misfit → illegal (.addprogat p prog offset) [prog.origin, offset]) ∧
      (0 ≤ offset → offset ≤ 31 → ¬ misfit → 2 ≤ p →
        illegal (.addprogat p prog offset) [p, (mask offset.toNat).toNat, offset]) ∧
      (2 ≤ p → illegal (.addprog p prog) [p, (mask (if 0 ≤ prog.origin then prog.origin.toNat else 0)).toNat,
        prog.origin])) ∧
    (descOk prog = false → ∃ info, info ≠ [] ∧
      (∀ v : Int, v ∈ info ↔
        (prog.id = some [] ∧ v = 0) ∨ ((prog.origin < -1 ∨ 31 < prog.origin) ∧ v = prog.origin) ∨
        (31 < prog.wrap ∧ v = prog.wrap) ∨ (31 < prog.wrapTarget ∧ v = prog.wrapTarget) ∨
        ((if prog.sideSetOpt then 4 else 5) < prog.sideSetCount ∧ v = prog.sideSetCount) ∨
        ((prog.instrs.length < 1 ∨ 32 < prog.instrs.length) ∧ v = prog.instrs.length) ∨
        (∃ w ∈ prog.instrs, 0xFFFF < w ∧ v = w)) ∧
      illegal (.dealloc p prog offset) info ∧ illegal (.rmprog p prog offset) info ∧ illegal (.addprog p prog) info ∧
        illegal (.addprogat p prog offset) info)

/-- R270, R283: DEALLOC and RMPROG of a placed program free exactly the slots of `rotl32(lowmask(len), offset)`, and
leave everything else as it was. -/
def Obligations.DeallocFreesTheProgramsSlots : Prop :=
  ∀ (s : State) (p : PioId) (prog : Desc) (offset : Nat), descOk prog = true → offset < 32 →
    (prog.origin = -1 ∨ prog.origin = offset) →
    rotl32 (lowmask prog.instrs.length) offset &&& ~~~(s.pio p).occ = 0#32 →
    let freed := ((s.modPio p fun x => { x with occ := x.occ &&& ~~~rotl32 (lowmask prog.instrs.length) offset }).emit
      (.dealloc p (rotl32 (lowmask prog.instrs.length) offset) offset)).deliver .unit
    exec (.dealloc p.val prog offset) s = .next freed ∧ exec (.rmprog p.val prog offset) s = .next freed

/-- R272, R283: RMPROG is DEALLOC, on all operands and in every state, and neither changes the instruction memory. -/
def Obligations.RmprogIsDealloc : Prop :=
  ∀ (s t : State) (p : Nat) (q : PioId) (prog : Desc) (offset : Int),
    exec (.rmprog p prog offset) s = exec (.dealloc p prog offset) s ∧
    (exec (.dealloc p prog offset) s = .next t → (t.pio q).imem = (s.pio q).imem)

/-- R271, R404: a deallocation mask that is no subset of the occupied slots sets the fault mark with the expected mask and
the actual occupancy, and changes nothing else, the occupancy included; the next step is the fault, for good. -/
def Obligations.DoubleFreeIsFatal : Prop :=
  ∀ (s : State) (p : PioId) (prog : Desc) (offset : Nat), descOk prog = true → offset < 32 →
    (prog.origin = -1 ∨ prog.origin = offset) →
    let expected := rotl32 (lowmask prog.instrs.length) offset
    expected &&& ~~~(s.pio p).occ ≠ 0#32 →
    let marked : State := { s with faultMark := some ⟨expected, (s.pio p).occ⟩ }
    exec (.dealloc p.val prog offset) s = .next marked ∧ exec (.rmprog p.val prog offset) s = .next marked ∧
      (marked.pio p).occ = (s.pio p).occ ∧ step marked = .fault (.fatal ⟨expected, (s.pio p).occ⟩)

/-- R275: IMCLEAR empties the occupancy and zeroes every instruction-memory word of its PIO, emits Clear, and changes
nothing else; a PIO index above 1 is ILLEGAL_ARGUMENT. -/
def Obligations.ImclearEmptiesOccupancyAndMemory : Prop :=
  (∀ (s : State) (p : PioId),
    exec (.imclear p.val) s =
      .next (((s.modPio p fun x => { x with occ := 0#32, imem := Vector.replicate 32 0#16 }).emit
        (.clear p)).deliver .unit)) ∧
  (∀ (s : State) (p : Nat), 2 ≤ p → exec (.imclear p) s = .next (s.deliver (.error (.illegalArgument [p]))))

/-- R268, R280, R281, R282, R401: ADDPROG of a relocatable program at the least offset k that fits, ADDPROG of a program
fixed at k, and ADDPROGAT at k, each with its slots free, occupy the program's slots, write instruction i unchanged to slot
(k + i) mod 32, leave every other word, answer k, and record the Alloc event and one Wr event for each word (log 23). With
no place they end with ALLOCATION_FAILED, and nothing changes. -/
def Obligations.AddprogPlacesItsWords : Prop :=
  ∀ (s : State) (p : PioId) (prog : Desc) (k : Nat), descOk prog = true → k < 32 →
    let len := prog.instrs.length
    let occ := (s.pio p).occ
    let mask := rotl32 (lowmask len) k
    let places : Instr → Prop := fun i =>
      ∃ t, exec i s = .next t ∧ (t.thread s.turn).result = some (.offset k) ∧
        t.pio p = { s.pio p with occ := occ ||| mask, imem := (t.pio p).imem } ∧
        (∀ i < len, (t.pio p).word (Fin.ofNat 32 (k + i)) = BitVec.ofNat 16 (prog.instrs.getD i 0)) ∧
        (∀ j : Fin 32, (∀ i < len, j ≠ Fin.ofNat 32 (k + i)) → (t.pio p).word j = (s.pio p).word j) ∧
        t.history = s.history ++ Event.alloc p mask k :: (List.range len).map (fun i =>
          .wr (regAddr p (.instrMem (Fin.ofNat 32 (k + i)))) (BitVec.ofNat 32 (prog.instrs.getD i 0)) 0xFFFFFFFF#32
            false) ∧
        t = { (s.setPio p (t.pio p)).deliver (.offset k) with history := t.history }
    let fails : Instr → Word → Int → Prop := fun i m origin =>
      exec i s = .next (s.deliver (.error (.allocationFailed m origin occ)))
    (mask &&& occ = 0#32 →
      (prog.origin = -1 → (∀ j < k, rotl32 (lowmask len) j &&& occ ≠ 0#32) → places (.addprog p.val prog)) ∧
      (prog.origin = k → places (.addprog p.val prog)) ∧
      (prog.origin = -1 ∨ prog.origin = k → places (.addprogat p.val prog k))) ∧
    (prog.origin = -1 → (∀ j < 32, rotl32 (lowmask len) j &&& occ ≠ 0#32) →
      fails (.addprog p.val prog) (lowmask len) (-1)) ∧
    (mask &&& occ ≠ 0#32 →
      (prog.origin = k → fails (.addprog p.val prog) mask k) ∧
      (prog.origin = -1 ∨ prog.origin = k → fails (.addprogat p.val prog k) mask k))

/-- R270, R280, R283, R285: a program added and then removed at the offset ADDPROG answered leaves the occupancy as it was
before, whatever was occupied. -/
def Obligations.AddThenRemoveRestoresOccupancy : Prop :=
  ∀ (s t : State) (p : PioId) (prog : Desc) (k : Int), descOk prog = true →
    exec (.addprog p.val prog) s = .next t → (t.thread s.turn).result = some (.offset k) →
    ∃ u, exec (.rmprog p.val prog k) t = .next u ∧ (u.pio p).occ = (s.pio p).occ ∧ u.faultMark = t.faultMark

/-! ## Rules over all instructions -/

/-- R23: no transaction but the allocator's changes the occupancy. -/
def Obligations.OnlyTheAllocatorChangesOccupancy : Prop :=
  ∀ (i : Instr) (s t : State) (p : PioId), isAllocator i = false → exec i s = .next t → (t.pio p).occ = (s.pio p).occ

/-- R403: a transaction that ends with an error leaves every register, FIFO, occupancy mask, instruction memory, both marks
and the history as they were. -/
def Obligations.ErrorResultsChangeNoState : Prop :=
  ∀ (i : Instr) (s t : State) (e : Err), exec i s = .next t → (s.thread s.turn).result = none →
    (t.thread s.turn).result = some (.error e) →
    t.pio0 = s.pio0 ∧ t.pio1 = s.pio1 ∧ t.history = s.history ∧ t.faultMark = s.faultMark ∧
      t.refusalMark = s.refusalMark

/-- R404, R405: a transaction that sets a mark changes nothing else at all. -/
def Obligations.MarksAreSetAlone : Prop :=
  ∀ (i : Instr) (s t : State), exec i s = .next t →
    (t.faultMark ≠ s.faultMark → t = { s with faultMark := t.faultMark }) ∧
    (t.refusalMark ≠ s.refusalMark → t = { s with refusalMark := t.refusalMark })

/-- R20, R27, R400: an instruction changes no thread but the one whose turn it is, and none of the counters, the
parameters, the critical section or the moves to come. -/
def Obligations.InstructionTouchesOnlyItsThread : Prop :=
  ∀ (i : Instr) (s t : State), exec i s = .next t →
    (∀ u, u ≠ s.turn → t.thread u = s.thread u) ∧ t.params = s.params ∧ t.cycles = s.cycles ∧ t.millis = s.millis ∧
      t.critical = s.critical ∧ t.moves = s.moves ∧ t.turn = s.turn ∧ t.target = s.target ∧
      (t.thread s.turn).queue = (s.thread s.turn).queue

/-- R230, R231: each move of the engine of PIO p, with its guard: what it changes, the one event it records, and that
there is no such move where the guard does not hold (log 15). -/
def Obligations.EngineMovesHaveTheirEffectAndGuard : Prop :=
  ∀ (s : State) (p : PioId) (n : SmId) (w out oe : Word) (j : Fin 8) (v : BitVec 5),
    let active : SmId → Prop := fun k => (s.pio p).smEnable.getLsbD k.val = true ∨ (s.sm p k).pending ≠ none
    let does : EngineMove → Prop → State → Prop := fun m guard t =>
      (guard → engineMove p m s = t.emit (.engine p m)) ∧ (¬ guard → engineMove p m s = s)
    does (.popTx n) (active n) (s.modSm p n fun m => { m with tx := m.tx.tail }) ∧
    does (.pushRx n w) (active n)
      (if (s.sm p n).rxReadsFull = true then s else s.modSm p n fun m => { m with rx := m.rx ++ [w] }) ∧
    does (.stallTx n) (active n) (s.modPio p fun x => { x with txstall := x.txstall ||| (1#4 <<< n.val) }) ∧
    does (.stallRx n) (active n) (s.modPio p fun x => { x with rxstall := x.rxstall ||| (1#4 <<< n.val) }) ∧
    does (.irqFlag j true) (∃ k, active k) (s.modPio p fun x => { x with irq := x.irq ||| (1#8 <<< j.val) }) ∧
    does (.irqFlag j false) (∃ k, active k) (s.modPio p fun x => { x with irq := x.irq &&& ~~~(1#8 <<< j.val) }) ∧
    does (.setPc n v) (active n) (s.modSm p n fun m => { m with pc := v }) ∧
    does (.setPads out oe) (∃ k, active k) (s.modPio p fun x => { x with padout := out, padoe := oe }) ∧
    does (.execDone n) ((s.sm p n).pending ≠ none)
      (s.modSm p n fun m => { m with pending := none, execStalled := false }) ∧
    does (.execStall n) ((s.sm p n).pending ≠ none) (s.modSm p n fun m => { m with execStalled := true })

/-- R230, R231: the engine never writes the instruction memory, the occupancy, the configuration registers, SM_ENABLE,
IRQk_INTE, IRQk_INTF or INPUT_SYNC_BYPASS, nor anything of the other PIO; and it changes nothing at all of a state
machine that is disabled with no word pending. -/
def Obligations.EngineLeavesTheHostsRegisters : Prop :=
  ∀ (s : State) (p q : PioId) (n : SmId) (m : EngineMove),
    let x := (engineMove p m s).pio q
    let y := s.pio q
    x.imem = y.imem ∧ x.occ = y.occ ∧ x.smEnable = y.smEnable ∧ x.irq0Inte = y.irq0Inte ∧ x.irq1Inte = y.irq1Inte ∧
      x.irq0Intf = y.irq0Intf ∧ x.irq1Intf = y.irq1Intf ∧ x.inputSyncBypass = y.inputSyncBypass ∧
      (x.sm n).clkdiv = (y.sm n).clkdiv ∧ (x.sm n).execctrl = (y.sm n).execctrl ∧
      (x.sm n).shiftctrl = (y.sm n).shiftctrl ∧ (x.sm n).pinctrl = (y.sm n).pinctrl ∧ (q ≠ p → x = y) ∧
      (y.smEnable.getLsbD n.val = false → (y.sm n).pending = none → x.sm n = y.sm n)

/-! ## The control protocol -/

/-- R300, R320 to R324, R334, R335, R337, R110: smInit from its checks on is these eleven transactions in this order, for
every configuration, the absent one standing for the default of R300; an operand out of range is ILLEGAL_ARGUMENT before
any transaction. -/
def Obligations.SmInitIsElevenTransactions : Prop :=
  (∀ (p : PioId) (n : SmId) (pc : BitVec 5) (config : Option SmConfig),
    let c := config.getD ⟨0x00010000#32, 0x0001F000#32, 0x000C0000#32, 0x14000000#32⟩
    macroStart (.smInit p.val n.val pc.toNat config) = .ok ⟨
      [.writem (regAddr p .ctrl) 0#32 (1#32 <<< n.val) false,
       .writeRw (regAddr p (.smClkdiv n)) c.clkdiv, .writeRw (regAddr p (.smExecctrl n)) c.execctrl,
       .writeRw (regAddr p (.smShiftctrl n)) c.shiftctrl, .writeRw (regAddr p (.smPinctrl n)) c.pinctrl,
       .writem (regAddr p (.smShiftctrl n)) 0x80000000#32 0x80000000#32 true,
       .writem (regAddr p (.smShiftctrl n)) 0x80000000#32 0x80000000#32 true,
       .writeRw (regAddr p .fdebug) (0x01010101#32 <<< n.val),
       .writem (regAddr p .ctrl) (0x10#32 <<< n.val) (0x10#32 <<< n.val) false,
       .writem (regAddr p .ctrl) (0x100#32 <<< n.val) (0x100#32 <<< n.val) false,
       .writeRw (regAddr p (.smInstr n)) (pc.setWidth 32)], .done, false⟩) ∧
  (∀ (p n pc : Nat) (config : Option SmConfig), 2 ≤ p ∨ 4 ≤ n ∨ 32 ≤ pc →
    ∃ info, macroStart (.smInit p n pc config) = .error (.illegalArgument info))

/-- R320 to R326, R328 to R330: the operations of one or four transactions, the six queries among them, on operands in
range, are exactly these; what a query answers of the word read; and an operand out of range is ILLEGAL_ARGUMENT before any
transaction. -/
def Obligations.ControlOperationsAreTheirTransactions : Prop :=
  (∀ (p : PioId) (n : SmId) (m : Nat) (en : Bool) (w : Half) (v : Word) (c : SmConfig), m < 16 →
    let takes : MacroOp → List Instr → Cont → Prop := fun op is k => macroStart op = .ok ⟨is, k, false⟩
    takes (.smSetConfig p.val n.val c)
      [.writeRw (regAddr p (.smClkdiv n)) c.clkdiv, .writeRw (regAddr p (.smExecctrl n)) c.execctrl,
       .writeRw (regAddr p (.smShiftctrl n)) c.shiftctrl, .writeRw (regAddr p (.smPinctrl n)) c.pinctrl] .done ∧
    takes (.smSetEnabled p.val n.val (if en then 1 else 0))
      [.writem (regAddr p .ctrl) (if en then 1#32 <<< n.val else 0#32) (1#32 <<< n.val) false] .done ∧
    takes (.restartSmMask p.val m)
      [.writem (regAddr p .ctrl) (BitVec.ofNat 32 (16 * m)) (BitVec.ofNat 32 (16 * m)) false] .done ∧
    takes (.clkDivRestartSmMask p.val m)
      [.writem (regAddr p .ctrl) (BitVec.ofNat 32 (256 * m)) (BitVec.ofNat 32 (256 * m)) false] .done ∧
    takes (.enableSmMaskInSync p.val m)
      [.writem (regAddr p .ctrl) (BitVec.ofNat 32 (257 * m)) (BitVec.ofNat 32 (257 * m)) false] .done ∧
    takes (.smExec p.val n.val w.toNat) [.writeRw (regAddr p (.smInstr n)) (w.setWidth 32)] .done ∧
    takes (.smPut p.val n.val v) [.writeRw (regAddr p (.txf n)) v] .done ∧
    takes (.smGet p.val n.val) [.read (regAddr p (.rxf n))] .pass ∧
    takes (.query .rxFull p.val n.val) [.read (regAddr p .fstat)] (.field n.val 1) ∧
    takes (.query .rxEmpty p.val n.val) [.read (regAddr p .fstat)] (.field (8 + n.val) 1) ∧
    takes (.query .txFull p.val n.val) [.read (regAddr p .fstat)] (.field (16 + n.val) 1) ∧
    takes (.query .txEmpty p.val n.val) [.read (regAddr p .fstat)] (.field (24 + n.val) 1) ∧
    takes (.query .txLevel p.val n.val) [.read (regAddr p .flevel)] (.field (8 * n.val) 4) ∧
    takes (.query .rxLevel p.val n.val) [.read (regAddr p .flevel)] (.field (8 * n.val + 4) 4)) ∧
  (∀ (lsb : Nat) (v : Word),
    contNext (.field lsb 1) (.word v) = .finish (.word (if v.getLsbD lsb then 1#32 else 0#32)) ∧
    contNext (.field lsb 4) (.word v) = .finish (.word ((v.extractLsb' lsb 4).setWidth 32))) ∧
  (∀ (p n m en instr : Nat) (c : SmConfig) (v : Word) (q : FifoQuery),
    let illegal : MacroOp → Prop := fun op => ∃ info, macroStart op = .error (.illegalArgument info)
    (2 ≤ p ∨ 4 ≤ n → illegal (.smSetConfig p n c) ∧ illegal (.smPut p n v) ∧ illegal (.smGet p n) ∧
      illegal (.query q p n)) ∧
    (2 ≤ p ∨ 4 ≤ n ∨ 2 ≤ en → illegal (.smSetEnabled p n en)) ∧
    (2 ≤ p ∨ 4 ≤ n ∨ 65536 ≤ instr → illegal (.smExec p n instr)) ∧
    (2 ≤ p ∨ 16 ≤ m → illegal (.restartSmMask p m) ∧ illegal (.clkDivRestartSmMask p m) ∧
      illegal (.enableSmMaskInSync p m)))

/-- R334: smClearFIFOs is two transactions that toggle FJOIN_RX; uninterrupted, on a state machine whose TX join is off,
they leave both FIFOs empty and FJOIN_RX, with all of SHIFTCTRL, at its old value. -/
def Obligations.ClearFifosEmptiesAndRestores : Prop :=
  ∀ (p : PioId) (n : SmId),
    let toggle : Instr := .writem (regAddr p (.smShiftctrl n)) 0x80000000#32 0x80000000#32 true
    macroStart (.smClearFIFOs p.val n.val) = .ok ⟨[toggle, toggle], .done, false⟩ ∧
    (∀ s : State, s.Live → s.Sound → (s.sm p n).shiftctrl.getLsbD 30 = false →
      Hits s (regAddr p (.smShiftctrl n)) p (.smShiftctrl n) 0#2 →
      ∃ t, runTxns [toggle, toggle] s = .next t ∧ t.Live ∧ t.sm p n = { s.sm p n with tx := [], rx := [] })

/-- R340 to R345: each pin helper starts with the READ of SMn_PINCTRL, then takes its windows, each a WRITE of SMn_PINCTRL
and a WRITE of the SET word to SMn_INSTR, and last writes back the value that READ answered. Uninterrupted and with
EXEC_OVERWRITE = replace, the frame ends with PINCTRL at the saved value and every other configuration word of the state
machine unchanged, whatever its windows are. -/
def Obligations.PinFrameRestoresPinctrl : Prop :=
  (∀ (p : PioId) (n : SmId) (v mask : Word) (pin count : Nat) (out : Bool), pin ≤ 31 → count ≤ 32 →
    let starts : MacroOp → Prop := fun op => ∃ windows,
      macroStart op = .ok ⟨[.read (regAddr p (.smPinctrl n))], .pinFrame p n windows, true⟩
    starts (.smSetPins p.val n.val v) ∧ starts (.smSetPinsWithMask p.val n.val v mask) ∧
      starts (.smSetPinDirsWithMask p.val n.val v mask) ∧ starts (.smSetConsecutivePinDirs p.val n.val pin count out)) ∧
  (∀ (p : PioId) (n : SmId) (windows : List (Word × Half)) (saved : Word),
    contNext (.pinFrame p n windows) (.word saved) = .more (frameTxns p n windows saved) .done ∧
    frameTxns p n windows saved =
      windows.flatMap (fun w => [.writeRw (regAddr p (.smPinctrl n)) w.1,
        .writeRw (regAddr p (.smInstr n)) (w.2.setWidth 32)]) ++ [.writeRw (regAddr p (.smPinctrl n)) saved] ∧
    (∀ s : State, s.Live → s.params.execOverwrite = .replace →
      Hits s (regAddr p (.smPinctrl n)) p (.smPinctrl n) 0#2 → Hits s (regAddr p (.smInstr n)) p (.smInstr n) 0#2 →
      ∃ t, runTxns (frameTxns p n windows saved) s = .next t ∧ t.Live ∧ (t.sm p n).pinctrl = saved ∧
        (t.sm p n).clkdiv = (s.sm p n).clkdiv ∧ (t.sm p n).execctrl = (s.sm p n).execctrl ∧
        (t.sm p n).shiftctrl = (s.sm p n).shiftctrl ∧ (t.sm p n).tx = (s.sm p n).tx ∧ (t.sm p n).rx = (s.sm p n).rx))

/-- R340, R345, R407: a pin helper enters the critical section at its first READ, and what it goes on with restores the
value that READ answered; it stays in the section while a transaction is left; it leaves it with its last transaction, or
when a transaction ends with an error (log 20). While one thread is in the section, a step of any other host thread takes
no transaction: nothing but the move itself is consumed (log 15). -/
def Obligations.CriticalSectionExcludesOtherHosts : Prop :=
  (∀ (s : State) (t u : Nat) (ms : List Move), s.Live → s.critical = some t → u ≠ t → s.moves = .host u :: ms →
    step s = .next { s with moves := ms }) ∧
  (∀ (s : State) (t : Nat) (ms : List Move) (p : PioId) (n : SmId) (windows : List (Word × Half)), s.Live →
    s.critical = none → s.moves = .host t :: ms →
    (s.thread t).op = .running ⟨[.read (regAddr p (.smPinctrl n))], .pinFrame p n windows, true⟩ →
    Hits s (regAddr p (.smPinctrl n)) p (.smPinctrl n) 0#2 →
    ∃ u, step s = .next u ∧ u.critical = some t ∧
      (u.thread t).op = .running ⟨frameTxns p n windows (s.sm p n).pinctrl, .done, true⟩) ∧
  (∀ (s v : State) (t : Nat) (ms : List Move) (i : Instr) (rest : List Instr), s.Live →
    s.critical = none ∨ s.critical = some t → s.moves = .host t :: ms →
    (s.thread t).op = .running ⟨i :: rest, .done, true⟩ →
    exec i { s with moves := ms, turn := t, critical := some t } = .next v → v.Live →
    ∃ u, step s = .next u ∧ u.pio0 = v.pio0 ∧ u.pio1 = v.pio1 ∧ u.history = v.history ∧
      (∀ e, (v.thread t).result = some (.error e) →
        u.critical = none ∧ (u.thread t).op = .idle ∧ (u.thread t).result = some (.error e)) ∧
      (∀ r, (v.thread t).result = some r → (∀ e, r ≠ .error e) →
        (rest ≠ [] → u.critical = some t ∧ (u.thread t).op = .running ⟨rest, .done, true⟩) ∧
        (rest = [] → u.critical = none ∧ (u.thread t).op = .idle ∧ (u.thread t).result = some .unit)))

/-- R301: a setter clears exactly its own field before OR-ing in the value: setOutPins (R309), setWrap (R304) and
setFifoJoin (R315) leave every bit outside their fields, and setOutPins and setWrap refuse a value out of range. -/
def Obligations.SettersTouchOnlyTheirFields : Prop :=
  ∀ c : SmConfig,
    (∀ base count : Nat, base ≤ 31 → count ≤ 32 → setOutPins c base count =
      .ok { c with
        pinctrl := (c.pinctrl &&& ~~~0x03F0001F#32) ||| BitVec.ofNat 32 (count * 2 ^ 20 + base) }) ∧
    (∀ base count : Nat, 31 < base ∨ 32 < count → ∃ v, setOutPins c base count = .error (.illegalArgument [v])) ∧
    (∀ target wrap : Nat, target ≤ 31 → wrap ≤ 31 → setWrap c target wrap =
      .ok { c with
        execctrl := (c.execctrl &&& ~~~0x0001FF80#32) ||| BitVec.ofNat 32 (wrap * 2 ^ 12 + target * 2 ^ 7) }) ∧
    (∀ target wrap : Nat, 31 < target ∨ 31 < wrap → ∃ v, setWrap c target wrap = .error (.illegalArgument [v])) ∧
    (∀ mode : JoinMode, setFifoJoin c mode = { c with
      shiftctrl := (c.shiftctrl &&& ~~~0xC0000000#32) |||
        (match mode with | .none => 0#32 | .tx => 0x40000000#32 | .rx => 0x80000000#32) })

/-! ## Reset and invariants -/

/-- R451, R452: what the registers of every PIO read after reset, whatever the parameters and the clocks' start; the rest
of the state empty, idle and unmarked. The spec marks the register values of R451 as its own general knowledge (log 25);
the statement is derived from them. -/
def Obligations.ResetValues : Prop :=
  ∀ (P : Params) (c m : Nat) (p : PioId) (n : SmId) (i : Fin 32) (k : Fin 2),
    let s := State.resetWith P c m
    pioView s p .ctrl = 0#32 ∧ pioView s p .fstat = 0x0F000F00#32 ∧ pioView s p .fdebug = 0#32 ∧
    pioView s p .flevel = 0#32 ∧ pioView s p (.txf n) = 0#32 ∧ pioView s p .irq = 0#32 ∧
    pioView s p .irqForce = 0#32 ∧ pioView s p .inputSyncBypass = 0#32 ∧ pioView s p .dbgPadout = 0#32 ∧
    pioView s p .dbgPadoe = 0#32 ∧ pioView s p .dbgCfginfo = 0x00200404#32 ∧ (s.pio p).word i = 0#16 ∧
    pioView s p (.smClkdiv n) = 0x00010000#32 ∧ pioView s p (.smExecctrl n) = 0x0001F000#32 ∧
    pioView s p (.smShiftctrl n) = 0x000C0000#32 ∧ pioView s p (.smAddr n) = 0#32 ∧
    pioView s p (.smInstr n) = 0#32 ∧ pioView s p (.smPinctrl n) = 0x14000000#32 ∧
    pioView s p .intr = 0x000000F0#32 ∧ pioView s p (.inte k) = 0#32 ∧ pioView s p (.intf k) = 0#32 ∧
    pioView s p (.ints k) = 0#32 ∧ (s.pio p).occ = 0#32 ∧ (s.sm p n).tx = [] ∧ (s.sm p n).rx = [] ∧
    (s.sm p n).pc = 0#5 ∧ (s.sm p n).execStalled = false ∧ (s.sm p n).pending = none ∧ s.history = [] ∧
    s.faultMark = none ∧ s.refusalMark = none ∧ (∀ t, (s.thread t).op = .idle)

/-- The invariant holds right after reset, whatever the parameters and the clocks' start. -/
def Obligations.ResetIsSound : Prop :=
  ∀ (P : Params) (c m : Nat), (State.resetWith P c m).Sound

/-- R26, R30, R56, R57, R192, R201: every step of any agent keeps the invariant: no state machine ever has both join bits,
every FIFO stays within its capacity, reserved bits stay zero, a stalled flag stands only with a pending word, and both
counters stay below their period. -/
def Obligations.EveryStepKeepsTheMachineSound : Prop :=
  ∀ s t : State, s.Sound → step s = .next t → t.Sound

/-- R21, R24: no step changes the parameters, and every step only appends to the event history. -/
def Obligations.StepsKeepParametersAndHistory : Prop :=
  ∀ s t : State, step s = .next t → t.params = s.params ∧ ∃ es, t.history = s.history ++ es
end

