-- ==== Sys2Proof/Laws/Bits.lean ====
section
/-! SUPPORT. Sys2Proof/Laws/Bits.lean: the laws of the masked write (40_dispatch R151, R153) and of the alias triples'
data (41_csr R184), and of the small bit operations. -/

namespace Sys2Proof.Machine

open Sys2Proof

/-- The bits of a low mask (R7). -/
theorem getLsbD_lowmask {n : Nat} (h : n ≤ 32) (i : Nat) : (lowmask n).getLsbD i = decide (i < n) := by
  rw [lowmask, BitVec.getLsbD_ofNat, Nat.testBit_two_pow_sub_one]
  by_cases hi : i < n
  · simp [hi, show i < 32 by omega]
  · simp [hi]

theorem not_full : ~~~(0xFFFFFFFF#32 : Word) = 0#32 := by decide

@[simp] theorem and_full (w : Word) : w &&& 0xFFFFFFFF#32 = w := BitVec.and_allOnes

/-- The new value is the source's formula for every mask. -/
theorem writtenValue_formula (old bits mask : Word) (xor : Bool) :
    writtenValue old bits mask xor = (old &&& ~~~mask) ||| ((if xor then old ^^^ bits else bits) &&& mask) := by
  unfold writtenValue writtenData
  split
  · next h =>
    obtain ⟨hm, hx⟩ := h
    subst hm hx
    rw [not_full]
    simp
  · rfl

@[simp] theorem writtenValue_plain (old bits : Word) : writtenValue old bits 0xFFFFFFFF#32 false = bits := by
  simp [writtenValue]

@[simp] theorem writtenData_plain (old bits : Word) : writtenData old bits 0xFFFFFFFF#32 false = bits := by
  simp [writtenData]

/-- Each bit of the new value. -/
theorem getElem_writtenValue (old bits mask : Word) (xor : Bool) (i : Nat) (h : i < 32) :
    (writtenValue old bits mask xor)[i] = if mask[i] then (if xor then old[i] ^^ bits[i] else bits[i]) else old[i] := by
  rw [writtenValue_formula]
  cases xor <;> cases hm : mask[i] <;> simp [hm]

/-- WRITE.XOR on a register that takes the new value. -/
theorem writtenValue_xor (old v : Word) : writtenValue old v v true = old ^^^ v := by
  ext i h
  rw [getElem_writtenValue]
  cases hv : v[i] <;> simp [hv]

/-- WRITE.SET on a register that takes the new value. -/
theorem writtenValue_set (old v : Word) : writtenValue old v v false = old ||| v := by
  ext i h
  rw [getElem_writtenValue]
  cases hv : v[i] <;> simp [hv]

/-- WRITE.CLR on a register that takes the new value. -/
theorem writtenValue_clr (old v : Word) : writtenValue old (~~~v) v false = old &&& ~~~v := by
  ext i h
  rw [getElem_writtenValue]
  cases hv : v[i] <;> simp [hv]

theorem writtenData_xor (old v : Word) : writtenData old v v true = ~~~old &&& v := by
  ext i h
  simp only [writtenData, if_true, BitVec.getElem_and, BitVec.getElem_xor, BitVec.getElem_not]
  cases v[i] <;> simp

@[simp] theorem writtenData_set (old v : Word) : writtenData old v v false = v := by
  simp [writtenData]

@[simp] theorem writtenData_clr (old v : Word) : writtenData old (~~~v) v false = 0#32 := by
  ext i h
  simp [writtenData]

end Sys2Proof.Machine
end

