-- ==== Sys2Proof/Laws/State.lean ====
section
/-! SUPPORT. Sys2Proof/Laws/State.lean: for every named update of the state, what each field holds after it. Later proofs
cite these (they are simp lemmas) and never unfold a record update. -/

namespace Sys2Proof.Machine

open Sys2Proof

/-! ## PIO instances -/

@[simp] theorem State.pio_zero (s : State) : s.pio 0 = s.pio0 := rfl
@[simp] theorem State.pio_one (s : State) : s.pio 1 = s.pio1 := rfl

theorem State.pio_setPio (s : State) (p q : PioId) (x : Pio) :
    (s.setPio p x).pio q = if q = p then x else s.pio q := by
  match p, q with
  | 0, 0 => rfl
  | 0, 1 => rfl
  | 1, 0 => rfl
  | 1, 1 => rfl

@[simp] theorem State.pio_setPio_same (s : State) (p : PioId) (x : Pio) : (s.setPio p x).pio p = x := by
  simp [State.pio_setPio]

theorem State.pio_setPio_ne (s : State) {p q : PioId} (x : Pio) (h : q ≠ p) : (s.setPio p x).pio q = s.pio q := by
  simp [State.pio_setPio, h]

theorem State.setPio_setPio (s : State) (p : PioId) (x y : Pio) : (s.setPio p x).setPio p y = s.setPio p y := by
  match p with
  | 0 => rfl
  | 1 => rfl

@[simp] theorem State.setPio_pio (s : State) (p : PioId) : s.setPio p (s.pio p) = s := by
  match p with
  | 0 => rfl
  | 1 => rfl

@[simp] theorem State.pio_modPio_same (s : State) (p : PioId) (f : Pio → Pio) : (s.modPio p f).pio p = f (s.pio p) := by
  simp [State.modPio]

theorem State.pio_modPio_ne (s : State) {p q : PioId} (f : Pio → Pio) (h : q ≠ p) : (s.modPio p f).pio q = s.pio q := by
  simp [State.modPio, State.pio_setPio_ne _ _ h]

theorem State.pio_modPio (s : State) (p q : PioId) (f : Pio → Pio) :
    (s.modPio p f).pio q = if q = p then f (s.pio p) else s.pio q := State.pio_setPio ..

/-! ## State machines -/

theorem Pio.sm_setSm (x : Pio) (n k : SmId) (m : Sm) : (x.setSm n m).sm k = if k = n then m else x.sm k := by
  match n, k with
  | 0, 0 => rfl
  | 0, 1 => rfl
  | 0, 2 => rfl
  | 0, 3 => rfl
  | 1, 0 => rfl
  | 1, 1 => rfl
  | 1, 2 => rfl
  | 1, 3 => rfl
  | 2, 0 => rfl
  | 2, 1 => rfl
  | 2, 2 => rfl
  | 2, 3 => rfl
  | 3, 0 => rfl
  | 3, 1 => rfl
  | 3, 2 => rfl
  | 3, 3 => rfl

@[simp] theorem Pio.sm_setSm_same (x : Pio) (n : SmId) (m : Sm) : (x.setSm n m).sm n = m := by
  simp [Pio.sm_setSm]

theorem Pio.sm_setSm_ne (x : Pio) {n k : SmId} (m : Sm) (h : k ≠ n) : (x.setSm n m).sm k = x.sm k := by
  simp [Pio.sm_setSm, h]

theorem State.sm_modSm (s : State) (p q : PioId) (n k : SmId) (f : Sm → Sm) :
    (s.modSm p n f).sm q k = if q = p ∧ k = n then f (s.sm p n) else s.sm q k := by
  by_cases hq : q = p
  · subst hq
    by_cases hk : k = n
    · subst hk
      simp [State.modSm, State.sm]
    · simp [State.modSm, State.sm, Pio.sm_setSm_ne _ _ hk, hk]
  · simp [State.modSm, State.sm, State.pio_modPio_ne _ _ hq, hq]

@[simp] theorem State.sm_modSm_same (s : State) (p : PioId) (n : SmId) (f : Sm → Sm) :
    (s.modSm p n f).sm p n = f (s.sm p n) := by
  simp [State.sm_modSm]

theorem State.sm_modPio (s : State) (p q : PioId) (n : SmId) (f : Pio → Pio) (h : ∀ x n, (f x).sm n = x.sm n) :
    (s.modPio p f).sm q n = s.sm q n := by
  simp only [State.sm, State.pio_modPio]
  split
  · next hq => simp [h, hq]
  · rfl

/-! ## What `setSm`, `setWord`, `setInte` and `setIntf` leave of a PIO -/

@[simp] theorem Pio.occ_setSm (x : Pio) (n : SmId) (m : Sm) : (x.setSm n m).occ = x.occ := by
  unfold Pio.setSm; split <;> rfl
@[simp] theorem Pio.smEnable_setSm (x : Pio) (n : SmId) (m : Sm) : (x.setSm n m).smEnable = x.smEnable := by
  unfold Pio.setSm; split <;> rfl
@[simp] theorem Pio.txstall_setSm (x : Pio) (n : SmId) (m : Sm) : (x.setSm n m).txstall = x.txstall := by
  unfold Pio.setSm; split <;> rfl
@[simp] theorem Pio.txover_setSm (x : Pio) (n : SmId) (m : Sm) : (x.setSm n m).txover = x.txover := by
  unfold Pio.setSm; split <;> rfl
@[simp] theorem Pio.rxunder_setSm (x : Pio) (n : SmId) (m : Sm) : (x.setSm n m).rxunder = x.rxunder := by
  unfold Pio.setSm; split <;> rfl
@[simp] theorem Pio.rxstall_setSm (x : Pio) (n : SmId) (m : Sm) : (x.setSm n m).rxstall = x.rxstall := by
  unfold Pio.setSm; split <;> rfl
@[simp] theorem Pio.irq_setSm (x : Pio) (n : SmId) (m : Sm) : (x.setSm n m).irq = x.irq := by
  unfold Pio.setSm; split <;> rfl
@[simp] theorem Pio.inputSyncBypass_setSm (x : Pio) (n : SmId) (m : Sm) : (x.setSm n m).inputSyncBypass = x.inputSyncBypass := by
  unfold Pio.setSm; split <;> rfl
@[simp] theorem Pio.padout_setSm (x : Pio) (n : SmId) (m : Sm) : (x.setSm n m).padout = x.padout := by
  unfold Pio.setSm; split <;> rfl
@[simp] theorem Pio.padoe_setSm (x : Pio) (n : SmId) (m : Sm) : (x.setSm n m).padoe = x.padoe := by
  unfold Pio.setSm; split <;> rfl
@[simp] theorem Pio.imem_setSm (x : Pio) (n : SmId) (m : Sm) : (x.setSm n m).imem = x.imem := by
  unfold Pio.setSm; split <;> rfl
@[simp] theorem Pio.irq0Inte_setSm (x : Pio) (n : SmId) (m : Sm) : (x.setSm n m).irq0Inte = x.irq0Inte := by
  unfold Pio.setSm; split <;> rfl
@[simp] theorem Pio.irq0Intf_setSm (x : Pio) (n : SmId) (m : Sm) : (x.setSm n m).irq0Intf = x.irq0Intf := by
  unfold Pio.setSm; split <;> rfl
@[simp] theorem Pio.irq1Inte_setSm (x : Pio) (n : SmId) (m : Sm) : (x.setSm n m).irq1Inte = x.irq1Inte := by
  unfold Pio.setSm; split <;> rfl
@[simp] theorem Pio.irq1Intf_setSm (x : Pio) (n : SmId) (m : Sm) : (x.setSm n m).irq1Intf = x.irq1Intf := by
  unfold Pio.setSm; split <;> rfl

@[simp] theorem Pio.sm_setWord (x : Pio) (i : Fin 32) (v : Half) (n : SmId) : (x.setWord i v).sm n = x.sm n := rfl
@[simp] theorem Pio.sm_setInte (x : Pio) (k : Fin 2) (v : BitVec 12) (n : SmId) : (x.setInte k v).sm n = x.sm n := by
  unfold Pio.setInte; split <;> rfl
@[simp] theorem Pio.sm_setIntf (x : Pio) (k : Fin 2) (v : BitVec 12) (n : SmId) : (x.setIntf k v).sm n = x.sm n := by
  unfold Pio.setIntf; split <;> rfl

theorem Pio.word_setWord (x : Pio) (i j : Fin 32) (v : Half) :
    (x.setWord i v).word j = if j = i then v else x.word j := by
  simp only [Pio.word, Pio.setWord, Fin.getElem_fin, Vector.getElem_set]
  by_cases h : j = i
  · simp [h]
  · simp [h, Ne.symm (fun e => h (Fin.ext e))]

/-! ## Host threads -/

theorem threadAt_setThreadAt (l : List Thread) (n k : Nat) (x : Thread) :
    threadAt (setThreadAt l n x) k = if k = n then x else threadAt l k := by
  induction l, n, x using setThreadAt.induct generalizing k with
  | case1 x => cases k <;> simp [setThreadAt, threadAt]
  | case2 n x ih =>
    cases k with
    | zero => simp [setThreadAt, threadAt]
    | succ k => simpa [setThreadAt, threadAt] using ih k
  | case3 y l x => cases k <;> simp [setThreadAt, threadAt]
  | case4 y l n x ih =>
    cases k with
    | zero => simp [setThreadAt, threadAt]
    | succ k => simpa [setThreadAt, threadAt] using ih k

theorem State.thread_setThread (s : State) (t u : Nat) (x : Thread) :
    (s.setThread t x).thread u = if u = t then x else s.thread u := threadAt_setThreadAt ..

@[simp] theorem State.thread_setThread_same (s : State) (t : Nat) (x : Thread) : (s.setThread t x).thread t = x := by
  simp [State.thread_setThread]

theorem State.thread_setThread_ne (s : State) {t u : Nat} (x : Thread) (h : u ≠ t) :
    (s.setThread t x).thread u = s.thread u := by
  simp [State.thread_setThread, h]

/-! ## `setPio` -/

@[simp] theorem State.params_setPio (s : State) (p : PioId) (x : Pio) : (s.setPio p x).params = s.params := by unfold State.setPio; split <;> rfl
@[simp] theorem State.cycles_setPio (s : State) (p : PioId) (x : Pio) : (s.setPio p x).cycles = s.cycles := by unfold State.setPio; split <;> rfl
@[simp] theorem State.millis_setPio (s : State) (p : PioId) (x : Pio) : (s.setPio p x).millis = s.millis := by unfold State.setPio; split <;> rfl
@[simp] theorem State.threads_setPio (s : State) (p : PioId) (x : Pio) : (s.setPio p x).threads = s.threads := by unfold State.setPio; split <;> rfl
@[simp] theorem State.critical_setPio (s : State) (p : PioId) (x : Pio) : (s.setPio p x).critical = s.critical := by unfold State.setPio; split <;> rfl
@[simp] theorem State.history_setPio (s : State) (p : PioId) (x : Pio) : (s.setPio p x).history = s.history := by unfold State.setPio; split <;> rfl
@[simp] theorem State.faultMark_setPio (s : State) (p : PioId) (x : Pio) : (s.setPio p x).faultMark = s.faultMark := by unfold State.setPio; split <;> rfl
@[simp] theorem State.refusalMark_setPio (s : State) (p : PioId) (x : Pio) : (s.setPio p x).refusalMark = s.refusalMark := by unfold State.setPio; split <;> rfl
@[simp] theorem State.moves_setPio (s : State) (p : PioId) (x : Pio) : (s.setPio p x).moves = s.moves := by unfold State.setPio; split <;> rfl
@[simp] theorem State.draws_setPio (s : State) (p : PioId) (x : Pio) : (s.setPio p x).draws = s.draws := by unfold State.setPio; split <;> rfl
@[simp] theorem State.turn_setPio (s : State) (p : PioId) (x : Pio) : (s.setPio p x).turn = s.turn := by unfold State.setPio; split <;> rfl
@[simp] theorem State.target_setPio (s : State) (p : PioId) (x : Pio) : (s.setPio p x).target = s.target := by unfold State.setPio; split <;> rfl
@[simp] theorem State.thread_setPio (s : State) (p : PioId) (x : Pio) (u : Nat) : (s.setPio p x).thread u = s.thread u := by simp [State.thread]
@[simp] theorem State.resolve_setPio (s : State) (p : PioId) (x : Pio) (addr : Word) : (s.setPio p x).resolve addr = s.resolve addr := by
  simp [State.resolve]

/-! ## `modPio` -/

@[simp] theorem State.params_modPio (s : State) (p : PioId) (f : Pio → Pio) : (s.modPio p f).params = s.params := State.params_setPio ..
@[simp] theorem State.cycles_modPio (s : State) (p : PioId) (f : Pio → Pio) : (s.modPio p f).cycles = s.cycles := State.cycles_setPio ..
@[simp] theorem State.millis_modPio (s : State) (p : PioId) (f : Pio → Pio) : (s.modPio p f).millis = s.millis := State.millis_setPio ..
@[simp] theorem State.threads_modPio (s : State) (p : PioId) (f : Pio → Pio) : (s.modPio p f).threads = s.threads := State.threads_setPio ..
@[simp] theorem State.critical_modPio (s : State) (p : PioId) (f : Pio → Pio) : (s.modPio p f).critical = s.critical := State.critical_setPio ..
@[simp] theorem State.history_modPio (s : State) (p : PioId) (f : Pio → Pio) : (s.modPio p f).history = s.history := State.history_setPio ..
@[simp] theorem State.faultMark_modPio (s : State) (p : PioId) (f : Pio → Pio) : (s.modPio p f).faultMark = s.faultMark := State.faultMark_setPio ..
@[simp] theorem State.refusalMark_modPio (s : State) (p : PioId) (f : Pio → Pio) : (s.modPio p f).refusalMark = s.refusalMark := State.refusalMark_setPio ..
@[simp] theorem State.moves_modPio (s : State) (p : PioId) (f : Pio → Pio) : (s.modPio p f).moves = s.moves := State.moves_setPio ..
@[simp] theorem State.draws_modPio (s : State) (p : PioId) (f : Pio → Pio) : (s.modPio p f).draws = s.draws := State.draws_setPio ..
@[simp] theorem State.turn_modPio (s : State) (p : PioId) (f : Pio → Pio) : (s.modPio p f).turn = s.turn := State.turn_setPio ..
@[simp] theorem State.target_modPio (s : State) (p : PioId) (f : Pio → Pio) : (s.modPio p f).target = s.target := State.target_setPio ..
@[simp] theorem State.thread_modPio (s : State) (p : PioId) (f : Pio → Pio) (u : Nat) : (s.modPio p f).thread u = s.thread u := by simp [State.thread]
@[simp] theorem State.resolve_modPio (s : State) (p : PioId) (f : Pio → Pio) (addr : Word) : (s.modPio p f).resolve addr = s.resolve addr := by
  simp [State.resolve]

/-! ## `modSm` -/

@[simp] theorem State.params_modSm (s : State) (p : PioId) (n : SmId) (f : Sm → Sm) : (s.modSm p n f).params = s.params := State.params_modPio ..
@[simp] theorem State.cycles_modSm (s : State) (p : PioId) (n : SmId) (f : Sm → Sm) : (s.modSm p n f).cycles = s.cycles := State.cycles_modPio ..
@[simp] theorem State.millis_modSm (s : State) (p : PioId) (n : SmId) (f : Sm → Sm) : (s.modSm p n f).millis = s.millis := State.millis_modPio ..
@[simp] theorem State.threads_modSm (s : State) (p : PioId) (n : SmId) (f : Sm → Sm) : (s.modSm p n f).threads = s.threads := State.threads_modPio ..
@[simp] theorem State.critical_modSm (s : State) (p : PioId) (n : SmId) (f : Sm → Sm) : (s.modSm p n f).critical = s.critical := State.critical_modPio ..
@[simp] theorem State.history_modSm (s : State) (p : PioId) (n : SmId) (f : Sm → Sm) : (s.modSm p n f).history = s.history := State.history_modPio ..
@[simp] theorem State.faultMark_modSm (s : State) (p : PioId) (n : SmId) (f : Sm → Sm) : (s.modSm p n f).faultMark = s.faultMark := State.faultMark_modPio ..
@[simp] theorem State.refusalMark_modSm (s : State) (p : PioId) (n : SmId) (f : Sm → Sm) : (s.modSm p n f).refusalMark = s.refusalMark := State.refusalMark_modPio ..
@[simp] theorem State.moves_modSm (s : State) (p : PioId) (n : SmId) (f : Sm → Sm) : (s.modSm p n f).moves = s.moves := State.moves_modPio ..
@[simp] theorem State.draws_modSm (s : State) (p : PioId) (n : SmId) (f : Sm → Sm) : (s.modSm p n f).draws = s.draws := State.draws_modPio ..
@[simp] theorem State.turn_modSm (s : State) (p : PioId) (n : SmId) (f : Sm → Sm) : (s.modSm p n f).turn = s.turn := State.turn_modPio ..
@[simp] theorem State.target_modSm (s : State) (p : PioId) (n : SmId) (f : Sm → Sm) : (s.modSm p n f).target = s.target := State.target_modPio ..
@[simp] theorem State.thread_modSm (s : State) (p : PioId) (n : SmId) (f : Sm → Sm) (u : Nat) : (s.modSm p n f).thread u = s.thread u := by simp [State.thread]
@[simp] theorem State.resolve_modSm (s : State) (p : PioId) (n : SmId) (f : Sm → Sm) (addr : Word) : (s.modSm p n f).resolve addr = s.resolve addr := by
  simp [State.resolve]

/-! ## `emit` -/

@[simp] theorem State.params_emit (s : State) (e : Event) : (s.emit e).params = s.params := rfl
@[simp] theorem State.pio0_emit (s : State) (e : Event) : (s.emit e).pio0 = s.pio0 := rfl
@[simp] theorem State.pio1_emit (s : State) (e : Event) : (s.emit e).pio1 = s.pio1 := rfl
@[simp] theorem State.cycles_emit (s : State) (e : Event) : (s.emit e).cycles = s.cycles := rfl
@[simp] theorem State.millis_emit (s : State) (e : Event) : (s.emit e).millis = s.millis := rfl
@[simp] theorem State.threads_emit (s : State) (e : Event) : (s.emit e).threads = s.threads := rfl
@[simp] theorem State.critical_emit (s : State) (e : Event) : (s.emit e).critical = s.critical := rfl
@[simp] theorem State.faultMark_emit (s : State) (e : Event) : (s.emit e).faultMark = s.faultMark := rfl
@[simp] theorem State.refusalMark_emit (s : State) (e : Event) : (s.emit e).refusalMark = s.refusalMark := rfl
@[simp] theorem State.moves_emit (s : State) (e : Event) : (s.emit e).moves = s.moves := rfl
@[simp] theorem State.draws_emit (s : State) (e : Event) : (s.emit e).draws = s.draws := rfl
@[simp] theorem State.turn_emit (s : State) (e : Event) : (s.emit e).turn = s.turn := rfl
@[simp] theorem State.target_emit (s : State) (e : Event) : (s.emit e).target = s.target := rfl
@[simp] theorem State.pio_emit (s : State) (e : Event) (q : PioId) : (s.emit e).pio q = s.pio q := rfl
@[simp] theorem State.sm_emit (s : State) (e : Event) (q : PioId) (k : SmId) : (s.emit e).sm q k = s.sm q k := rfl
@[simp] theorem State.thread_emit (s : State) (e : Event) (u : Nat) : (s.emit e).thread u = s.thread u := rfl
@[simp] theorem State.resolve_emit (s : State) (e : Event) (addr : Word) : (s.emit e).resolve addr = s.resolve addr := rfl

/-! ## `drawn` -/

@[simp] theorem State.params_drawn (s : State) : (s.drawn).params = s.params := rfl
@[simp] theorem State.pio0_drawn (s : State) : (s.drawn).pio0 = s.pio0 := rfl
@[simp] theorem State.pio1_drawn (s : State) : (s.drawn).pio1 = s.pio1 := rfl
@[simp] theorem State.cycles_drawn (s : State) : (s.drawn).cycles = s.cycles := rfl
@[simp] theorem State.millis_drawn (s : State) : (s.drawn).millis = s.millis := rfl
@[simp] theorem State.threads_drawn (s : State) : (s.drawn).threads = s.threads := rfl
@[simp] theorem State.critical_drawn (s : State) : (s.drawn).critical = s.critical := rfl
@[simp] theorem State.history_drawn (s : State) : (s.drawn).history = s.history := rfl
@[simp] theorem State.faultMark_drawn (s : State) : (s.drawn).faultMark = s.faultMark := rfl
@[simp] theorem State.refusalMark_drawn (s : State) : (s.drawn).refusalMark = s.refusalMark := rfl
@[simp] theorem State.moves_drawn (s : State) : (s.drawn).moves = s.moves := rfl
@[simp] theorem State.turn_drawn (s : State) : (s.drawn).turn = s.turn := rfl
@[simp] theorem State.target_drawn (s : State) : (s.drawn).target = s.target := rfl
@[simp] theorem State.pio_drawn (s : State) (q : PioId) : (s.drawn).pio q = s.pio q := rfl
@[simp] theorem State.sm_drawn (s : State) (q : PioId) (k : SmId) : (s.drawn).sm q k = s.sm q k := rfl
@[simp] theorem State.thread_drawn (s : State) (u : Nat) : (s.drawn).thread u = s.thread u := rfl
@[simp] theorem State.resolve_drawn (s : State) (addr : Word) : (s.drawn).resolve addr = s.resolve addr := rfl

/-! ## `setThread` -/

@[simp] theorem State.params_setThread (s : State) (t : Nat) (x : Thread) : (s.setThread t x).params = s.params := rfl
@[simp] theorem State.pio0_setThread (s : State) (t : Nat) (x : Thread) : (s.setThread t x).pio0 = s.pio0 := rfl
@[simp] theorem State.pio1_setThread (s : State) (t : Nat) (x : Thread) : (s.setThread t x).pio1 = s.pio1 := rfl
@[simp] theorem State.cycles_setThread (s : State) (t : Nat) (x : Thread) : (s.setThread t x).cycles = s.cycles := rfl
@[simp] theorem State.millis_setThread (s : State) (t : Nat) (x : Thread) : (s.setThread t x).millis = s.millis := rfl
@[simp] theorem State.critical_setThread (s : State) (t : Nat) (x : Thread) : (s.setThread t x).critical = s.critical := rfl
@[simp] theorem State.history_setThread (s : State) (t : Nat) (x : Thread) : (s.setThread t x).history = s.history := rfl
@[simp] theorem State.faultMark_setThread (s : State) (t : Nat) (x : Thread) : (s.setThread t x).faultMark = s.faultMark := rfl
@[simp] theorem State.refusalMark_setThread (s : State) (t : Nat) (x : Thread) : (s.setThread t x).refusalMark = s.refusalMark := rfl
@[simp] theorem State.moves_setThread (s : State) (t : Nat) (x : Thread) : (s.setThread t x).moves = s.moves := rfl
@[simp] theorem State.draws_setThread (s : State) (t : Nat) (x : Thread) : (s.setThread t x).draws = s.draws := rfl
@[simp] theorem State.turn_setThread (s : State) (t : Nat) (x : Thread) : (s.setThread t x).turn = s.turn := rfl
@[simp] theorem State.target_setThread (s : State) (t : Nat) (x : Thread) : (s.setThread t x).target = s.target := rfl
@[simp] theorem State.pio_setThread (s : State) (t : Nat) (x : Thread) (q : PioId) : (s.setThread t x).pio q = s.pio q := rfl
@[simp] theorem State.sm_setThread (s : State) (t : Nat) (x : Thread) (q : PioId) (k : SmId) : (s.setThread t x).sm q k = s.sm q k := rfl
@[simp] theorem State.resolve_setThread (s : State) (t : Nat) (x : Thread) (addr : Word) : (s.setThread t x).resolve addr = s.resolve addr := rfl

/-! ## `deliver` -/

@[simp] theorem State.params_deliver (s : State) (r : Result) : (s.deliver r).params = s.params := rfl
@[simp] theorem State.pio0_deliver (s : State) (r : Result) : (s.deliver r).pio0 = s.pio0 := rfl
@[simp] theorem State.pio1_deliver (s : State) (r : Result) : (s.deliver r).pio1 = s.pio1 := rfl
@[simp] theorem State.cycles_deliver (s : State) (r : Result) : (s.deliver r).cycles = s.cycles := rfl
@[simp] theorem State.millis_deliver (s : State) (r : Result) : (s.deliver r).millis = s.millis := rfl
@[simp] theorem State.critical_deliver (s : State) (r : Result) : (s.deliver r).critical = s.critical := rfl
@[simp] theorem State.history_deliver (s : State) (r : Result) : (s.deliver r).history = s.history := rfl
@[simp] theorem State.faultMark_deliver (s : State) (r : Result) : (s.deliver r).faultMark = s.faultMark := rfl
@[simp] theorem State.refusalMark_deliver (s : State) (r : Result) : (s.deliver r).refusalMark = s.refusalMark := rfl
@[simp] theorem State.moves_deliver (s : State) (r : Result) : (s.deliver r).moves = s.moves := rfl
@[simp] theorem State.draws_deliver (s : State) (r : Result) : (s.deliver r).draws = s.draws := rfl
@[simp] theorem State.turn_deliver (s : State) (r : Result) : (s.deliver r).turn = s.turn := rfl
@[simp] theorem State.target_deliver (s : State) (r : Result) : (s.deliver r).target = s.target := rfl
@[simp] theorem State.pio_deliver (s : State) (r : Result) (q : PioId) : (s.deliver r).pio q = s.pio q := rfl
@[simp] theorem State.sm_deliver (s : State) (r : Result) (q : PioId) (k : SmId) : (s.deliver r).sm q k = s.sm q k := rfl
@[simp] theorem State.resolve_deliver (s : State) (r : Result) (addr : Word) : (s.deliver r).resolve addr = s.resolve addr := rfl

/-! ## `finish` -/

@[simp] theorem State.params_finish (s : State) (r : Result) : (s.finish r).params = s.params := rfl
@[simp] theorem State.pio0_finish (s : State) (r : Result) : (s.finish r).pio0 = s.pio0 := rfl
@[simp] theorem State.pio1_finish (s : State) (r : Result) : (s.finish r).pio1 = s.pio1 := rfl
@[simp] theorem State.cycles_finish (s : State) (r : Result) : (s.finish r).cycles = s.cycles := rfl
@[simp] theorem State.millis_finish (s : State) (r : Result) : (s.finish r).millis = s.millis := rfl
@[simp] theorem State.critical_finish (s : State) (r : Result) : (s.finish r).critical = s.critical := rfl
@[simp] theorem State.history_finish (s : State) (r : Result) : (s.finish r).history = s.history := rfl
@[simp] theorem State.faultMark_finish (s : State) (r : Result) : (s.finish r).faultMark = s.faultMark := rfl
@[simp] theorem State.refusalMark_finish (s : State) (r : Result) : (s.finish r).refusalMark = s.refusalMark := rfl
@[simp] theorem State.moves_finish (s : State) (r : Result) : (s.finish r).moves = s.moves := rfl
@[simp] theorem State.draws_finish (s : State) (r : Result) : (s.finish r).draws = s.draws := rfl
@[simp] theorem State.turn_finish (s : State) (r : Result) : (s.finish r).turn = s.turn := rfl
@[simp] theorem State.target_finish (s : State) (r : Result) : (s.finish r).target = s.target := rfl
@[simp] theorem State.pio_finish (s : State) (r : Result) (q : PioId) : (s.finish r).pio q = s.pio q := rfl
@[simp] theorem State.sm_finish (s : State) (r : Result) (q : PioId) (k : SmId) : (s.finish r).sm q k = s.sm q k := rfl
@[simp] theorem State.resolve_finish (s : State) (r : Result) (addr : Word) : (s.finish r).resolve addr = s.resolve addr := rfl

/-! ## `proceed` -/

@[simp] theorem State.params_proceed (s : State) (op : HostOp) : (s.proceed op).params = s.params := rfl
@[simp] theorem State.pio0_proceed (s : State) (op : HostOp) : (s.proceed op).pio0 = s.pio0 := rfl
@[simp] theorem State.pio1_proceed (s : State) (op : HostOp) : (s.proceed op).pio1 = s.pio1 := rfl
@[simp] theorem State.cycles_proceed (s : State) (op : HostOp) : (s.proceed op).cycles = s.cycles := rfl
@[simp] theorem State.millis_proceed (s : State) (op : HostOp) : (s.proceed op).millis = s.millis := rfl
@[simp] theorem State.critical_proceed (s : State) (op : HostOp) : (s.proceed op).critical = s.critical := rfl
@[simp] theorem State.history_proceed (s : State) (op : HostOp) : (s.proceed op).history = s.history := rfl
@[simp] theorem State.faultMark_proceed (s : State) (op : HostOp) : (s.proceed op).faultMark = s.faultMark := rfl
@[simp] theorem State.refusalMark_proceed (s : State) (op : HostOp) : (s.proceed op).refusalMark = s.refusalMark := rfl
@[simp] theorem State.moves_proceed (s : State) (op : HostOp) : (s.proceed op).moves = s.moves := rfl
@[simp] theorem State.draws_proceed (s : State) (op : HostOp) : (s.proceed op).draws = s.draws := rfl
@[simp] theorem State.turn_proceed (s : State) (op : HostOp) : (s.proceed op).turn = s.turn := rfl
@[simp] theorem State.target_proceed (s : State) (op : HostOp) : (s.proceed op).target = s.target := rfl
@[simp] theorem State.pio_proceed (s : State) (op : HostOp) (q : PioId) : (s.proceed op).pio q = s.pio q := rfl
@[simp] theorem State.sm_proceed (s : State) (op : HostOp) (q : PioId) (k : SmId) : (s.proceed op).sm q k = s.sm q k := rfl
@[simp] theorem State.resolve_proceed (s : State) (op : HostOp) (addr : Word) : (s.proceed op).resolve addr = s.resolve addr := rfl

/-! ## `raise` -/

@[simp] theorem State.params_raise (s : State) (e : Err) : (s.raise e).params = s.params := rfl
@[simp] theorem State.pio0_raise (s : State) (e : Err) : (s.raise e).pio0 = s.pio0 := rfl
@[simp] theorem State.pio1_raise (s : State) (e : Err) : (s.raise e).pio1 = s.pio1 := rfl
@[simp] theorem State.cycles_raise (s : State) (e : Err) : (s.raise e).cycles = s.cycles := rfl
@[simp] theorem State.millis_raise (s : State) (e : Err) : (s.raise e).millis = s.millis := rfl
@[simp] theorem State.critical_raise (s : State) (e : Err) : (s.raise e).critical = s.critical := rfl
@[simp] theorem State.history_raise (s : State) (e : Err) : (s.raise e).history = s.history := rfl
@[simp] theorem State.faultMark_raise (s : State) (e : Err) : (s.raise e).faultMark = s.faultMark := rfl
@[simp] theorem State.refusalMark_raise (s : State) (e : Err) : (s.raise e).refusalMark = s.refusalMark := rfl
@[simp] theorem State.moves_raise (s : State) (e : Err) : (s.raise e).moves = s.moves := rfl
@[simp] theorem State.draws_raise (s : State) (e : Err) : (s.raise e).draws = s.draws := rfl
@[simp] theorem State.turn_raise (s : State) (e : Err) : (s.raise e).turn = s.turn := rfl
@[simp] theorem State.target_raise (s : State) (e : Err) : (s.raise e).target = s.target := rfl
@[simp] theorem State.pio_raise (s : State) (e : Err) (q : PioId) : (s.raise e).pio q = s.pio q := rfl
@[simp] theorem State.sm_raise (s : State) (e : Err) (q : PioId) (k : SmId) : (s.raise e).sm q k = s.sm q k := rfl
@[simp] theorem State.resolve_raise (s : State) (e : Err) (addr : Word) : (s.raise e).resolve addr = s.resolve addr := rfl

/-! ## `fatal` -/

@[simp] theorem State.params_fatal (s : State) (i : FatalInfo) : (s.fatal i).params = s.params := rfl
@[simp] theorem State.pio0_fatal (s : State) (i : FatalInfo) : (s.fatal i).pio0 = s.pio0 := rfl
@[simp] theorem State.pio1_fatal (s : State) (i : FatalInfo) : (s.fatal i).pio1 = s.pio1 := rfl
@[simp] theorem State.cycles_fatal (s : State) (i : FatalInfo) : (s.fatal i).cycles = s.cycles := rfl
@[simp] theorem State.millis_fatal (s : State) (i : FatalInfo) : (s.fatal i).millis = s.millis := rfl
@[simp] theorem State.threads_fatal (s : State) (i : FatalInfo) : (s.fatal i).threads = s.threads := rfl
@[simp] theorem State.critical_fatal (s : State) (i : FatalInfo) : (s.fatal i).critical = s.critical := rfl
@[simp] theorem State.history_fatal (s : State) (i : FatalInfo) : (s.fatal i).history = s.history := rfl
@[simp] theorem State.refusalMark_fatal (s : State) (i : FatalInfo) : (s.fatal i).refusalMark = s.refusalMark := rfl
@[simp] theorem State.moves_fatal (s : State) (i : FatalInfo) : (s.fatal i).moves = s.moves := rfl
@[simp] theorem State.draws_fatal (s : State) (i : FatalInfo) : (s.fatal i).draws = s.draws := rfl
@[simp] theorem State.turn_fatal (s : State) (i : FatalInfo) : (s.fatal i).turn = s.turn := rfl
@[simp] theorem State.target_fatal (s : State) (i : FatalInfo) : (s.fatal i).target = s.target := rfl
@[simp] theorem State.pio_fatal (s : State) (i : FatalInfo) (q : PioId) : (s.fatal i).pio q = s.pio q := rfl
@[simp] theorem State.sm_fatal (s : State) (i : FatalInfo) (q : PioId) (k : SmId) : (s.fatal i).sm q k = s.sm q k := rfl
@[simp] theorem State.thread_fatal (s : State) (i : FatalInfo) (u : Nat) : (s.fatal i).thread u = s.thread u := rfl
@[simp] theorem State.resolve_fatal (s : State) (i : FatalInfo) (addr : Word) : (s.fatal i).resolve addr = s.resolve addr := rfl

/-! ## `refuse` -/

@[simp] theorem State.params_refuse (s : State) (r : RefuseReason) : (s.refuse r).params = s.params := rfl
@[simp] theorem State.pio0_refuse (s : State) (r : RefuseReason) : (s.refuse r).pio0 = s.pio0 := rfl
@[simp] theorem State.pio1_refuse (s : State) (r : RefuseReason) : (s.refuse r).pio1 = s.pio1 := rfl
@[simp] theorem State.cycles_refuse (s : State) (r : RefuseReason) : (s.refuse r).cycles = s.cycles := rfl
@[simp] theorem State.millis_refuse (s : State) (r : RefuseReason) : (s.refuse r).millis = s.millis := rfl
@[simp] theorem State.threads_refuse (s : State) (r : RefuseReason) : (s.refuse r).threads = s.threads := rfl
@[simp] theorem State.critical_refuse (s : State) (r : RefuseReason) : (s.refuse r).critical = s.critical := rfl
@[simp] theorem State.history_refuse (s : State) (r : RefuseReason) : (s.refuse r).history = s.history := rfl
@[simp] theorem State.faultMark_refuse (s : State) (r : RefuseReason) : (s.refuse r).faultMark = s.faultMark := rfl
@[simp] theorem State.moves_refuse (s : State) (r : RefuseReason) : (s.refuse r).moves = s.moves := rfl
@[simp] theorem State.draws_refuse (s : State) (r : RefuseReason) : (s.refuse r).draws = s.draws := rfl
@[simp] theorem State.turn_refuse (s : State) (r : RefuseReason) : (s.refuse r).turn = s.turn := rfl
@[simp] theorem State.target_refuse (s : State) (r : RefuseReason) : (s.refuse r).target = s.target := rfl
@[simp] theorem State.pio_refuse (s : State) (r : RefuseReason) (q : PioId) : (s.refuse r).pio q = s.pio q := rfl
@[simp] theorem State.sm_refuse (s : State) (r : RefuseReason) (q : PioId) (k : SmId) : (s.refuse r).sm q k = s.sm q k := rfl
@[simp] theorem State.thread_refuse (s : State) (r : RefuseReason) (u : Nat) : (s.refuse r).thread u = s.thread u := rfl
@[simp] theorem State.resolve_refuse (s : State) (r : RefuseReason) (addr : Word) : (s.refuse r).resolve addr = s.resolve addr := rfl

@[simp] theorem State.history_emit (s : State) (e : Event) : (s.emit e).history = s.history ++ [e] := rfl
@[simp] theorem State.draws_drawn (s : State) : s.drawn.draws = s.draws + 1 := rfl
@[simp] theorem State.faultMark_fatal (s : State) (i : FatalInfo) : (s.fatal i).faultMark = some i := rfl
@[simp] theorem State.refusalMark_refuse (s : State) (r : RefuseReason) : (s.refuse r).refusalMark = some r := rfl

@[simp] theorem State.thread_deliver_turn (s : State) (r : Result) :
    (s.deliver r).thread s.turn = { s.thread s.turn with result := some r } := by
  simp [State.deliver]

@[simp] theorem State.thread_finish_turn (s : State) (r : Result) :
    (s.finish r).thread s.turn = { s.thread s.turn with op := .idle, result := some r } := by
  simp [State.finish]

@[simp] theorem State.thread_proceed_turn (s : State) (op : HostOp) :
    (s.proceed op).thread s.turn = { s.thread s.turn with op := op, result := none } := by
  simp [State.proceed]

@[simp] theorem State.thread_raise_turn (s : State) (e : Err) :
    (s.raise e).thread s.turn = { s.thread s.turn with result := some (.error e) } := by
  simp [State.raise]

theorem State.thread_deliver_ne (s : State) (r : Result) {u : Nat} (h : u ≠ s.turn) :
    (s.deliver r).thread u = s.thread u := State.thread_setThread_ne _ _ h

theorem State.thread_finish_ne (s : State) (r : Result) {u : Nat} (h : u ≠ s.turn) :
    (s.finish r).thread u = s.thread u := State.thread_setThread_ne _ _ h

theorem State.thread_proceed_ne (s : State) (op : HostOp) {u : Nat} (h : u ≠ s.turn) :
    (s.proceed op).thread u = s.thread u := State.thread_setThread_ne _ _ h

theorem State.thread_raise_ne (s : State) (e : Err) {u : Nat} (h : u ≠ s.turn) :
    (s.raise e).thread u = s.thread u := State.thread_setThread_ne _ _ h

theorem setThreadAt_setThreadAt (l : List Thread) (n : Nat) (x y : Thread) :
    setThreadAt (setThreadAt l n x) n y = setThreadAt l n y := by
  induction l, n, x using setThreadAt.induct with
  | case1 x => rfl
  | case2 n x ih => simpa [setThreadAt] using ih
  | case3 y' l x => rfl
  | case4 y' l n x ih => simpa [setThreadAt] using ih

/-- Ending an operation overrides a result delivered before. -/
theorem State.finish_deliver (s : State) (r r' : Result) : (s.deliver r).finish r' = s.finish r' := by
  have h : (s.deliver r).finish r' = (s.setThread s.turn { s.thread s.turn with result := some r }).setThread s.turn
      { (s.deliver r).thread s.turn with op := .idle, result := some r' } := rfl
  rw [h, State.thread_deliver_turn]
  simp only [State.setThread, setThreadAt_setThreadAt, State.finish]

/-- Going on with an operation overrides a result delivered before. -/
theorem State.proceed_deliver (s : State) (r : Result) (op : HostOp) : (s.deliver r).proceed op = s.proceed op := by
  have h : (s.deliver r).proceed op = (s.setThread s.turn { s.thread s.turn with result := some r }).setThread s.turn
      { (s.deliver r).thread s.turn with op := op, result := none } := rfl
  rw [h, State.thread_deliver_turn]
  simp only [State.setThread, setThreadAt_setThreadAt, State.proceed]

theorem State.unmarked_iff (s : State) : s.unmarked = true ↔ s.faultMark = none ∧ s.refusalMark = none := by
  simp [State.unmarked]

end Sys2Proof.Machine
end

