-- ==== Sys2Proof/Laws/Operands.lean ====
section
/-! SUPPORT. Sys2Proof/Laws/Operands.lean: the register map is one to one (10_state R31), and what an address that hits a
register resolves to (40_dispatch R141). -/

namespace Sys2Proof.Machine

open Sys2Proof

theorem regIndex_lt (r : Reg) : regIndex r < 81 := by
  cases r <;> simp only [regIndex] <;> omega

/-- Every register is found again at its index. -/
@[simp] theorem regOf_regIndex (r : Reg) : regOf (regIndex r) = r := by
  cases r with
  | txf n => revert n; decide
  | rxf n => revert n; decide
  | instrMem i => revert i; decide
  | smClkdiv n => revert n; decide
  | smExecctrl n => revert n; decide
  | smShiftctrl n => revert n; decide
  | smAddr n => revert n; decide
  | smInstr n => revert n; decide
  | smPinctrl n => revert n; decide
  | inte k => revert k; decide
  | intf k => revert k; decide
  | ints k => revert k; decide
  | _ => rfl

/-- Every index below 81 is the index of its register. -/
theorem regIndex_regOf (k : Nat) (h : k < 81) : regIndex (regOf k) = k := by
  have : ∀ k : Fin 81, regIndex (regOf k.val) = k.val := by decide
  exact this ⟨k, h⟩

theorem regIndex_injective {r r' : Reg} (h : regIndex r = regIndex r') : r = r' := by
  rw [← regOf_regIndex r, h, regOf_regIndex]

@[simp] theorem pioOf_val (p : PioId) : pioOf p.val = some p := by
  simp only [pioOf, dif_pos p.isLt]

@[simp] theorem smOf_val (n : SmId) : smOf n.val = some n := by
  simp only [smOf, dif_pos n.isLt]

theorem pioOf_none {p : Nat} (h : 2 ≤ p) : pioOf p = none := by
  simp only [pioOf, dif_neg (Nat.not_lt.mpr h)]

theorem smOf_none {n : Nat} (h : 4 ≤ n) : smOf n = none := by
  simp only [smOf, dif_neg (Nat.not_lt.mpr h)]

/-! ## Descriptors -/

@[simp] theorem offending_eq_nil (ok : Bool) (v : Int) : offending ok v = [] ↔ ok = true := by
  cases ok <;> simp [offending]

/-- A descriptor passes the checks exactly when it has no offending value (R260, R401). -/
theorem descInfo_eq_nil (d : Desc) : descInfo d = [] ↔ descOk d = true := by
  simp only [descInfo, descOk, List.append_eq_nil_iff, offending_eq_nil, List.flatMap_eq_nil_iff, Bool.and_eq_true,
    List.all_eq_true, and_assoc]

@[simp] theorem mem_offending (ok : Bool) (v x : Int) : x ∈ offending ok v ↔ ok = false ∧ x = v := by
  cases ok <;> simp [offending]

/-- The offending values are exactly the values that fail a check of R260. -/
theorem mem_descInfo (d : Desc) (v : Int) : v ∈ descInfo d ↔
    (d.id = some [] ∧ v = 0) ∨ ((d.origin < -1 ∨ 31 < d.origin) ∧ v = d.origin) ∨ (31 < d.wrap ∧ v = d.wrap) ∨
    (31 < d.wrapTarget ∧ v = d.wrapTarget) ∨
    ((if d.sideSetOpt then 4 else 5) < d.sideSetCount ∧ v = d.sideSetCount) ∨
    ((d.instrs.length < 1 ∨ 32 < d.instrs.length) ∧ v = d.instrs.length) ∨
    (∃ w ∈ d.instrs, 0xFFFF < w ∧ v = w) := by
  simp only [descInfo, List.mem_append, mem_offending, List.mem_flatMap, Bool.and_eq_false_iff, decide_eq_false_iff_not,
    not_le, ne_eq, not_not, or_assoc]

/-! ## Hits -/

theorem Hits.setPio {s : State} {addr : Word} {p : PioId} {r : Reg} {a : BitVec 2} (h : Hits s addr p r a) (q : PioId)
    (x : Pio) : Hits (s.setPio q x) addr p r a := by
  simpa [Hits] using h

/-- Resolution reads only the address and the parameters. -/
theorem resolve_congr {s t : State} (h : t.params = s.params) (addr : Word) : t.resolve addr = s.resolve addr := by
  simp [State.resolve, h]

theorem Hits.congr {s t : State} {addr : Word} {p : PioId} {r : Reg} {a : BitVec 2} (h : Hits s addr p r a)
    (ht : t.params = s.params) : Hits t addr p r a := by
  unfold Hits
  rw [resolve_congr ht]
  exact h

theorem aligned_iff (addr : Word) : aligned addr = true ↔ addr.extractLsb' 0 2 = 0#2 := by
  simp [aligned]

/-- The scan skips the blocks that do not cover the address. -/
theorem resolveIn_append (addr : Word) (before after : List Block)
    (h : ∀ c ∈ before, ¬ regIndexAt addr (blockBase c) < blockSize c) :
    resolveIn addr (before ++ after) = resolveIn addr after := by
  induction before with
  | nil => rfl
  | cons b bs ih =>
    rw [List.cons_append, resolveIn, if_neg (h b List.mem_cons_self), ih fun c hc => h c (List.mem_cons_of_mem _ hc)]

theorem resolveIn_unmapped (addr : Word) (bs : List Block) (h : ∀ c ∈ bs, ¬ regIndexAt addr (blockBase c) < blockSize c) :
    resolveIn addr bs = .unmapped := by
  simpa [resolveIn] using resolveIn_append addr bs [] h

/-- The scan answers a hit exactly when some block covers the address. -/
theorem resolveIn_hit_iff (addr : Word) (bs : List Block) :
    (∃ b r a, resolveIn addr bs = .hit b r a) ↔ ∃ b ∈ bs, regIndexAt addr (blockBase b) < blockSize b := by
  induction bs with
  | nil => simp [resolveIn]
  | cons b bs ih =>
    rw [resolveIn]
    split
    · next h => exact ⟨fun _ => ⟨b, List.mem_cons_self, h⟩, fun _ => ⟨_, _, _, rfl⟩⟩
    · next h => rw [ih]; simp [h]

/-- With BLOCKS = [PIO0, PIO1] (R140), register r of PIO p answers in all four alias windows (R82). -/
theorem hits_window (s : State) (p : PioId) (r : Reg) (a : BitVec 2) (h : s.params.blocks = [.csr 0, .csr 1]) :
    Hits s (pioBase p + 0x1000#32 * a.setWidth 32 + 4#32 * BitVec.ofNat 32 (regIndex r)) p r a := by
  have key : ∀ (p : PioId) (k : Fin 81) (a : BitVec 2),
      (let addr := pioBase p + 0x1000#32 * a.setWidth 32 + 4#32 * BitVec.ofNat 32 k.val
       aligned addr && (resolveIn addr [.csr 0, .csr 1] == .hit (.csr p) k.val a)) = true := by decide +kernel
  have := key p ⟨regIndex r, regIndex_lt r⟩ a
  simp only [Bool.and_eq_true, beq_iff_eq] at this
  simp only [Hits, State.resolve, h, this.1, this.2, if_true]

/-- The alias-0 address of a register hits it (43_control, notation). -/
theorem hits_regAddr (s : State) (p : PioId) (r : Reg) (h : s.params.blocks = [.csr 0, .csr 1]) :
    Hits s (regAddr p r) p r 0#2 := by
  have := hits_window s p r 0#2 h
  have e : pioBase p + 0x1000#32 * (0#2).setWidth 32 + 4#32 * BitVec.ofNat 32 (regIndex r) = regAddr p r := by
    rw [regAddr, BitVec.ofNat_mul]
    simp
  rwa [e] at this

end Sys2Proof.Machine
end

