-- ==== Sys2Proof/Laws/Transfer.lean ====
section
/-! SUPPORT. Sys2Proof/Laws/Transfer.lean: what READ, the WRITE forms, WRITEM, PROVIDES and LABEL answer at an address that
hits a register, an opaque block, or nothing (40_dispatch R144 to R152). -/

namespace Sys2Proof.Machine

open Sys2Proof

/-- READ of a register: its value and its one side effect are those of `pioRead`. -/
theorem exec_read_hit {s : State} {addr : Word} {p : PioId} {r : Reg} {a : BitVec 2} (h : Hits s addr p r a) :
    exec (.read addr) s = .next (((pioRead s p r).2.emit (.rd addr (pioRead s p r).1)).deliver
      (.word (pioRead s p r).1)) := by
  unfold Hits at h
  simp only [exec, execRead, busRead, h, endRead, regOf_regIndex]

theorem busRead_hit {s : State} {addr : Word} {p : PioId} {r : Reg} {a : BitVec 2} (h : Hits s addr p r a) :
    busRead s addr = (.ok (pioRead s p r).1, (pioRead s p r).2.emit (.rd addr (pioRead s p r).1)) := by
  unfold Hits at h
  simp only [busRead, h, regOf_regIndex]

theorem pioRead_plain {s : State} {p : PioId} {r : Reg} (h : plainRead r = true) : pioRead s p r = (pioView s p r, s) := by
  cases r <;> first | rfl | simp [plainRead] at h

/-- Every WRITE form is the plain WRITE: the address carries the alias code. -/
theorem exec_writeForm (code : BitVec 2) (addr v : Word) (s : State) :
    exec (writeForm code addr v) s = .next (busWrite s addr v) := by
  unfold writeForm
  split
  · rfl
  split
  · rfl
  split <;> rfl

/-- The end of a write to a register. -/
theorem blockWrite_ok {s u : State} {addr : Word} {p : PioId} {r : Reg} {t : Triple}
    (h : pioWrite s p r t.bits t.mask t.xor = .ok u) :
    blockWrite s addr (.csr p) (regIndex r) t = (u.emit (.wr addr t.bits t.mask t.xor)).deliver .unit := by
  simp only [blockWrite, regOf_regIndex, h]

theorem blockWrite_refused {s : State} {addr : Word} {p : PioId} {r : Reg} {t : Triple} {e : RefuseReason}
    (h : pioWrite s p r t.bits t.mask t.xor = .error e) : blockWrite s addr (.csr p) (regIndex r) t = s.refuse e := by
  simp only [blockWrite, regOf_regIndex, h]

/-- A WRITE of the form its address selects. -/
theorem exec_writeForm_hit {s : State} {addr v : Word} {p : PioId} {r : Reg} {a : BitVec 2} (h : Hits s addr p r a) :
    exec (writeForm a addr v) s = .next (blockWrite s addr (.csr p) (regIndex r) (aliasTriple a v)) := by
  unfold Hits at h
  rw [exec_writeForm]
  simp only [busWrite, h]

/-- WRITEM of a register at its alias-0 address. -/
theorem exec_writem_hit {s : State} {addr bits mask : Word} {xor : Bool} {p : PioId} {r : Reg}
    (h : Hits s addr p r 0#2) :
    exec (.writem addr bits mask xor) s = .next (blockWrite s addr (.csr p) (regIndex r) ⟨bits, mask, xor⟩) := by
  unfold Hits at h
  simp only [exec, execWritem, busWriteM, h, if_true]

/-- The event of a WRITE form is that of its triple. -/
theorem aliasEvent_triple (a : BitVec 2) (addr v : Word) :
    aliasEvent a addr v = .wr addr (aliasTriple a v).bits (aliasTriple a v).mask (aliasTriple a v).xor := by
  unfold aliasEvent aliasTriple
  split
  · rfl
  split
  · rfl
  split <;> rfl

/-- The new value of a WRITE form is the effect of its alias code (R102, R182). -/
theorem writtenValue_aliasTriple (a : BitVec 2) (old v : Word) :
    writtenValue old (aliasTriple a v).bits (aliasTriple a v).mask (aliasTriple a v).xor = aliasEffect a old v := by
  unfold aliasTriple aliasEffect
  split
  · exact writtenValue_plain ..
  split
  · exact writtenValue_xor ..
  split
  · exact writtenValue_set ..
  · exact writtenValue_clr ..

/-- The new value of a WRITEM is the formula of R151. -/
theorem writtenValue_maskedValue (old bits mask : Word) (xor : Bool) :
    writtenValue old bits mask xor = maskedValue old bits mask xor := by
  rw [writtenValue_formula, maskedValue]
  cases xor <;> rfl

/-- The written data of a plain WRITE or WRITE.SET is the value; of WRITE.CLR nothing (R102, R184). -/
theorem writtenData_aliasTriple (a : BitVec 2) (old v : Word) :
    writtenData old (aliasTriple a v).bits (aliasTriple a v).mask (aliasTriple a v).xor =
      if a = 0#2 ∨ a = 2#2 then v else if a = 1#2 then ~~~old &&& v else 0#32 := by
  unfold aliasTriple
  split
  · next h => subst h; exact writtenData_plain ..
  split
  · next h => subst h; exact writtenData_xor ..
  split
  · next h => subst h; exact writtenData_set ..
  · next h0 _ h2 => simp only [h0, h2, or_false, if_false]; exact writtenData_clr ..

/-! ## Write transactions of any form -/

/-- Every write transaction is `blockWrite` with its triple. -/
theorem exec_writes {i : Instr} {s : State} {addr bits mask : Word} {xor : Bool} {p : PioId} {r : Reg}
    (h : Writes i s addr p r bits mask xor) : exec i s = .next (blockWrite s addr (.csr p) (regIndex r) ⟨bits, mask, xor⟩) := by
  rcases h with ⟨rfl, h⟩ | ⟨rfl, h, rfl, rfl⟩ | ⟨rfl, h, rfl, rfl⟩ | ⟨rfl, h, rfl, rfl⟩ | ⟨rfl, h, rfl, rfl⟩
  · exact exec_writem_hit h
  · exact exec_writeForm_hit (a := 0#2) h
  · exact exec_writeForm_hit (a := 1#2) h
  · exact exec_writeForm_hit (a := 2#2) h
  · exact exec_writeForm_hit (a := 3#2) h

/-- Every write transaction ends with what `applyWrite` makes of the new value and the written data (R182). -/
theorem exec_writes_ok {i : Instr} {s u : State} {addr bits mask : Word} {xor : Bool} {p : PioId} {r : Reg}
    (h : Writes i s addr p r bits mask xor)
    (hu : applyWrite s p r (maskedValue (pioView s p r) bits mask xor) (maskedData (pioView s p r) bits mask xor) =
      .ok u) :
    exec i s = .next ((u.emit (.wr addr bits mask xor)).deliver .unit) := by
  rw [exec_writes h, blockWrite_ok]
  rw [pioWrite, writtenValue_maskedValue]
  exact hu

/-- Every write transaction that the register refuses. -/
theorem exec_writes_refused {i : Instr} {s : State} {addr bits mask : Word} {xor : Bool} {p : PioId} {r : Reg}
    {e : RefuseReason} (h : Writes i s addr p r bits mask xor)
    (hu : applyWrite s p r (maskedValue (pioView s p r) bits mask xor) (maskedData (pioView s p r) bits mask xor) =
      .error e) :
    exec i s = .next (s.refuse e) := by
  rw [exec_writes h, blockWrite_refused]
  rw [pioWrite, writtenValue_maskedValue]
  exact hu

/-- A plain WRITE of v to an alias-0 address is a write transaction with new value and data v. -/
theorem exec_writeRw_ok {s u : State} {addr v : Word} {p : PioId} {r : Reg} (h : Hits s addr p r 0#2)
    (hu : applyWrite s p r v v = .ok u) :
    exec (.writeRw addr v) s = .next ((u.emit (.wr addr v 0xFFFFFFFF#32 false)).deliver .unit) := by
  refine exec_writes_ok (.inr (.inl ⟨rfl, h, rfl, rfl⟩)) ?_
  rw [← writtenValue_maskedValue, writtenValue_plain]
  have : maskedData (pioView s p r) v 0xFFFFFFFF#32 false = v := writtenData_plain (pioView s p r) v
  rw [this]
  exact hu

/-- A WRITE of the form its address selects is a write transaction with the effect of its alias code (R102). -/
theorem exec_writeForm_ok {s u : State} {addr v : Word} {p : PioId} {r : Reg} {a : BitVec 2} (h : Hits s addr p r a)
    (hu : applyWrite s p r (aliasEffect a (pioView s p r) v)
      (if a = 0#2 ∨ a = 2#2 then v else if a = 1#2 then ~~~(pioView s p r) &&& v else 0#32) = .ok u) :
    exec (writeForm a addr v) s = .next ((u.emit (aliasEvent a addr v)).deliver .unit) := by
  rw [exec_writeForm_hit h, blockWrite_ok, aliasEvent_triple]
  rw [pioWrite, writtenValue_aliasTriple, writtenData_aliasTriple, hu]

end Sys2Proof.Machine
end

