-- ==== Sys2Proof/Laws/Csr.lean ====
section
/-! SUPPORT. Sys2Proof/Laws/Csr.lean: states that differ from s in one PIO and in the history, `s.put p x h`, and what the
named operations of the block make of them (41_csr R182, R186, R205; 42_allocator R282). -/

namespace Sys2Proof.Machine

open Sys2Proof

/-- s with x as its PIO p and h as its history. -/
def State.put (s : State) (p : PioId) (x : Pio) (h : List Event) : State := { s.setPio p x with history := h }

theorem State.put_self (s : State) (p : PioId) : s.put p (s.pio p) s.history = s := by
  match p with
  | 0 => rfl
  | 1 => rfl

@[simp] theorem State.pio_put (s : State) (p : PioId) (x : Pio) (h : List Event) : (s.put p x h).pio p = x := by
  match p with
  | 0 => rfl
  | 1 => rfl

@[simp] theorem State.sm_put (s : State) (p : PioId) (x : Pio) (h : List Event) (n : SmId) :
    (s.put p x h).sm p n = x.sm n := by
  simp [State.sm]

@[simp] theorem State.history_put (s : State) (p : PioId) (x : Pio) (h : List Event) : (s.put p x h).history = h := rfl

@[simp] theorem State.put_modPio (s : State) (p : PioId) (x : Pio) (h : List Event) (f : Pio → Pio) :
    (s.put p x h).modPio p f = s.put p (f x) h := by
  match p with
  | 0 => rfl
  | 1 => rfl

@[simp] theorem State.put_modSm (s : State) (p : PioId) (x : Pio) (h : List Event) (n : SmId) (f : Sm → Sm) :
    (s.put p x h).modSm p n f = s.put p (x.setSm n (f (x.sm n))) h := by
  match p with
  | 0 => rfl
  | 1 => rfl

@[simp] theorem State.put_emit (s : State) (p : PioId) (x : Pio) (h : List Event) (e : Event) :
    (s.put p x h).emit e = s.put p x (h ++ [e]) := rfl

/-- A delivered state, written as the update of one PIO and the history that it is. -/
theorem State.put_deliver (s : State) (p : PioId) (x : Pio) (h : List Event) (r : Result) :
    (s.put p x h).deliver r = { (s.setPio p x).deliver r with history := h } := by
  match p with
  | 0 => rfl
  | 1 => rfl

/-! ## Restarts (R186, R205) -/

/-- A PIO after restart of state machine n, if its strobe bit is set. -/
def Pio.restarted (x : Pio) (b : BitVec 4) (n : SmId) : Pio :=
  if b.getLsbD n.val then x.setSm n { x.sm n with pending := none, execStalled := false } else x

theorem State.put_restartIf (s : State) (p : PioId) (x : Pio) (h : List Event) (b : BitVec 4) (n : SmId) :
    restartIf (s.put p x h) p b n =
      s.put p (x.restarted b n) (h ++ if b.getLsbD n.val then [.smRestart p (oneHot n)] else []) := by
  unfold restartIf Pio.restarted
  split
  · simp only [restartSm, State.put_modSm, State.put_emit]
  · rw [List.append_nil]

theorem State.put_clkdivRestart (s : State) (p : PioId) (x : Pio) (h : List Event) (b : BitVec 4) :
    clkdivRestart (s.put p x h) p b = s.put p x (h ++ if b = 0#4 then [] else [.clkdivRestart p b]) := by
  unfold clkdivRestart
  split
  · rw [List.append_nil]
  · rfl

theorem Pio.sm_restarted (x : Pio) (b : BitVec 4) (n k : SmId) :
    (x.restarted b n).sm k =
      if k = n ∧ b.getLsbD n.val = true then { x.sm n with pending := none, execStalled := false } else x.sm k := by
  unfold Pio.restarted
  by_cases hb : b.getLsbD n.val = true
  · rw [if_pos hb]
    by_cases hk : k = n
    · subst hk
      rw [Pio.sm_setSm_same, if_pos ⟨rfl, hb⟩]
    · rw [Pio.sm_setSm_ne _ _ hk, if_neg (fun h => hk h.1)]
  · rw [if_neg hb, if_neg (fun h => hb h.2)]

/-- A CTRL write: SM_ENABLE, then the four restarts in order, then the clock-divider strobe. -/
theorem writeCtrl_eq (s : State) (p : PioId) (new d : Word) :
    writeCtrl s p new d =
      s.put p
        (((({ s.pio p with smEnable := new.extractLsb' 0 4 }.restarted (d.extractLsb' 4 4) 0).restarted
          (d.extractLsb' 4 4) 1).restarted (d.extractLsb' 4 4) 2).restarted (d.extractLsb' 4 4) 3)
        (s.history ++ (if (d.extractLsb' 4 4).getLsbD 0 then [.smRestart p (oneHot 0)] else []) ++
          (if (d.extractLsb' 4 4).getLsbD 1 then [.smRestart p (oneHot 1)] else []) ++
          (if (d.extractLsb' 4 4).getLsbD 2 then [.smRestart p (oneHot 2)] else []) ++
          (if (d.extractLsb' 4 4).getLsbD 3 then [.smRestart p (oneHot 3)] else []) ++
          (if d.extractLsb' 8 4 = 0#4 then [] else [.clkdivRestart p (d.extractLsb' 8 4)])) := by
  have h0 : (s.modPio p fun x => { x with smEnable := new.extractLsb' 0 4 }) =
      s.put p { s.pio p with smEnable := new.extractLsb' 0 4 } s.history := by
    match p with
    | 0 => rfl
    | 1 => rfl
  unfold writeCtrl
  dsimp only
  rw [h0, State.put_restartIf, State.put_restartIf, State.put_restartIf, State.put_restartIf, State.put_clkdivRestart]
  rfl

/-! ## SHIFTCTRL (R200, R201) -/

theorem writeShiftctrl_same {s : State} {p : PioId} {n : SmId} {new : Word}
    (hb : ¬ (new.getLsbD 31 = true ∧ new.getLsbD 30 = true))
    (h : new.getLsbD 31 = (s.sm p n).shiftctrl.getLsbD 31 ∧ new.getLsbD 30 = (s.sm p n).shiftctrl.getLsbD 30) :
    writeShiftctrl s p n new = .ok (s.modSm p n fun m => { m with shiftctrl := new &&& 0xFFFF0000#32 }) := by
  unfold writeShiftctrl
  rw [if_neg (by simpa using hb), if_pos (by exact h)]
  rfl

theorem writeShiftctrl_flush {s : State} {p : PioId} {n : SmId} {new : Word}
    (hb : ¬ (new.getLsbD 31 = true ∧ new.getLsbD 30 = true))
    (h : ¬ (new.getLsbD 31 = (s.sm p n).shiftctrl.getLsbD 31 ∧ new.getLsbD 30 = (s.sm p n).shiftctrl.getLsbD 30)) :
    writeShiftctrl s p n new =
      .ok ((s.modSm p n fun m => { m with shiftctrl := new &&& 0xFFFF0000#32, tx := [], rx := [] }).emit
        (.flush p n)) := by
  unfold writeShiftctrl
  rw [if_neg (by simpa using hb), if_neg (by exact h)]
  rfl

/-! ## Placement (R282) -/

/-- A PIO after `place` from instruction i on. -/
def Pio.placed (off : Nat) : Nat → List Nat → Pio → Pio
  | _, [], x => x
  | i, w :: ws, x => Pio.placed off (i + 1) ws (x.setWord (slotOf off i) (BitVec.ofNat 16 w))

/-- The `Wr` events of `place` from instruction i on. -/
def placeEvents (p : PioId) (off : Nat) : Nat → List Nat → List Event
  | _, [] => []
  | i, w :: ws =>
    .wr (regAddr p (.instrMem (slotOf off i))) (BitVec.ofNat 32 w) 0xFFFFFFFF#32 false :: placeEvents p off (i + 1) ws

theorem placeEvents_eq (p : PioId) (off i : Nat) (ws : List Nat) :
    placeEvents p off i ws = (List.range ws.length).map fun k =>
      .wr (regAddr p (.instrMem (slotOf off (i + k)))) (BitVec.ofNat 32 (ws.getD k 0)) 0xFFFFFFFF#32 false := by
  induction ws generalizing i with
  | nil => rfl
  | cons w ws ih =>
    rw [placeEvents, ih, List.length_cons, List.range_succ_eq_map, List.map_cons, List.map_map]
    refine congrArg₂ List.cons rfl (List.map_congr_left fun k _ => ?_)
    simp only [Function.comp_apply, List.getD_cons_succ, Nat.succ_eq_add_one]
    rw [show i + 1 + k = i + (k + 1) by omega]

theorem storeWord_put (s : State) (p : PioId) (x : Pio) (h : List Event) (i : Fin 32) (v : Word) :
    storeWord (s.put p x h) p i v = s.put p (x.setWord i (v.setWidth 16)) h := by
  simp only [storeWord, pioWrite, writtenValue_plain, applyWrite, State.put_modPio]

/-- `place` changes the words of one PIO and appends one event a word. -/
theorem placeFrom_put (p : PioId) (off i : Nat) (ws : List Nat) (s : State) (x : Pio) (h : List Event) :
    placeFrom p off i ws (s.put p x h) = s.put p (x.placed off i ws) (h ++ placeEvents p off i ws) := by
  induction ws generalizing i x h with
  | nil => simp [placeFrom, Pio.placed, placeEvents]
  | cons w ws ih =>
    have hw : (BitVec.ofNat 32 w).setWidth 16 = BitVec.ofNat 16 w := by
      apply BitVec.eq_of_toNat_eq
      simp only [BitVec.toNat_setWidth, BitVec.toNat_ofNat]
      omega
    rw [placeFrom, placeWord, storeWord_put, State.put_emit, ih, hw]
    simp [Pio.placed, placeEvents]

/-- `place` touches the instruction memory alone. -/
theorem Pio.placed_eq (off i : Nat) (ws : List Nat) (x : Pio) :
    x.placed off i ws = { x with imem := (x.placed off i ws).imem } := by
  induction ws generalizing i x with
  | nil => rfl
  | cons w ws ih =>
    rw [Pio.placed, ih]
    rfl

/-- A slot outside those placed keeps its word. -/
theorem Pio.word_placed_other (off i : Nat) (ws : List Nat) (x : Pio) (j : Fin 32)
    (h : ∀ k < ws.length, j ≠ slotOf off (i + k)) : (x.placed off i ws).word j = x.word j := by
  induction ws generalizing i x with
  | nil => rfl
  | cons w ws ih =>
    rw [Pio.placed, ih]
    · rw [Pio.word_setWord, if_neg]
      exact h 0 (by simp)
    · intro k hk
      have := h (k + 1) (by simpa using hk)
      rwa [show i + 1 + k = i + (k + 1) by omega]

/-- Slot k of a placed program holds its instruction k, for at most 32 instructions. -/
theorem Pio.word_placed (off i : Nat) (ws : List Nat) (x : Pio) (k : Nat) (hk : k < ws.length) (hl : ws.length ≤ 32) :
    (x.placed off i ws).word (slotOf off (i + k)) = BitVec.ofNat 16 (ws.getD k 0) := by
  induction ws generalizing i x k with
  | nil => simp at hk
  | cons w ws ih =>
    rw [Pio.placed]
    cases k with
    | zero =>
      rw [Pio.word_placed_other]
      · rw [Pio.word_setWord, if_pos (by rfl)]
        rfl
      · intro m hm he
        have := congrArg Fin.val he
        simp only [slotOf, Fin.ofNat, List.length_cons] at this hl
        omega
    | succ k =>
      have := ih (i + 1) (x.setWord (slotOf off i) (BitVec.ofNat 16 w)) k (by simpa using hk)
        (by simp only [List.length_cons] at hl; omega)
      rw [show i + (k + 1) = i + 1 + k by omega, this]
      rfl

end Sys2Proof.Machine
end

