-- ==== Sys2Proof/Laws/Allocator.lean ====
section
/-! SUPPORT. Sys2Proof/Laws/Allocator.lean: the search of the allocator and the masks of a program (42_allocator R261,
R265, R266, R285). -/

namespace Sys2Proof.Machine

open Sys2Proof

/-- The search answers the least offset that fits. -/
theorem firstFit_least {occ amask : Word} {k : Nat} (hk : k < 32) (hfit : rotl32 amask k &&& occ = 0#32)
    (hleast : ∀ j < k, rotl32 amask j &&& occ ≠ 0#32) : firstFit occ amask = some k := by
  unfold firstFit
  rw [List.find?_range_eq_some]
  refine ⟨by simpa using hfit, List.mem_range.mpr hk, fun j hj => by simpa using hleast j hj⟩

/-- The search fails when no offset fits. -/
theorem firstFit_none {occ amask : Word} (h : ∀ j < 32, rotl32 amask j &&& occ ≠ 0#32) : firstFit occ amask = none := by
  unfold firstFit
  rw [List.find?_range_eq_none]
  simpa using h

/-- What the search answers fits. -/
theorem firstFit_fits {occ amask : Word} {k : Nat} (h : firstFit occ amask = some k) :
    k < 32 ∧ rotl32 amask k &&& occ = 0#32 := by
  unfold firstFit at h
  rw [List.find?_range_eq_some] at h
  exact ⟨List.mem_range.mp h.2.1, by simpa using h.1⟩

@[simp] theorem rotl32_zero (a : Word) : rotl32 a 0 = a := by
  have : a >>> 32 = 0#32 := by
    apply BitVec.eq_of_toNat_eq
    have := a.isLt
    simp only [BitVec.toNat_ushiftRight, BitVec.toNat_ofNat, Nat.shiftRight_eq_div_pow]
    omega
  simp [rotl32, this]

/-- A program's mask is never empty. -/
theorem placedMask_ne_zero {n k : Nat} (h1 : 1 ≤ n) (h2 : n ≤ 32) (hk : k < 32) : placedMask n k ≠ 0#32 := by
  have key : ∀ n : Fin 33, 1 ≤ n.val → ∀ j : Fin 32, rotl32 (lowmask n.val) j.val ≠ 0#32 := by decide +kernel
  exact key ⟨n, by omega⟩ h1 ⟨k, hk⟩

/-- Freeing what was taken gives back the occupancy there was. -/
theorem free_taken {occ m : Word} (h : m &&& occ = 0#32) : (occ ||| m) &&& ~~~m = occ := by
  apply BitVec.eq_of_getLsbD_eq
  intro i hi
  have hb : (m &&& occ).getLsbD i = false := by rw [h]; simp
  simp only [BitVec.getLsbD_and, BitVec.getLsbD_or, BitVec.getLsbD_not, decide_eq_true hi, Bool.true_and] at hb ⊢
  revert hb
  cases m.getLsbD i <;> cases occ.getLsbD i <;> simp

/-- What is taken is occupied. -/
theorem taken_occupied (occ m : Word) : m &&& ~~~(occ ||| m) = 0#32 := by
  apply BitVec.eq_of_getLsbD_eq
  intro i hi
  simp only [BitVec.getLsbD_and, BitVec.getLsbD_or, BitVec.getLsbD_not, decide_eq_true hi, Bool.true_and]
  cases m.getLsbD i <;> cases occ.getLsbD i <;> simp

theorem State.modPio_eq_put (s : State) (p : PioId) (f : Pio → Pio) : s.modPio p f = s.put p (f (s.pio p)) s.history := by
  match p with
  | 0 => rfl
  | 1 => rfl

end Sys2Proof.Machine
end

