-- ==== Sys2Proof/Laws/Codec.lean ====
section
/-! SUPPORT. Sys2Proof/Laws/Codec.lean: the readers of a record undo its writers, and what they read fits its field:
one lemma each for each kind of operand (30_encoding R103, R106; the byte order of R86). -/

namespace Sys2Proof

theorem takeNat_leBytes (k v : Nat) (rest : List Byte) (h : v < 256 ^ k) :
    takeNat k (leBytes k v ++ rest) = .ok (v, rest) := by
  induction k generalizing v with
  | zero =>
    have : v = 0 := by simpa using h
    subst this
    rfl
  | succ k ih =>
    have hd : v / 256 < 256 ^ k := Nat.div_lt_of_lt_mul (by rw [Nat.pow_succ] at h; omega)
    simp only [leBytes, List.cons_append, takeNat, ih _ hd, BitVec.toNat_ofNat]
    simp only [Except.ok.injEq, Prod.mk.injEq, and_true]
    omega

theorem takeWord_leWord (w : Word) (rest : List Byte) : takeWord (leWord w ++ rest) = .ok (w, rest) := by
  have h : w.toNat < 256 ^ 4 := by have := w.isLt; omega
  simp only [takeWord, leWord, takeNat_leBytes _ _ _ h, bind, Except.bind, pure, Except.pure, BitVec.ofNat_toNat,
    BitVec.setWidth_eq]

theorem takeNat4_leBytes (v : Nat) (rest : List Byte) (h : fitsWord v = true) :
    takeNat 4 (leBytes 4 v ++ rest) = .ok (v, rest) :=
  takeNat_leBytes _ _ _ (by simpa [fitsWord] using h)

theorem takeVar_leVarFrom (fuel v : Nat) (rest : List Byte) (h : v < 128 * 2 ^ fuel) :
    takeVar (leVarFrom fuel v ++ rest) = .ok (v, rest) := by
  induction fuel generalizing v with
  | zero =>
    have e : (BitVec.ofNat 8 v).toNat = v := by rw [BitVec.toNat_ofNat]; omega
    simp only [leVarFrom, List.cons_append, List.nil_append, takeVar, e]
    rw [if_pos (by omega)]
  | succ fuel ih =>
    by_cases hv : v < 128
    · have e : (BitVec.ofNat 8 v).toNat = v := by rw [BitVec.toNat_ofNat]; omega
      simp only [leVarFrom, if_pos hv, List.cons_append, List.nil_append, takeVar, e]
    · have e : (BitVec.ofNat 8 (v % 128 + 128)).toNat = v % 128 + 128 := by rw [BitVec.toNat_ofNat]; omega
      have hd : v / 128 < 128 * 2 ^ fuel := by rw [Nat.pow_succ] at h; omega
      simp only [leVarFrom, if_neg hv, List.cons_append, takeVar, e, ih _ hd]
      rw [if_neg (by omega), show v % 128 + 128 - 128 + 128 * (v / 128) = v by omega]

theorem takeVar_leVar (v : Nat) (rest : List Byte) : takeVar (leVar v ++ rest) = .ok (v, rest) := by
  have h : v < 2 ^ (Nat.log2 v + 1) := Nat.lt_log2_self
  exact takeVar_leVarFrom _ _ _ (by rw [Nat.pow_succ] at h; omega)

theorem takeInt_leInt (v : Int) (rest : List Byte) (h : fitsInt v = true) : takeInt (leInt v ++ rest) = .ok (v, rest) := by
  simp only [fitsInt, Bool.and_eq_true, decide_eq_true_eq] at h
  have hlt : (v % 2 ^ 32).toNat < 256 ^ 4 := by omega
  have hv : intOfNat32 (v % 2 ^ 32).toNat = v := by
    unfold intOfNat32
    split <;> omega
  simp only [takeInt, leInt, takeNat_leBytes _ _ _ hlt, bind, Except.bind, pure, Except.pure, hv]

theorem takeFlag_leFlag (b : Bool) (rest : List Byte) : takeFlag (leFlag b ++ rest) = .ok (b, rest) := by
  cases b <;> rfl

theorem takeBytes_append (text rest : List Byte) : takeBytes text.length (text ++ rest) = .ok (text, rest) := by
  induction text with
  | nil => rfl
  | cons b text ih => simp only [List.length_cons, List.cons_append, takeBytes, ih]

theorem takeNats_flatMap (vs : List Nat) (rest : List Byte) (h : vs.all fitsWord = true) :
    takeNats vs.length (vs.flatMap (leBytes 4) ++ rest) = .ok (vs, rest) := by
  induction vs with
  | nil => rfl
  | cons v vs ih =>
    simp only [List.all_cons, Bool.and_eq_true] at h
    simp only [List.length_cons, List.flatMap_cons, List.append_assoc, takeNats, takeNat4_leBytes _ _ h.1, ih h.2]

theorem takeId_leId (id : Option (List Byte)) (rest : List Byte) (h : idFits id = true) :
    takeId (leId id ++ rest) = .ok (id, rest) := by
  cases id with
  | none => rfl
  | some text =>
    simp only [idFits, decide_eq_true_eq] at h
    have h2 : text.length ≠ 0 := by omega
    simp only [takeId, leId, List.append_assoc, takeVar_leVar, bind, Except.bind, if_neg h2, takeBytes_append, pure, Except.pure]

theorem takeDesc_leDesc (d : Desc) (rest : List Byte) (h : d.wellFormed = true) :
    takeDesc (leDesc d ++ rest) = .ok (d, rest) := by
  simp only [Desc.wellFormed, Bool.and_eq_true] at h
  obtain ⟨⟨⟨⟨⟨hid, ho⟩, hw⟩, ht⟩, hc⟩, hi⟩ := h
  simp only [takeDesc, leDesc, List.append_assoc, takeId_leId _ _ hid, takeInt_leInt _ _ ho, takeNat4_leBytes _ _ hw,
    takeNat4_leBytes _ _ ht, takeNat4_leBytes _ _ hc, takeFlag_leFlag, takeVar_leVar,
    takeNats_flatMap _ _ hi, bind, Except.bind, pure, Except.pure]

/-! ## What a reader reads fits its field -/

theorem takeNat_lt {k : Nat} {bs rest : List Byte} {v : Nat} (h : takeNat k bs = .ok (v, rest)) : v < 256 ^ k := by
  induction k generalizing bs v with
  | zero => cases h; simp
  | succ k ih =>
    cases bs with
    | nil => cases h
    | cons b bs =>
      simp only [takeNat] at h
      split at h
      · next w r hw =>
        cases h
        have := ih hw
        have := b.isLt
        rw [Nat.pow_succ]
        omega
      · cases h

theorem takeNat4_fits {bs rest : List Byte} {v : Nat} (h : takeNat 4 bs = .ok (v, rest)) : fitsWord v = true := by
  simpa [fitsWord] using takeNat_lt h

theorem takeInt_fits {bs rest : List Byte} {v : Int} (h : takeInt bs = .ok (v, rest)) : fitsInt v = true := by
  unfold takeInt at h
  cases hn : takeNat 4 bs with
  | error e => rw [hn] at h; cases h
  | ok x =>
    have := takeNat_lt (v := x.1) (rest := x.2) hn
    rw [hn] at h
    cases h
    have hd : -(2 ^ 31 : Int) ≤ intOfNat32 x.1 ∧ intOfNat32 x.1 < 2 ^ 31 := by
      unfold intOfNat32
      split <;> omega
    simp only [fitsInt, Bool.and_eq_true, decide_eq_true_eq]
    exact hd

theorem takeBytes_length {k : Nat} {bs text rest : List Byte} (h : takeBytes k bs = .ok (text, rest)) :
    text.length = k := by
  induction k generalizing bs text with
  | zero => cases h; rfl
  | succ k ih =>
    cases bs with
    | nil => cases h
    | cons b bs =>
      simp only [takeBytes] at h
      split at h
      · next w r hw =>
        cases h
        simp [ih hw]
      · cases h

theorem takeNats_fits {k : Nat} {bs rest : List Byte} {vs : List Nat} (h : takeNats k bs = .ok (vs, rest)) :
    vs.length = k ∧ vs.all fitsWord = true := by
  induction k generalizing bs vs with
  | zero => cases h; exact ⟨rfl, rfl⟩
  | succ k ih =>
    simp only [takeNats] at h
    split at h
    · cases h
    · next v r hv =>
      split at h
      · next ws r' hw =>
        cases h
        simp [ih hw, takeNat4_fits hv]
      · cases h

theorem takeId_fits {bs rest : List Byte} {id : Option (List Byte)} (h : takeId bs = .ok (id, rest)) :
    idFits id = true := by
  unfold takeId at h
  cases hn : takeVar bs with
  | error e => rw [hn] at h; cases h
  | ok x =>
    rw [hn] at h
    simp only [bind, Except.bind, pure, Except.pure] at h
    split at h
    · cases h; rfl
    · next hk =>
      split at h
      · cases h
      · next y hy =>
        cases h
        have := takeBytes_length (text := y.1) (rest := y.2) hy
        simp only [idFits, decide_eq_true_eq]
        omega

theorem takeDesc_wellFormed {bs rest : List Byte} {d : Desc} (h : takeDesc bs = .ok (d, rest)) : d.wellFormed = true := by
  simp only [takeDesc, bind, Except.bind, pure, Except.pure] at h
  repeat' (split at h; · cases h)
  next a1 h1 _ a2 h2 _ a3 h3 _ a4 h4 _ a5 h5 _ a6 h6 _ a7 h7 _ a8 h8 _ a9 h9 =>
  cases h
  have hn := takeNats_fits (vs := a9.1) (rest := a9.2) h9
  simp only [Desc.wellFormed, takeId_fits (id := a1.1) (rest := a1.2) h1, takeInt_fits (v := a2.1) (rest := a2.2) h2,
    takeNat4_fits (v := a3.1) (rest := a3.2) h3, takeNat4_fits (v := a4.1) (rest := a4.2) h4,
    takeNat4_fits (v := a5.1) (rest := a5.2) h5, hn.2, Bool.and_true]

end Sys2Proof
end

