-- ==== Sys2Proof/Laws/Flags.lean ====
section
/-! SUPPORT. Sys2Proof/Laws/Flags.lean: each bit of the computed status words, and WAIT's poll at a register
(10_state R33 to R35, 41_csr R192 to R195, R220, 40_dispatch R160). -/

namespace Sys2Proof.Machine

open Sys2Proof

/-- Each bit of a nibble made of one bit per state machine. -/
theorem getLsbD_smBits (f : Fin 4 → Bool) (i : Nat) :
    (smBits f).getLsbD i = if i < 4 then f (Fin.ofNat 4 i) else false := by
  split
  · next h =>
    have key : ∀ b3 b2 b1 b0 : Bool, ∀ i : Fin 4,
        (BitVec.ofBool b3 ++ BitVec.ofBool b2 ++ BitVec.ofBool b1 ++ BitVec.ofBool b0).getLsbD i.val =
          if i.val = 0 then b0 else if i.val = 1 then b1 else if i.val = 2 then b2 else b3 := by decide
    rw [smBits, key _ _ _ _ ⟨i, h⟩]
    have : i = 0 ∨ i = 1 ∨ i = 2 ∨ i = 3 := by omega
    rcases this with rfl | rfl | rfl | rfl <;> rfl
  · next h => exact BitVec.getLsbD_of_ge _ _ (by omega)

/-- Each bit of a word of four nibbles. -/
theorem getLsbD_fourNibbles (a b c d : BitVec 4) (i : Nat) :
    (fourNibbles a b c d).getLsbD i =
      if 24 ≤ i ∧ i < 28 then a.getLsbD (i - 24)
      else if 16 ≤ i ∧ i < 20 then b.getLsbD (i - 16)
      else if 8 ≤ i ∧ i < 12 then c.getLsbD (i - 8)
      else if i < 4 then d.getLsbD i
      else false := by
  by_cases h : i < 32
  · simp only [fourNibbles, BitVec.getLsbD_or, BitVec.getLsbD_shiftLeft, BitVec.getLsbD_setWidth]
    interval_cases i <;> simp
  · rw [BitVec.getLsbD_of_ge _ _ (by omega)]
    rw [if_neg (by omega), if_neg (by omega), if_neg (by omega), if_neg (by omega)]

/-- Clearing in every nibble the bits set in v clears in the word the bits set in v. -/
theorem fourNibbles_cleared (a b c d : BitVec 4) (v : Word) :
    fourNibbles (a &&& ~~~(v.extractLsb' 24 4)) (b &&& ~~~(v.extractLsb' 16 4)) (c &&& ~~~(v.extractLsb' 8 4))
      (d &&& ~~~(v.extractLsb' 0 4)) = fourNibbles a b c d &&& ~~~v := by
  apply BitVec.eq_of_getLsbD_eq
  intro i hi
  rw [BitVec.getLsbD_and, getLsbD_fourNibbles, getLsbD_fourNibbles, BitVec.getLsbD_not]
  simp only [BitVec.getLsbD_and, BitVec.getLsbD_not, BitVec.getLsbD_extractLsb']
  interval_cases i <;> simp

/-- Each bit of INTR. -/
theorem getLsbD_intr (x : Pio) (i : Nat) :
    x.intr.getLsbD i =
      if 8 ≤ i ∧ i < 12 then x.irq.getLsbD (i - 8)
      else if 4 ≤ i ∧ i < 8 then !(x.sm (Fin.ofNat 4 (i - 4))).txReadsFull
      else if i < 4 then !(x.sm (Fin.ofNat 4 i)).rxReadsEmpty
      else false := by
  simp only [Pio.intr, BitVec.getLsbD_append, getLsbD_smBits, BitVec.getLsbD_extractLsb']
  by_cases h0 : i < 4
  · rw [if_pos h0, if_pos h0, if_neg (by omega), if_neg (by omega)]
  by_cases h1 : i < 8
  · rw [if_neg h0, if_pos (by omega), if_pos (by omega), if_neg (by omega), if_pos (by omega)]
  by_cases h2 : i < 12
  · rw [if_neg h0, if_neg (by omega), if_pos (by omega), show i - 4 - 4 = i - 8 by omega]
    simp only [decide_eq_true (show i - 8 < 4 by omega), Bool.true_and, Nat.zero_add]
  · rw [if_neg h0, if_neg (by omega), if_neg (by omega), if_neg (by omega), if_neg (by omega)]
    simp only [decide_eq_false (show ¬ i - 4 - 4 < 4 by omega), Bool.false_and]

/-- Each bit of one state machine's levels at their place in FLEVEL. -/
theorem getLsbD_levelBits (x : Pio) (n : SmId) (j : Nat) (ht : (x.sm n).txLevel < 16) (hr : (x.sm n).rxLevel < 16)
    (hj : j < 32) :
    (levelBits x n).getLsbD j =
      if 8 * n.val ≤ j ∧ j < 8 * n.val + 4 then (x.sm n).txLevel.testBit (j - 8 * n.val)
      else if 8 * n.val + 4 ≤ j ∧ j < 8 * n.val + 8 then (x.sm n).rxLevel.testBit (j - (8 * n.val + 4))
      else false := by
  have hz : ∀ v k : Nat, v < 16 → 4 ≤ k → v.testBit k = false := fun v k hv hk =>
    Nat.testBit_lt_two_pow (lt_of_lt_of_le hv (Nat.pow_le_pow_right (by omega) hk : 2 ^ 4 ≤ 2 ^ k))
  simp only [levelBits, BitVec.getLsbD_or, BitVec.getLsbD_shiftLeft, BitVec.getLsbD_ofNat, decide_eq_true hj,
    Bool.true_and, decide_eq_true (show j - 8 * n.val < 32 by omega),
    decide_eq_true (show j - (8 * n.val + 4) < 32 by omega)]
  by_cases h0 : j < 8 * n.val
  · simp [h0, show j < 8 * n.val + 4 by omega, show ¬ 8 * n.val ≤ j by omega, show ¬ 8 * n.val + 4 ≤ j by omega]
  by_cases h1 : j < 8 * n.val + 4
  · simp [h0, h1, show 8 * n.val ≤ j by omega]
  by_cases h2 : j < 8 * n.val + 8
  · simp [h0, h1, h2, show 8 * n.val + 4 ≤ j by omega, hz _ _ ht (show 4 ≤ j - 8 * n.val by omega)]
  · simp [h0, h1, h2, hz _ _ ht (show 4 ≤ j - 8 * n.val by omega), hz _ _ hr (show 4 ≤ j - (8 * n.val + 4) by omega)]

/-- A level below 16 is read back from its nibble of FLEVEL. -/
theorem flevel_nibble (x : Pio) (h : ∀ n, (x.sm n).txLevel < 16 ∧ (x.sm n).rxLevel < 16) (n : SmId) :
    (x.flevel.extractLsb' (8 * n.val) 4).toNat = (x.sm n).txLevel ∧
      (x.flevel.extractLsb' (8 * n.val + 4) 4).toNat = (x.sm n).rxLevel := by
  have bits : ∀ j, j < 32 → x.flevel.getLsbD j =
      ((levelBits x 0).getLsbD j || (levelBits x 1).getLsbD j || (levelBits x 2).getLsbD j || (levelBits x 3).getLsbD j) := by
    intro j _
    simp [Pio.flevel]
  have hn := n.isLt
  constructor
  · have : x.flevel.extractLsb' (8 * n.val) 4 = BitVec.ofNat 4 (x.sm n).txLevel := by
      apply BitVec.eq_of_getLsbD_eq
      intro i hi
      rw [BitVec.getLsbD_extractLsb', bits _ (by omega)]
      simp only [getLsbD_levelBits x _ _ (h _).1 (h _).2 (show 8 * n.val + i < 32 by omega), BitVec.getLsbD_ofNat]
      match n with
      | 0 | 1 | 2 | 3 => interval_cases i <;> simp
    rw [this, BitVec.toNat_ofNat, Nat.mod_eq_of_lt (h n).1]
  · have : x.flevel.extractLsb' (8 * n.val + 4) 4 = BitVec.ofNat 4 (x.sm n).rxLevel := by
      apply BitVec.eq_of_getLsbD_eq
      intro i hi
      rw [BitVec.getLsbD_extractLsb', bits _ (by omega)]
      simp only [getLsbD_levelBits x _ _ (h _).1 (h _).2 (show 8 * n.val + 4 + i < 32 by omega), BitVec.getLsbD_ofNat]
      match n with
      | 0 | 1 | 2 | 3 => interval_cases i <;> simp
    rw [this, BitVec.toNat_ofNat, Nat.mod_eq_of_lt (h n).2]

/-- The poll's stop condition as a proposition (R160). -/
theorem waitOver_iff (w : WaitState) (v : Word) (s : State) :
    waitOver w v s = true ↔ v = w.expected ∨ timedOut w.startCyc w.stopCyc s.cycles = true ∨
      (w.ms ≠ 0 ∧ timedOut w.startMs w.stopMs s.millis = true) := by
  simp [waitOver, or_assoc]

/-- One poll of a register that neither pops nor draws. -/
theorem waitPoll_plain {w : WaitState} {s : State} {p : PioId} {r : Reg} {a : BitVec 2} (h : Hits s w.addr p r a)
    (hp : plainRead r = true) :
    waitPoll w s =
      if waitOver w (pioView s p r &&& w.mask) (s.emit (.rd w.addr (pioView s p r))) then
        (s.emit (.rd w.addr (pioView s p r))).finish (.word (pioView s p r &&& w.mask))
      else (s.emit (.rd w.addr (pioView s p r))).proceed (.waiting { w with mayPoll := false }) := by
  have hb := busRead_hit h
  rw [pioRead_plain hp] at hb
  unfold waitPoll
  rw [hb]

/-- No timeout has run out at the moment it starts (R162). -/
theorem timedOut_start (S T : Nat) : timedOut S T S = false := by
  unfold timedOut
  split
  · simp only [Bool.or_eq_false_iff, decide_eq_false_iff_not]
    omega
  · simp

end Sys2Proof.Machine
end

