-- ==== Sys2Proof/Laws/Work.lean ====
section
/-! SUPPORT. Sys2Proof/Laws/Work.lean: what one transaction can do, said once. `Works s u`: from s to u only the hardware,
the history and the count of draws moved, the history only grew, and a sound block stayed sound. `exec_cases`: every
transaction ends in one of five ways, each from such a state. -/

namespace Sys2Proof.Machine

open Sys2Proof

/-- Every state machine of the block is sound. -/
def State.SmsSound (s : State) : Prop := ∀ p n, (s.sm p n).Sound

/-- From s to u, only the hardware, the history and the count of draws moved. -/
structure Works (s u : State) : Prop where
  params      : u.params = s.params
  cycles      : u.cycles = s.cycles
  millis      : u.millis = s.millis
  threads     : u.threads = s.threads
  critical    : u.critical = s.critical
  faultMark   : u.faultMark = s.faultMark
  refusalMark : u.refusalMark = s.refusalMark
  moves       : u.moves = s.moves
  turn        : u.turn = s.turn
  target      : u.target = s.target
  history     : ∃ es, u.history = s.history ++ es
  sound       : s.SmsSound → u.SmsSound

theorem Works.refl (s : State) : Works s s :=
  ⟨rfl, rfl, rfl, rfl, rfl, rfl, rfl, rfl, rfl, rfl, ⟨[], by simp⟩, id⟩

theorem Works.trans {s u v : State} (h : Works s u) (k : Works u v) : Works s v where
  params := k.params.trans h.params
  cycles := k.cycles.trans h.cycles
  millis := k.millis.trans h.millis
  threads := k.threads.trans h.threads
  critical := k.critical.trans h.critical
  faultMark := k.faultMark.trans h.faultMark
  refusalMark := k.refusalMark.trans h.refusalMark
  moves := k.moves.trans h.moves
  turn := k.turn.trans h.turn
  target := k.target.trans h.target
  history := by
    obtain ⟨es, he⟩ := h.history
    obtain ⟨fs, hf⟩ := k.history
    exact ⟨es ++ fs, by rw [hf, he, List.append_assoc]⟩
  sound := k.sound ∘ h.sound

theorem Works.emit (s : State) (e : Event) : Works s (s.emit e) :=
  ⟨rfl, rfl, rfl, rfl, rfl, rfl, rfl, rfl, rfl, rfl, ⟨[e], rfl⟩, fun h p n => by simpa using h p n⟩

theorem Works.drawn (s : State) : Works s s.drawn :=
  ⟨rfl, rfl, rfl, rfl, rfl, rfl, rfl, rfl, rfl, rfl, ⟨[], by simp⟩, fun h p n => by simpa using h p n⟩

theorem Works.then_emit {s u : State} (h : Works s u) (e : Event) : Works s (u.emit e) := h.trans (.emit u e)

theorem Works.then_drawn {s u : State} (h : Works s u) : Works s u.drawn := h.trans (.drawn u)

theorem Works.thread {s u : State} (h : Works s u) (t : Nat) : u.thread t = s.thread t := by
  simp only [State.thread, h.threads]

/-- A change of one PIO whose state machines stay sound. -/
theorem Works.modPio (s : State) (p : PioId) (f : Pio → Pio)
    (h : ∀ n, ((s.pio p).sm n).Sound → ((f (s.pio p)).sm n).Sound) : Works s (s.modPio p f) where
  params := by simp
  cycles := by simp
  millis := by simp
  threads := by simp
  critical := by simp
  faultMark := by simp
  refusalMark := by simp
  moves := by simp
  turn := by simp
  target := by simp
  history := ⟨[], by simp⟩
  sound := by
    intro hs q n
    by_cases hq : q = p
    · subst hq
      simpa [State.sm] using h n (hs q n)
    · simpa [State.sm, State.pio_modPio_ne _ _ hq] using hs q n

/-- A change of one PIO outside its state machines. -/
theorem Works.modPio_outside (s : State) (p : PioId) (f : Pio → Pio) (h : ∀ x n, (f x).sm n = x.sm n) :
    Works s (s.modPio p f) :=
  Works.modPio s p f fun n hn => by rw [h]; exact hn

/-- A change of one state machine that keeps it sound. -/
theorem Works.modSm (s : State) (p : PioId) (n : SmId) (f : Sm → Sm) (h : ∀ m : Sm, m = s.sm p n → m.Sound → (f m).Sound) :
    Works s (s.modSm p n f) :=
  Works.modPio s p _ fun k hk => by
    by_cases hkn : k = n
    · subst hkn
      rw [Pio.sm_setSm_same]
      exact h _ rfl hk
    · rw [Pio.sm_setSm_ne _ _ hkn]
      exact hk

/-! ## State machines -/

/-- Soundness reads the configuration words, the FIFOs and the pending word. -/
theorem Sm.Sound.of_words {m : Sm} (h : m.Sound) {m' : Sm} (hs : m'.shiftctrl = m.shiftctrl) (ht : m'.tx.length ≤ m.tx.length)
    (hr : m'.rx.length ≤ m.rx.length) (hc : m'.clkdiv &&& 0x000000FF#32 = 0#32)
    (he : m'.execctrl &&& 0x80000060#32 = 0#32) (hp : m'.execStalled = true → m'.pending.isSome = true) : m'.Sound where
  notBothJoined := by rw [hs]; exact h.notBothJoined
  txFits := by
    have : m'.capTx = m.capTx := by simp [Sm.capTx, Sm.joinTx, Sm.joinRx, hs]
    rw [this]
    exact ht.trans h.txFits
  rxFits := by
    have : m'.capRx = m.capRx := by simp [Sm.capRx, Sm.joinTx, Sm.joinRx, hs]
    rw [this]
    exact hr.trans h.rxFits
  clkdivRes := hc
  execctrlRes := he
  shiftctrlRes := by rw [hs]; exact h.shiftctrlRes
  stallPending := hp

theorem and_mask_zero (v a b : Word) (h : a &&& b = 0#32) : (v &&& a) &&& b = 0#32 := by
  rw [BitVec.and_assoc, h, BitVec.and_zero]

theorem Sm.Sound.clkdiv {m : Sm} (h : m.Sound) (v : Word) : Sm.Sound { m with clkdiv := clkdivStored v } :=
  h.of_words rfl (le_refl _) (le_refl _) (and_mask_zero _ _ _ (by decide)) h.execctrlRes h.stallPending

theorem Sm.Sound.execctrl {m : Sm} (h : m.Sound) (v : Word) : Sm.Sound { m with execctrl := execctrlStored v } :=
  h.of_words rfl (le_refl _) (le_refl _) h.clkdivRes (and_mask_zero _ _ _ (by decide)) h.stallPending

theorem Sm.Sound.pinctrl {m : Sm} (h : m.Sound) (v : Word) : Sm.Sound { m with pinctrl := v } :=
  h.of_words rfl (le_refl _) (le_refl _) h.clkdivRes h.execctrlRes h.stallPending

theorem Sm.Sound.pc {m : Sm} (h : m.Sound) (v : BitVec 5) : Sm.Sound { m with pc := v } :=
  h.of_words rfl (le_refl _) (le_refl _) h.clkdivRes h.execctrlRes h.stallPending

theorem Sm.Sound.pending {m : Sm} (h : m.Sound) (w : Half) (b : Bool) :
    Sm.Sound { m with pending := some w, execStalled := b } :=
  h.of_words rfl (le_refl _) (le_refl _) h.clkdivRes h.execctrlRes fun _ => rfl

theorem Sm.Sound.cleared {m : Sm} (h : m.Sound) : Sm.Sound { m with pending := none, execStalled := false } :=
  h.of_words rfl (le_refl _) (le_refl _) h.clkdivRes h.execctrlRes (by simp)

theorem Sm.Sound.stalled {m : Sm} (h : m.Sound) (hp : m.pending.isSome = true) : Sm.Sound { m with execStalled := true } :=
  h.of_words rfl (le_refl _) (le_refl _) h.clkdivRes h.execctrlRes fun _ => hp

theorem Sm.Sound.txTail {m : Sm} (h : m.Sound) : Sm.Sound { m with tx := m.tx.tail } :=
  h.of_words rfl (by simp) (le_refl _) h.clkdivRes h.execctrlRes h.stallPending

theorem Sm.Sound.rxTail {m : Sm} (h : m.Sound) {w : Word} {ws : List Word} (hr : m.rx = w :: ws) :
    Sm.Sound { m with rx := ws } :=
  h.of_words rfl (le_refl _) (by simp [hr]) h.clkdivRes h.execctrlRes h.stallPending

theorem Sm.Sound.txPush {m : Sm} (h : m.Sound) (hf : m.txReadsFull = false) (w : Word) :
    Sm.Sound { m with tx := m.tx ++ [w] } where
  notBothJoined := h.notBothJoined
  txFits := by
    simp only [Sm.txReadsFull, Bool.or_eq_false_iff, decide_eq_false_iff_not] at hf
    have := h.txFits
    show (m.tx ++ [w]).length ≤ m.capTx
    rw [List.length_append, List.length_singleton]
    omega
  rxFits := h.rxFits
  clkdivRes := h.clkdivRes
  execctrlRes := h.execctrlRes
  shiftctrlRes := h.shiftctrlRes
  stallPending := h.stallPending

theorem Sm.Sound.rxPush {m : Sm} (h : m.Sound) (hf : m.rxCanTake = true) (w : Word) :
    Sm.Sound { m with rx := m.rx ++ [w] } where
  notBothJoined := h.notBothJoined
  txFits := h.txFits
  rxFits := by
    simp only [Sm.rxCanTake, Sm.rxReadsFull, Bool.and_eq_true, Bool.not_eq_true', Bool.or_eq_false_iff,
      decide_eq_false_iff_not] at hf
    have := h.rxFits
    show (m.rx ++ [w]).length ≤ m.capRx
    rw [List.length_append, List.length_singleton]
    omega
  clkdivRes := h.clkdivRes
  execctrlRes := h.execctrlRes
  shiftctrlRes := h.shiftctrlRes
  stallPending := h.stallPending

/-- The stored word of SHIFTCTRL keeps the join bits of the value written. -/
theorem shiftctrlStored_bit (v : Word) {i : Nat} (h : 16 ≤ i) (h' : i < 32) :
    (shiftctrlStored v).getLsbD i = v.getLsbD i := by
  have : (0xFFFF0000#32).getLsbD i = true := by
    have : ∀ i : Fin 16, (0xFFFF0000#32).getLsbD (16 + i.val) = true := by decide
    have := this ⟨i - 16, by omega⟩
    rwa [show 16 + (i - 16) = i by omega] at this
  simp [shiftctrlStored, this]

theorem Sm.Sound.shiftctrlSame {m : Sm} (h : m.Sound) (v : Word) (h1 : v.getLsbD 31 = m.joinRx)
    (h2 : v.getLsbD 30 = m.joinTx) : Sm.Sound { m with shiftctrl := shiftctrlStored v } where
  notBothJoined := by
    show ¬ ((shiftctrlStored v).getLsbD 31 = true ∧ (shiftctrlStored v).getLsbD 30 = true)
    rw [shiftctrlStored_bit v (by omega) (by omega), shiftctrlStored_bit v (by omega) (by omega), h1, h2]
    exact h.notBothJoined
  txFits := by
    have : ({ m with shiftctrl := shiftctrlStored v } : Sm).capTx = m.capTx := by
      simp only [Sm.capTx, Sm.joinTx, Sm.joinRx, shiftctrlStored_bit v (show 16 ≤ 30 by omega) (by omega),
        shiftctrlStored_bit v (show 16 ≤ 31 by omega) (by omega), h1, h2]
      rfl
    rw [this]
    exact h.txFits
  rxFits := by
    have : ({ m with shiftctrl := shiftctrlStored v } : Sm).capRx = m.capRx := by
      simp only [Sm.capRx, Sm.joinTx, Sm.joinRx, shiftctrlStored_bit v (show 16 ≤ 30 by omega) (by omega),
        shiftctrlStored_bit v (show 16 ≤ 31 by omega) (by omega), h1, h2]
      rfl
    rw [this]
    exact h.rxFits
  clkdivRes := h.clkdivRes
  execctrlRes := h.execctrlRes
  shiftctrlRes := and_mask_zero _ _ _ (by decide)
  stallPending := h.stallPending

theorem Sm.Sound.shiftctrlFlushed {m : Sm} (h : m.Sound) (v : Word) (hb : ¬ (v.getLsbD 31 = true ∧ v.getLsbD 30 = true)) :
    Sm.Sound { m with shiftctrl := shiftctrlStored v, tx := [], rx := [] } where
  notBothJoined := by
    show ¬ ((shiftctrlStored v).getLsbD 31 = true ∧ (shiftctrlStored v).getLsbD 30 = true)
    rwa [shiftctrlStored_bit v (by omega) (by omega), shiftctrlStored_bit v (by omega) (by omega)]
  txFits := Nat.zero_le _
  rxFits := Nat.zero_le _
  clkdivRes := h.clkdivRes
  execctrlRes := h.execctrlRes
  shiftctrlRes := and_mask_zero _ _ _ (by decide)
  stallPending := h.stallPending

/-! ## Reads and writes of the block -/

theorem Works.readRx (s : State) (p : PioId) (n : SmId) : Works s (readRx s p n).2 := by
  unfold Machine.readRx
  split
  · next h => exact (Works.modSm s p n _ fun m hm hs => hs.rxTail (hm ▸ h)).trans (Works.emit _ _)
  · exact Works.then_drawn (Works.modPio_outside s p _ fun _ _ => rfl)

theorem Works.pioRead (s : State) (p : PioId) (r : Reg) : Works s (pioRead s p r).2 := by
  unfold Machine.pioRead
  split
  · exact Works.readRx s p _
  · split
    · exact Works.refl s
    · exact Works.drawn s
  · dsimp only
    split
    · exact Works.drawn s
    · exact Works.refl s
  · exact Works.refl s

theorem Works.restartIf (s : State) (p : PioId) (b : BitVec 4) (n : SmId) : Works s (restartIf s p b n) := by
  unfold Machine.restartIf
  split
  · exact (Works.modSm s p n _ fun m _ hs => hs.cleared).trans (Works.emit _ _)
  · exact Works.refl s

theorem Works.clkdivRestart (s : State) (p : PioId) (b : BitVec 4) : Works s (clkdivRestart s p b) := by
  unfold Machine.clkdivRestart
  split
  · exact Works.refl _
  · exact Works.emit _ _

theorem Works.writeCtrl (s : State) (p : PioId) (new d : Word) : Works s (writeCtrl s p new d) := by
  unfold Machine.writeCtrl
  refine Works.trans ?_ (Works.clkdivRestart _ p _)
  refine Works.trans ?_ (Works.restartIf _ p _ 3)
  refine Works.trans ?_ (Works.restartIf _ p _ 2)
  refine Works.trans ?_ (Works.restartIf _ p _ 1)
  refine Works.trans ?_ (Works.restartIf _ p _ 0)
  exact Works.modPio_outside s p _ fun _ _ => rfl

/-- What a write to a register can do. -/
theorem Works.applyWrite {s u : State} {p : PioId} {r : Reg} {new d : Word} (h : applyWrite s p r new d = .ok u) :
    Works s u := by
  cases r with
  | ctrl => cases h; exact Works.writeCtrl s p new d
  | fstat => cases h; exact Works.refl s
  | fdebug => cases h; exact Works.modPio_outside s p _ fun _ _ => rfl
  | flevel => cases h; exact Works.refl s
  | txf n =>
    cases h
    unfold writeTx
    split
    · exact Works.modPio_outside s p _ fun _ _ => rfl
    · next hf =>
      exact (Works.modSm s p n _ fun m hm hs => hs.txPush (by rw [hm]; simpa using hf) _).trans (Works.emit _ _)
  | rxf n => cases h; exact Works.refl s
  | irq => cases h; exact Works.modPio_outside s p _ fun _ _ => rfl
  | irqForce => cases h; exact Works.modPio_outside s p _ fun _ _ => rfl
  | inputSyncBypass => cases h; exact Works.modPio_outside s p _ fun _ _ => rfl
  | dbgPadout => cases h; exact Works.refl s
  | dbgPadoe => cases h; exact Works.refl s
  | dbgCfginfo => cases h; exact Works.refl s
  | instrMem i => cases h; exact Works.modPio_outside s p _ fun _ _ => rfl
  | smClkdiv n => cases h; exact Works.modSm s p n _ fun m _ hs => hs.clkdiv _
  | smExecctrl n => cases h; exact Works.modSm s p n _ fun m _ hs => hs.execctrl _
  | smShiftctrl n =>
    simp only [Machine.applyWrite, writeShiftctrl] at h
    split at h
    · cases h
    · next hb =>
      split at h
      · next hj =>
        cases h
        exact Works.modSm s p n _ fun m hm hs => hs.shiftctrlSame _ (hm ▸ hj.1) (hm ▸ hj.2)
      · cases h
        exact (Works.modSm s p n _ fun m _ hs => hs.shiftctrlFlushed _ (by simpa using hb)).trans (Works.emit _ _)
  | smAddr n => cases h; exact Works.refl s
  | smInstr n =>
    simp only [Machine.applyWrite, writeInstrReg] at h
    split at h
    · cases h
    · cases h
      exact ((Works.modSm s p n _ fun m _ hs => hs.pending _ _).trans (Works.drawn _)).trans (Works.emit _ _)
  | smPinctrl n => cases h; exact Works.modSm s p n _ fun m _ hs => hs.pinctrl _
  | intr => cases h; exact Works.refl s
  | inte k => cases h; exact Works.modPio_outside s p _ fun x n => by simp
  | intf k => cases h; exact Works.modPio_outside s p _ fun x n => by simp
  | ints k => cases h; exact Works.refl s

/-! ## Ends of a transaction -/

/-- The five ways a transaction ends. -/
inductive Ends (s : State) : State → Prop
  /-- R404: the fault mark, and nothing else. -/
  | fatal (info : FatalInfo) : Ends s (s.fatal info)
  /-- R405: the refusal mark, and nothing else. -/
  | refuse (reason : RefuseReason) : Ends s (s.refuse reason)
  /-- R403: an error, after at most a draw. -/
  | raise (u : State) (e : Err) (h : u = s ∨ u = s.drawn) (t : State)
      (ht : t = u.deliver (.error e) ∨ t = u.finish (.error e)) : Ends s t
  /-- A normal end. -/
  | normal (u : State) (r : Result) (h : Works s u) (hr : ∀ e, r ≠ .error e) (t : State)
      (ht : t = u.deliver r ∨ t = u.finish r) : Ends s t
  /-- A WAIT suspends. -/
  | suspend (u : State) (w : WaitState) (h : Works s u) : Ends s (u.proceed (.waiting w))

theorem Ends.error (s : State) (e : Err) : Ends s (s.raise e) := .raise s e (.inl rfl) _ (.inl rfl)

/-- What a READ can do. -/
theorem busRead_cases (s : State) (addr : Word) :
    (∃ v u, busRead s addr = (.ok v, u) ∧ Works s u) ∨
      (∃ e u, busRead s addr = (.error e, u) ∧ (u = s ∨ u = s.drawn)) := by
  unfold busRead
  split
  · exact .inr ⟨_, _, rfl, .inl rfl⟩
  · exact .inr ⟨_, _, rfl, .inl rfl⟩
  · exact .inl ⟨_, _, rfl, (Works.pioRead s _ _).trans (Works.emit _ _)⟩
  · dsimp only
    split
    · exact .inr ⟨_, _, rfl, .inr rfl⟩
    · exact .inl ⟨_, _, rfl, (Works.drawn s).trans (Works.emit _ _)⟩

theorem Ends.endRead (s : State) (addr : Word) : Ends s (endRead (busRead s addr)) := by
  obtain ⟨v, u, h, hw⟩ | ⟨e, u, h, hu⟩ := busRead_cases s addr
  · rw [h]
    exact .normal u (.word v) hw (by simp) _ (.inl rfl)
  · rw [h]
    exact .raise u e hu _ (.inl rfl)

theorem Ends.blockWrite (s : State) (addr : Word) (b : Block) (r : Nat) (t : Triple) :
    Ends s (blockWrite s addr b r t) := by
  cases b with
  | csr p =>
    unfold Machine.blockWrite
    dsimp only
    split
    · next u h => exact .normal _ .unit ((Works.applyWrite h).trans (Works.emit _ _)) (by simp) _ (.inl rfl)
    · exact .refuse _
  | device baseWord size name =>
    unfold Machine.blockWrite
    dsimp only
    split
    · exact .raise s.drawn _ (.inr rfl) _ (.inl rfl)
    · exact .normal _ .unit ((Works.drawn s).trans (Works.emit _ _)) (by simp) _ (.inl rfl)

theorem Ends.busWrite (s : State) (addr v : Word) : Ends s (busWrite s addr v) := by
  unfold Machine.busWrite
  split
  · exact .error s _
  · exact .error s _
  · exact .blockWrite s addr _ _ _

theorem Ends.busWriteM (s : State) (addr bits mask : Word) (xor : Bool) : Ends s (busWriteM s addr bits mask xor) := by
  unfold Machine.busWriteM
  split
  · exact .error s _
  · exact .error s _
  · split
    · exact .blockWrite s addr _ _ _
    · exact .refuse _

theorem Ends.waitPoll (w : WaitState) (s : State) : Ends s (waitPoll w s) := by
  unfold Machine.waitPoll
  obtain ⟨v, u, h, hw⟩ | ⟨e, u, h, hu⟩ := busRead_cases s w.addr
  · rw [h]
    dsimp only
    split
    · exact .normal u _ hw (by simp) _ (.inr rfl)
    · exact .suspend u _ hw
  · rw [h]
    exact .raise u e hu _ (.inr rfl)

/-! ## The allocator -/

theorem Works.occupy (s : State) (p : PioId) (m : Word) (k : Nat) : Works s (occupy s p m k) := by
  refine Works.then_emit ?_ _
  exact Works.modPio_outside s p _ fun _ _ => rfl

theorem allocate_works {p : Nat} {amask : Word} {origin : Int} {check : Bool} {s u : State} {k : Int}
    (h : allocate p amask origin check s = .ok (k, u)) : Works s u := by
  unfold allocate at h
  split at h
  · cases h
  · split at h
    · split at h
      · cases h
        split
        · exact Works.refl s
        · exact Works.occupy s _ _ _
      · split at h
        · cases h; exact Works.refl s
        · cases h
    · cases h

theorem Ends.endOffset {x : Except Err (Int × State)} {s : State} (h : ∀ k u, x = .ok (k, u) → Works s u) :
    Ends s (endOffset x s) := by
  cases x with
  | error e => exact .error s e
  | ok y => exact .normal y.2 (.offset y.1) (h _ _ rfl) (by simp) _ (.inl rfl)

/-- One word written through the register path is one word of the memory set. -/
theorem storeWord_eq (s : State) (p : PioId) (i : Fin 32) (v : Word) :
    storeWord s p i v = s.modPio p fun x => x.setWord i (v.setWidth 16) := by
  simp only [storeWord, pioWrite, writtenValue_plain, applyWrite]

theorem Works.storeWord (s : State) (p : PioId) (i : Fin 32) (v : Word) : Works s (storeWord s p i v) := by
  rw [storeWord_eq]
  exact Works.modPio_outside s p _ fun _ _ => rfl

theorem Works.clearWords (s : State) (p : PioId) (k : Nat) : Works s (clearWords s p k) := by
  induction k with
  | zero => exact Works.refl s
  | succ k ih => exact ih.trans (Works.storeWord _ p _ _)

theorem Works.placeFrom (p : PioId) (off i : Nat) (ws : List Nat) (s : State) : Works s (placeFrom p off i ws s) := by
  induction ws generalizing i s with
  | nil => exact Works.refl s
  | cons w ws ih => exact ((Works.storeWord s p _ _).trans (Works.emit _ _)).trans (ih _ _)

theorem allocAndPlace_works {p : Nat} {amask : Word} {origin : Int} {prog : Desc} {s u : State} {k : Int}
    (h : allocAndPlace p amask origin prog s = .ok (k, u)) : Works s u := by
  unfold allocAndPlace at h
  split at h
  · cases h
  · next ha =>
    cases h
    exact (allocate_works ha).trans (Works.placeFrom _ _ _ _ _)
  · next x hp ha =>
    cases h
    exact allocate_works ha

theorem Ends.deallocate (p : Nat) (prog : Desc) (offset : Int) (s : State) : Ends s (deallocate p prog offset s) := by
  unfold Machine.deallocate
  split
  · split
    · exact .error s _
    · split
      · split
        · dsimp only
          split
          · refine .normal _ .unit ?_ (by simp) _ (.inl rfl)
            refine Works.then_emit ?_ _
            exact Works.modPio_outside s _ _ fun _ _ => rfl
          · exact .fatal _
        · exact .error s _
      · exact .error s _
  · exact .error s _

/-- What any transaction can do. -/
theorem exec_cases {i : Instr} {s t : State} (h : exec i s = .next t) : Ends s t := by
  cases i with
  | read addr => cases h; exact .endRead s addr
  | writeRw addr v => cases h; exact .busWrite s addr v
  | writeXor addr v => cases h; exact .busWrite s addr v
  | writeSet addr v => cases h; exact .busWrite s addr v
  | writeClr addr v => cases h; exact .busWrite s addr v
  | writem addr bits mask xor => cases h; exact .busWriteM s addr bits mask xor
  | wait addr expected mask cyc ms =>
    simp only [exec, execWait] at h
    split at h
    · cases h; exact .waitPoll _ s
    · cases h; exact .error s _
  | provides addr =>
    simp only [exec, execProvides] at h
    split at h <;> cases h <;> exact .normal s _ (Works.refl s) (by simp) _ (.inl rfl)
  | label addr =>
    simp only [exec, execLabel] at h
    split at h
    · cases h; exact .error s _
    · cases h; exact .error s _
    · cases h; exact .normal s _ (Works.refl s) (by simp) _ (.inl rfl)
    · cases h; exact .normal s.drawn _ (Works.drawn s) (by simp) _ (.inl rfl)
  | alloc p amask origin check =>
    cases h
    exact .endOffset fun k u hx => allocate_works hx
  | dealloc p prog offset => cases h; exact .deallocate p prog offset s
  | imclear p =>
    simp only [exec, execImclear] at h
    split at h
    · cases h; exact .error s _
    · cases h
      refine .normal _ .unit ?_ (by simp) _ (.inl rfl)
      refine Works.then_emit (Works.trans ?_ (Works.clearWords _ _ _)) _
      exact Works.modPio_outside s _ _ fun _ _ => rfl
  | addprog p prog =>
    simp only [exec, execAddprog] at h
    split at h
    · cases h; exact .endOffset fun k u hx => allocAndPlace_works hx
    · cases h; exact .error s _
  | addprogat p prog offset =>
    simp only [exec, execAddprogat] at h
    split at h
    · split at h
      · split at h
        · cases h; exact .endOffset fun k u hx => allocAndPlace_works hx
        · cases h; exact .error s _
      · cases h; exact .error s _
    · cases h; exact .error s _
  | rmprog p prog offset => cases h; exact .deallocate p prog offset s
  | jmpAlways a => cases h; exact .busWrite s _ _
  | setPins v => cases h; exact .busWrite s _ _
  | setPindirs v => cases h; exact .busWrite s _ _
  | outNull32 => cases h; exact .busWrite s _ _
  | pullNoblock => cases h; exact .busWrite s _ _

end Sys2Proof.Machine
end

