-- ==== Sys2Proof/Laws/Occupancy.lean ====
section
/-! SUPPORT. Sys2Proof/Laws/Occupancy.lean: the register block's side of a READ or of a write leaves the occupancy masks as
they were (10_state R23). -/

namespace Sys2Proof.Machine

open Sys2Proof

/-- Both occupancy masks are the same. -/
def SameOcc (s u : State) : Prop := ∀ q, (u.pio q).occ = (s.pio q).occ

theorem SameOcc.refl (s : State) : SameOcc s s := fun _ => rfl

theorem SameOcc.trans {s u v : State} (h : SameOcc s u) (k : SameOcc u v) : SameOcc s v := fun q => (k q).trans (h q)

theorem SameOcc.modPio (s : State) (p : PioId) (f : Pio → Pio) (h : ∀ x, (f x).occ = x.occ) : SameOcc s (s.modPio p f) := by
  intro q
  rw [State.pio_modPio]
  split
  · next hq => rw [h, hq]
  · rfl

theorem SameOcc.modSm (s : State) (p : PioId) (n : SmId) (f : Sm → Sm) : SameOcc s (s.modSm p n f) :=
  SameOcc.modPio s p _ fun _ => Pio.occ_setSm ..

theorem SameOcc.then_emit {s u : State} (h : SameOcc s u) (e : Event) : SameOcc s (u.emit e) := h
theorem SameOcc.then_drawn {s u : State} (h : SameOcc s u) : SameOcc s u.drawn := h
theorem SameOcc.then_deliver {s u : State} (h : SameOcc s u) (r : Result) : SameOcc s (u.deliver r) := h
theorem SameOcc.then_finish {s u : State} (h : SameOcc s u) (r : Result) : SameOcc s (u.finish r) := h
theorem SameOcc.then_proceed {s u : State} (h : SameOcc s u) (op : HostOp) : SameOcc s (u.proceed op) := h

theorem SameOcc.pioRead (s : State) (p : PioId) (r : Reg) : SameOcc s (pioRead s p r).2 := by
  unfold Machine.pioRead
  split
  · unfold readRx
    split
    · exact SameOcc.then_emit (SameOcc.modSm s p _ _) _
    · refine SameOcc.then_drawn ?_
      exact SameOcc.modPio s p _ fun _ => rfl
  · split
    · exact SameOcc.refl s
    · exact (SameOcc.refl s).then_drawn
  · dsimp only
    split
    · exact (SameOcc.refl s).then_drawn
    · exact SameOcc.refl s
  · exact SameOcc.refl s

theorem SameOcc.restartIf (s : State) (p : PioId) (b : BitVec 4) (n : SmId) : SameOcc s (restartIf s p b n) := by
  unfold Machine.restartIf
  split
  · exact SameOcc.then_emit (SameOcc.modSm s p n _) _
  · exact SameOcc.refl s

theorem SameOcc.clkdivRestart (s : State) (p : PioId) (b : BitVec 4) : SameOcc s (clkdivRestart s p b) := by
  unfold Machine.clkdivRestart
  split
  · exact SameOcc.refl _
  · exact (SameOcc.refl _).then_emit _

theorem SameOcc.writeCtrl (s : State) (p : PioId) (new d : Word) : SameOcc s (writeCtrl s p new d) := by
  unfold Machine.writeCtrl
  refine SameOcc.trans ?_ (SameOcc.clkdivRestart _ p _)
  refine SameOcc.trans ?_ (SameOcc.restartIf _ p _ 3)
  refine SameOcc.trans ?_ (SameOcc.restartIf _ p _ 2)
  refine SameOcc.trans ?_ (SameOcc.restartIf _ p _ 1)
  refine SameOcc.trans ?_ (SameOcc.restartIf _ p _ 0)
  exact SameOcc.modPio s p _ fun _ => rfl

theorem SameOcc.applyWrite {s u : State} {p : PioId} {r : Reg} {new d : Word} (h : applyWrite s p r new d = .ok u) :
    SameOcc s u := by
  cases r with
  | ctrl => cases h; exact SameOcc.writeCtrl s p new d
  | fstat => cases h; exact SameOcc.refl s
  | fdebug => cases h; exact SameOcc.modPio s p _ fun _ => rfl
  | flevel => cases h; exact SameOcc.refl s
  | txf n =>
    cases h
    unfold writeTx
    split
    · exact SameOcc.modPio s p _ fun _ => rfl
    · exact SameOcc.then_emit (SameOcc.modSm s p n _) _
  | rxf n => cases h; exact SameOcc.refl s
  | irq => cases h; exact SameOcc.modPio s p _ fun _ => rfl
  | irqForce => cases h; exact SameOcc.modPio s p _ fun _ => rfl
  | inputSyncBypass => cases h; exact SameOcc.modPio s p _ fun _ => rfl
  | dbgPadout => cases h; exact SameOcc.refl s
  | dbgPadoe => cases h; exact SameOcc.refl s
  | dbgCfginfo => cases h; exact SameOcc.refl s
  | instrMem i => cases h; exact SameOcc.modPio s p _ fun _ => rfl
  | smClkdiv n => cases h; exact SameOcc.modSm s p n _
  | smExecctrl n => cases h; exact SameOcc.modSm s p n _
  | smShiftctrl n =>
    simp only [Machine.applyWrite, writeShiftctrl] at h
    split at h
    · cases h
    · split at h
      · cases h; exact SameOcc.modSm s p n _
      · cases h; exact SameOcc.then_emit (SameOcc.modSm s p n _) _
  | smAddr n => cases h; exact SameOcc.refl s
  | smInstr n =>
    simp only [Machine.applyWrite, writeInstrReg] at h
    split at h
    · cases h
    · cases h; exact SameOcc.then_emit (SameOcc.then_drawn (SameOcc.modSm s p n _)) _
  | smPinctrl n => cases h; exact SameOcc.modSm s p n _
  | intr => cases h; exact SameOcc.refl s
  | inte k => cases h; exact SameOcc.modPio s p _ fun x => by unfold Pio.setInte; split <;> rfl
  | intf k => cases h; exact SameOcc.modPio s p _ fun x => by unfold Pio.setIntf; split <;> rfl
  | ints k => cases h; exact SameOcc.refl s

theorem SameOcc.blockWrite (s : State) (addr : Word) (b : Block) (r : Nat) (t : Triple) :
    SameOcc s (blockWrite s addr b r t) := by
  cases b with
  | csr p =>
    unfold Machine.blockWrite
    dsimp only
    split
    · next u h => exact ((SameOcc.applyWrite h).then_emit _).then_deliver _
    · exact SameOcc.refl s
  | device baseWord size name =>
    unfold Machine.blockWrite
    dsimp only
    split
    · exact SameOcc.refl s
    · exact SameOcc.refl s

theorem SameOcc.busRead (s : State) (addr : Word) : SameOcc s (busRead s addr).2 := by
  unfold Machine.busRead
  split
  · exact SameOcc.refl s
  · exact SameOcc.refl s
  · exact (SameOcc.pioRead s _ _).then_emit _
  · dsimp only
    split <;> exact SameOcc.refl s

end Sys2Proof.Machine
end

