-- ==== Sys2Proof/Laws/PerInstr.lean ====
section
/-! SUPPORT. Sys2Proof/Laws/PerInstr.lean: the family RowMatch: the encoding of every well-formed instruction matches
the mask and match of its row of spec/opcode_table.json. -/

namespace Sys2Proof.Laws.RowMatch

open Sys2Proof

/-- The mask and match of a row: on the 40-bit decode word {header, addr} (R103), or on the 16-bit word. -/
inductive Row
  | txn (mask value : BitVec 40)
  | pio (mask value : BitVec 16)

/-- The rows of spec/opcode_table.json. -/
def rowOf : Instr → Row
  | .read _ => .txn 0xFF00000000#40 0x0000000000#40
  | .writeRw _ _ => .txn 0xFF00003000#40 0x0100000000#40
  | .writeXor _ _ => .txn 0xFF00003000#40 0x0100001000#40
  | .writeSet _ _ => .txn 0xFF00003000#40 0x0100002000#40
  | .writeClr _ _ => .txn 0xFF00003000#40 0x0100003000#40
  | .writem _ _ _ _ => .txn 0xFF00000000#40 0x0200000000#40
  | .wait _ _ _ _ _ => .txn 0xFF00000000#40 0x0300000000#40
  | .provides _ => .txn 0xFF00000000#40 0x0400000000#40
  | .label _ => .txn 0xFF00000000#40 0x0500000000#40
  | .alloc _ _ _ _ => .txn 0xFF00000000#40 0x0600000000#40
  | .dealloc _ _ _ => .txn 0xFF00000000#40 0x0700000000#40
  | .imclear _ => .txn 0xFF00000000#40 0x0800000000#40
  | .addprog _ _ => .txn 0xFF00000000#40 0x0900000000#40
  | .addprogat _ _ _ => .txn 0xFF00000000#40 0x0A00000000#40
  | .rmprog _ _ _ => .txn 0xFF00000000#40 0x0B00000000#40
  | .jmpAlways _ => .pio 0xFFE0#16 0x0000#16
  | .setPins _ => .pio 0xFFE0#16 0xE000#16
  | .setPindirs _ => .pio 0xFFE0#16 0xE080#16
  | .outNull32 => .pio 0xFFFF#16 0x6060#16
  | .pullNoblock => .pio 0xFFFF#16 0x8080#16

/-- A coded form begins with the row's bits: a record's header byte and its 4 address bytes are a decode word that
matches; a PIO word matches. -/
def Fits : Coded → Row → Prop
  | .txn bytes, .txn mask value =>
    ∃ (h : Byte) (addr : Word) (rest : List Byte), bytes = h :: (leWord addr ++ rest) ∧ (h ++ addr) &&& mask = value
  | .pio w, .pio mask value => w &&& mask = value
  | .txn _, .pio _ _ => False
  | .pio _, .txn _ _ => False

/-- The encoding of a well-formed instruction fits its row. -/
def Statement (i : Instr) : Prop := i.wellFormed = true → Fits (encode i) (rowOf i)

theorem header_only (h : Byte) (addr : Word) : (h ++ addr) &&& 0xFF00000000#40 = h ++ 0#32 := by
  have e : (0xFF00000000#40 : BitVec 40) = 0xFF#8 ++ 0#32 := by decide
  rw [e, BitVec.and_append]
  congr 1
  · exact BitVec.and_allOnes
  · exact BitVec.and_zero

theorem alias_bits (addr : Word) : addr &&& 0x3000#32 = (addr.extractLsb' 12 2).setWidth 32 <<< 12 := by
  ext i hi
  interval_cases i <;> simp

theorem header_and_alias (h : Byte) (addr : Word) (code : BitVec 2) (hc : hasAlias addr code = true) :
    (h ++ addr) &&& 0xFF00003000#40 = h ++ (code.setWidth 32 <<< 12) := by
  have e : (0xFF00003000#40 : BitVec 40) = 0xFF#8 ++ 0x3000#32 := by decide
  have hc' : addr.extractLsb' 12 2 = code := by simpa [hasAlias] using hc
  rw [e, BitVec.and_append, alias_bits, hc']
  congr 1
  exact BitVec.and_allOnes

theorem record_fits {op : Byte} {addr : Word} {operands : List Byte} {mask value : BitVec 40}
    (h : (op ++ addr) &&& mask = value) : Fits (record op addr operands) (.txn mask value) :=
  ⟨op, addr, operands, rfl, h⟩

theorem read (addr : Word) : Statement (.read addr) := fun _ => record_fits (header_only _ _)

theorem writeRw (addr value : Word) : Statement (.writeRw addr value) :=
  fun h => record_fits (header_and_alias _ _ _ h)

theorem writeXor (addr value : Word) : Statement (.writeXor addr value) :=
  fun h => record_fits (header_and_alias _ _ _ h)

theorem writeSet (addr value : Word) : Statement (.writeSet addr value) :=
  fun h => record_fits (header_and_alias _ _ _ h)

theorem writeClr (addr value : Word) : Statement (.writeClr addr value) :=
  fun h => record_fits (header_and_alias _ _ _ h)

theorem writem (addr bits mask : Word) (xor : Bool) : Statement (.writem addr bits mask xor) :=
  fun _ => record_fits (header_only _ _)

theorem wait (addr expected mask : Word) (cyc ms : Nat) : Statement (.wait addr expected mask cyc ms) :=
  fun _ => record_fits (header_only _ _)

theorem provides (addr : Word) : Statement (.provides addr) := fun _ => record_fits (header_only _ _)

theorem label (addr : Word) : Statement (.label addr) := fun _ => record_fits (header_only _ _)

theorem alloc (p : Nat) (amask : Word) (origin : Int) (check : Bool) : Statement (.alloc p amask origin check) :=
  fun _ => record_fits (header_only _ _)

theorem dealloc (p : Nat) (prog : Desc) (offset : Int) : Statement (.dealloc p prog offset) :=
  fun _ => record_fits (header_only _ _)

theorem imclear (p : Nat) : Statement (.imclear p) := fun _ => record_fits (header_only _ _)

theorem addprog (p : Nat) (prog : Desc) : Statement (.addprog p prog) := fun _ => record_fits (header_only _ _)

theorem addprogat (p : Nat) (prog : Desc) (offset : Int) : Statement (.addprogat p prog offset) :=
  fun _ => record_fits (header_only _ _)

theorem rmprog (p : Nat) (prog : Desc) (offset : Int) : Statement (.rmprog p prog offset) :=
  fun _ => record_fits (header_only _ _)

theorem low_field (v : BitVec 5) : v.setWidth 16 &&& 0xFFE0#16 = 0#16 := by
  ext i hi
  interval_cases i <;> simp

theorem jmpAlways (a : BitVec 5) : Statement (.jmpAlways a) := fun _ => low_field a

theorem setPins (v : BitVec 5) : Statement (.setPins v) := fun _ => by
  change (0xE000#16 ||| v.setWidth 16) &&& 0xFFE0#16 = 0xE000#16
  revert v
  decide

theorem setPindirs (v : BitVec 5) : Statement (.setPindirs v) := fun _ => by
  change (0xE080#16 ||| v.setWidth 16) &&& 0xFFE0#16 = 0xE080#16
  revert v
  decide

theorem outNull32 : Statement .outNull32 := fun _ => rfl

theorem pullNoblock : Statement .pullNoblock := fun _ => rfl

end Sys2Proof.Laws.RowMatch
end

