-- ==== Sys2Proof/Laws/Step.lean ====
section
/-! SUPPORT. Sys2Proof/Laws/Step.lean: what the steps of the agents keep: the parameters, the history as a beginning, and
the soundness of the machine (10_state R20 to R30, 41_csr R230). -/

namespace Sys2Proof.Machine

open Sys2Proof

/-- From s to t, the parameters stay, the history only grows, and a sound machine stays sound. -/
structure Keeps (s t : State) : Prop where
  params  : t.params = s.params
  history : ∃ es, t.history = s.history ++ es
  sound   : s.Sound → t.Sound

theorem Keeps.refl (s : State) : Keeps s s := ⟨rfl, ⟨[], by simp⟩, id⟩

theorem Keeps.trans {s t u : State} (h : Keeps s t) (k : Keeps t u) : Keeps s u where
  params := k.params.trans h.params
  history := by
    obtain ⟨es, he⟩ := h.history
    obtain ⟨fs, hf⟩ := k.history
    exact ⟨es ++ fs, by rw [hf, he, List.append_assoc]⟩
  sound := k.sound ∘ h.sound

/-- A change of nothing but threads, moves, marks and the model's own fields. -/
theorem Keeps.of_eq {s t : State} (hp : t.params = s.params) (h0 : t.pio0 = s.pio0) (h1 : t.pio1 = s.pio1)
    (hc : t.cycles = s.cycles) (hm : t.millis = s.millis) (hh : t.history = s.history) : Keeps s t where
  params := hp
  history := ⟨[], by simp [hh]⟩
  sound h := by
    refine ⟨fun p n => ?_, by rw [hc, hp]; exact h.cyclesIn, by rw [hm, hp]; exact h.millisIn⟩
    have : t.sm p n = s.sm p n := by
      match p with
      | 0 => simp [State.sm, h0]
      | 1 => simp [State.sm, h1]
    rw [this]
    exact h.sms p n

theorem Works.keeps {s u : State} (h : Works s u) : Keeps s u :=
  ⟨h.params, h.history, fun hs => ⟨h.sound hs.sms, by rw [h.cycles, h.params]; exact hs.cyclesIn,
    by rw [h.millis, h.params]; exact hs.millisIn⟩⟩

theorem Keeps.deliver (s : State) (r : Result) : Keeps s (s.deliver r) := .of_eq rfl rfl rfl rfl rfl rfl
theorem Keeps.finish (s : State) (r : Result) : Keeps s (s.finish r) := .of_eq rfl rfl rfl rfl rfl rfl
theorem Keeps.proceed (s : State) (op : HostOp) : Keeps s (s.proceed op) := .of_eq rfl rfl rfl rfl rfl rfl

/-- Every end of a transaction keeps. -/
theorem Ends.keeps {s t : State} (h : Ends s t) : Keeps s t := by
  cases h with
  | fatal info => exact .of_eq rfl rfl rfl rfl rfl rfl
  | refuse reason => exact .of_eq rfl rfl rfl rfl rfl rfl
  | raise u e hu t ht =>
    have : Keeps s u := by
      rcases hu with rfl | rfl
      · exact .refl _
      · exact (Works.drawn s).keeps
    rcases ht with rfl | rfl
    · exact this.trans (.deliver _ _)
    · exact this.trans (.finish _ _)
  | normal u r hw hr t ht =>
    rcases ht with rfl | rfl
    · exact hw.keeps.trans (.deliver _ _)
    · exact hw.keeps.trans (.finish _ _)
  | suspend u w hw => exact hw.keeps.trans (.proceed _ _)

theorem exec_keeps {i : Instr} {s t : State} (h : exec i s = .next t) : Keeps s t := (exec_cases h).keeps

/-! ## The other agents -/

theorem Works.engineMove (p : PioId) (m : EngineMove) (s : State) : Works s (engineMove p m s) := by
  unfold Machine.engineMove
  split
  · next hg =>
    refine Works.then_emit ?_ _
    cases m with
    | popTx n => exact Works.modSm s p n (fun m => { m with tx := m.tx.tail }) fun m _ hs => hs.txTail
    | pushRx n w =>
      by_cases hc : ((s.pio p).sm n).rxCanTake = true
      · have e : (s.modPio p fun x => engineEffect x (.pushRx n w)) =
            s.modSm p n fun m => { m with rx := m.rx ++ [w] } := by
          simp only [State.modSm, State.modPio, engineEffect, hc, if_true]
        rw [e]
        exact Works.modSm s p n _ fun m hm hs => hs.rxPush (by rw [hm]; exact hc) w
      · have e : (s.modPio p fun x => engineEffect x (.pushRx n w)) = s := by
          simp only [State.modPio, engineEffect, hc, Bool.false_eq_true, if_false, State.setPio_pio]
        rw [e]
        exact Works.refl s
    | stallTx n => exact Works.modPio_outside s p _ fun _ _ => rfl
    | stallRx n => exact Works.modPio_outside s p _ fun _ _ => rfl
    | irqFlag k on => exact Works.modPio_outside s p _ fun _ _ => rfl
    | setPc n v => exact Works.modSm s p n (fun m => { m with pc := v }) fun m _ hs => hs.pc v
    | setPads out oe => exact Works.modPio_outside s p _ fun _ _ => rfl
    | execDone n =>
      exact Works.modSm s p n (fun m => { m with pending := none, execStalled := false }) fun m _ hs => hs.cleared
    | execStall n =>
      exact Works.modSm s p n (fun m => { m with execStalled := true }) fun m hm hs => hs.stalled (by rw [hm]; exact hg)
  · exact Works.refl s

theorem Keeps.masterTick (s : State) : Keeps s (masterTick s) where
  params := rfl
  history := ⟨[], by simp [Machine.masterTick]⟩
  sound h := ⟨h.sms, Nat.mod_lt _ (Nat.two_pow_pos _), h.millisIn⟩

theorem Keeps.wallTick (s : State) : Keeps s (wallTick s) where
  params := rfl
  history := ⟨[], by simp [Machine.wallTick]⟩
  sound h := ⟨h.sms, h.cyclesIn, Nat.mod_lt _ (Nat.two_pow_pos _)⟩

theorem Keeps.interruptThread (t : Nat) (s : State) : Keeps s (interruptThread t s) := .of_eq rfl rfl rfl rfl rfl rfl

theorem Keeps.enterFrame (m : MacroState) (s : State) : Keeps s (enterFrame m s) := by
  unfold Machine.enterFrame
  split
  · exact .of_eq rfl rfl rfl rfl rfl rfl
  · exact .refl s

theorem Keeps.leaveFrame (m : MacroState) (s : State) : Keeps s (leaveFrame m s) := by
  unfold Machine.leaveFrame
  split
  · exact .of_eq rfl rfl rfl rfl rfl rfl
  · exact .refl s

theorem Keeps.macroContinue (m : MacroState) (rest : List Instr) (s : State) : Keeps s (macroContinue m rest s) := by
  unfold Machine.macroContinue
  split
  · split
    · exact (Keeps.leaveFrame m s).trans (.finish _ _)
    · split
      · exact .proceed s _
      · split
        · exact (Keeps.leaveFrame m s).trans (.finish _ _)
        · exact .proceed s _
    · exact .refl s
  · exact .refl s

/-- What one step of a macro-operation keeps. -/
theorem macroStep_keeps {m : MacroState} {s t : State} (h : macroStep m s = .next t) : Keeps s t := by
  unfold macroStep at h
  split at h
  · cases h
    exact (Keeps.leaveFrame m s).trans (.finish _ _)
  · split at h
    · next u hu =>
      cases h
      exact ((Keeps.enterFrame m s).trans (exec_keeps hu)).trans (.macroContinue _ _ _)
    · cases h
    · cases h

/-- What the start of a request keeps. -/
theorem startRequest_keeps {r : Request} {s t : State} (h : startRequest r s = .next t) : Keeps s t := by
  unfold startRequest at h
  split at h
  · split at h
    · exact exec_keeps h
    · cases h; exact .deliver s _
    · cases h; exact .deliver s _
    · cases h
    · cases h
  · next p n w =>
    have k : Keeps s { s with target := (p, n) } := .of_eq rfl rfl rfl rfl rfl rfl
    exact k.trans (exec_keeps h)
  · split at h
    · cases h; exact .deliver s _
    · cases h; exact .proceed s _

/-- What a step of a host thread keeps. -/
theorem hostMove_keeps {t : Nat} {s u : State} (h : hostMove t s = .next u) : Keeps s u := by
  unfold hostMove at h
  split at h
  · cases h; exact .refl s
  · split at h
    · split at h
      · cases h; exact .refl s
      · next r rest _ =>
        have k : Keeps s ({ s.setThread t { queue := rest, op := .idle, result := none } with turn := t } : State) :=
          .of_eq rfl rfl rfl rfl rfl rfl
        exact k.trans (startRequest_keeps h)
    · next w _ =>
      split at h
      · cases h
        have k : Keeps s ({ s with turn := t } : State) := .of_eq rfl rfl rfl rfl rfl rfl
        exact k.trans (Ends.waitPoll w _).keeps
      · cases h; exact .refl s
    · next m _ =>
      have k : Keeps s ({ s with turn := t } : State) := .of_eq rfl rfl rfl rfl rfl rfl
      exact k.trans (macroStep_keeps h)

/-! ## Which agent moves -/

/-- The step of an unmarked machine whose next move is listed. -/
theorem step_of_move {s : State} {m : Move} {ms : List Move} (h : s.Live) (hm : s.moves = m :: ms) :
    step s = perform m { s with moves := ms } := by
  have ha : machineStep s = agentStep s := by
    unfold machineStep
    rw [h.1]
    dsimp only
    rw [h.2]
  rw [step, ha]
  unfold agentStep
  rw [hm]

/-- The step of a thread that is inside a macro-operation and not excluded. -/
theorem step_of_running {s : State} {t : Nat} {m : MacroState} {ms : List Move} (h : s.Live)
    (hf : s.critical = none ∨ s.critical = some t) (hm : s.moves = .host t :: ms) (ho : (s.thread t).op = .running m) :
    step s = macroStep m { s with moves := ms, turn := t } := by
  rw [step_of_move h hm]
  have he : excluded { s with moves := ms } t = false := by
    rcases hf with h | h <;> simp [excluded, h]
  have h1 : ({ s with moves := ms } : State).thread t = s.thread t := rfl
  unfold perform hostMove
  dsimp only
  rw [he, h1, ho]
  rfl

/-- What a macro-operation does after a transaction that ended well (R9, R340, R345). -/
theorem macroContinue_deliver (m : MacroState) (rest : List Instr) {x : State} {r : Result} (h : x.Live)
    (hr : ∀ e, r ≠ .error e) :
    macroContinue m rest (x.deliver r) =
      match rest with
      | i :: is => x.proceed (.running { m with todo := i :: is })
      | [] =>
        match contNext m.cont r with
        | .finish r' => (leaveFrame m x).finish r'
        | .more todo cont => x.proceed (.running { m with todo, cont }) := by
  have hl : leaveFrame m (x.deliver r) = (leaveFrame m x).deliver r := by
    unfold leaveFrame
    cases m.pin <;> rfl
  have ht : ((x.deliver r).thread (x.deliver r).turn).result = some r :=
    congrArg Thread.result (State.thread_deliver_turn x r)
  unfold macroContinue
  rw [if_pos ((State.unmarked_iff (x.deliver r)).mpr h), ht]
  cases r with
  | error e => exact absurd rfl (hr e)
  | unit | word _ | offset _ | label _ =>
    cases rest with
    | cons i is => exact State.proceed_deliver ..
    | nil =>
      dsimp only
      split <;> rename_i hc <;> simp only [hc, hl, State.finish_deliver, State.proceed_deliver]

/-- The step of a thread that takes up its next request. -/
theorem step_of_asks {s : State} {t : Nat} {r : Request} {rest : List Request} {ms : List Move} (h : s.Asks t r rest)
    (hm : s.moves = .host t :: ms) : step s = startRequest r (s.taken t rest ms) := by
  rw [step_of_move h.live hm]
  have he : excluded { s with moves := ms } t = false := by
    rcases h.free with h | h <;> simp [excluded, h]
  have h1 : ({ s with moves := ms } : State).thread t = s.thread t := rfl
  unfold perform hostMove
  dsimp only
  rw [he, h1, h.idle]
  dsimp only
  rw [h.queued]
  rfl

end Sys2Proof.Machine
end

