-- ==== Sys2Proof/Tests/Slice0.lean ====
section
/-! SUPPORT. Sys2Proof/Tests/Slice0.lean: small tests of one step each; expected results are the spec's own (95_test_vectors
and the rules named), never the model's answers. -/

namespace Sys2Proof.Tests

open Sys2Proof Sys2Proof.Machine

/-! ## WellFormed: one ill-formed term for each check -/

def goodDesc : Desc := ⟨none, -1, 1, 0, 0, false, false, [0xE081, 0x0001]⟩

theorem test_wf_rw_alias : (Instr.writeRw 0x50201038#32 0#32).wellFormed = false := by decide
theorem test_wf_xor_alias : (Instr.writeXor 0x50200038#32 0#32).wellFormed = false := by decide
theorem test_wf_set_alias : (Instr.writeSet 0x50203000#32 0#32).wellFormed = false := by decide
theorem test_wf_clr_alias : (Instr.writeClr 0x50202000#32 0#32).wellFormed = false := by decide
theorem test_wf_alloc_p : (Instr.alloc (2 ^ 32) 1#32 0 false).wellFormed = false := by decide
theorem test_wf_alloc_origin : (Instr.alloc 0 1#32 (2 ^ 31) false).wellFormed = false := by decide
theorem test_wf_imclear_p : (Instr.imclear (2 ^ 32)).wellFormed = false := by decide
theorem test_wf_dealloc_offset : (Instr.dealloc 0 goodDesc (-2 ^ 31 - 1)).wellFormed = false := by decide
theorem test_wf_empty_id : (Instr.addprog 0 { goodDesc with id := some [] }).wellFormed = false := by decide
theorem test_wf_desc_origin : (Instr.addprogat 0 { goodDesc with origin := 2 ^ 31 } 0).wellFormed = false := by decide
theorem test_wf_desc_wrap : (Instr.rmprog 0 { goodDesc with wrap := 2 ^ 32 } 0).wellFormed = false := by decide
theorem test_wf_desc_target : (Instr.rmprog 0 { goodDesc with wrapTarget := 2 ^ 32 } 0).wellFormed = false := by decide
theorem test_wf_desc_count : (Instr.addprog 0 { goodDesc with sideSetCount := 2 ^ 32 }).wellFormed = false := by decide
theorem test_wf_desc_word : (Instr.addprog 0 { goodDesc with instrs := [2 ^ 32] }).wellFormed = false := by decide
theorem test_wf_good : (Instr.addprogat 0 goodDesc 31).wellFormed = true := by decide

/-! ## Decoding: words written out from 30_encoding (R103, R104, R110) and 95_test_vectors 2.1 -/

theorem test_decode_read : decode (.txn [0x00#8, 0x04#8, 0x00#8, 0x20#8, 0x50#8]) = .ok (.read 0x50200004#32) := by decide
theorem test_decode_write_rw :
    decode (.txn [0x01#8, 0xC8#8, 0x00#8, 0x20#8, 0x50#8, 0x00#8, 0x80#8, 0x02#8, 0x00#8]) =
      .ok (.writeRw 0x502000C8#32 0x00028000#32) := by decide
theorem test_decode_write_xor :
    decode (.txn [0x01#8, 0x38#8, 0x10#8, 0x20#8, 0x50#8, 0xFF#8, 0x00#8, 0x00#8, 0x00#8]) =
      .ok (.writeXor 0x50201038#32 0x000000FF#32) := by decide
theorem test_decode_write_set :
    decode (.txn [0x01#8, 0x00#8, 0x20#8, 0x20#8, 0x50#8, 0x01#8, 0x00#8, 0x00#8, 0x00#8]) =
      .ok (.writeSet 0x50202000#32 0x00000001#32) := by decide
theorem test_decode_write_clr :
    decode (.txn [0x01#8, 0x00#8, 0x30#8, 0x20#8, 0x50#8, 0x05#8, 0x00#8, 0x00#8, 0x00#8]) =
      .ok (.writeClr 0x50203000#32 0x00000005#32) := by decide
theorem test_decode_writem :
    decode (.txn [0x02#8, 0xD0#8, 0x00#8, 0x20#8, 0x50#8, 0x00#8, 0x00#8, 0x00#8, 0x80#8, 0x00#8, 0x00#8, 0x00#8, 0x80#8,
      0x01#8]) = .ok (.writem 0x502000D0#32 0x80000000#32 0x80000000#32 true) := by decide
theorem test_decode_wait :
    decode (.txn [0x03#8, 0x04#8, 0x00#8, 0x20#8, 0x50#8, 0x00#8, 0x00#8, 0x00#8, 0x00#8, 0x00#8, 0x00#8, 0x00#8, 0x01#8,
      0x80#8, 0x02#8, 0x05#8]) = .ok (.wait 0x50200004#32 0#32 0x01000000#32 256 5) := by decide
/-- A full period of a 64-bit counter, 2^64, is a legal timeout (R103): nine groups of seven zero bits, then 2. -/
theorem test_decode_wait_full_period :
    decode (.txn ([0x03#8, 0x04#8, 0x00#8, 0x20#8, 0x50#8] ++ List.replicate 8 0#8 ++ List.replicate 9 0x80#8 ++
      [0x02#8, 0x00#8])) = .ok (.wait 0x50200004#32 0#32 0#32 (2 ^ 64) 0) := by decide
theorem test_decode_provides :
    decode (.txn [0x04#8, 0x04#8, 0x30#8, 0x20#8, 0x50#8]) = .ok (.provides 0x50203004#32) := by decide
theorem test_decode_label : decode (.txn [0x05#8, 0xD8#8, 0x00#8, 0x20#8, 0x50#8]) = .ok (.label 0x502000D8#32) := by decide
theorem test_decode_alloc :
    decode (.txn [0x06#8, 0#8, 0#8, 0#8, 0#8, 0x01#8, 0#8, 0#8, 0#8, 0x07#8, 0#8, 0#8, 0#8, 0xFF#8, 0xFF#8, 0xFF#8, 0xFF#8,
      0x01#8]) = .ok (.alloc 1 0x7#32 (-1) true) := by decide
theorem test_decode_imclear :
    decode (.txn [0x08#8, 0#8, 0#8, 0#8, 0#8, 0x01#8, 0#8, 0#8, 0#8]) = .ok (.imclear 1) := by decide

/-- The bytes of the descriptor {id = "p", origin = 30, wrap = 1, wrap_target = 30, side_set = 2 opt, instrs = [0xA042,
0x001E]} by the layout of log 1. -/
def descBytes : List Byte :=
  [0x01#8, 0x70#8, 0x1E#8, 0#8, 0#8, 0#8, 0x01#8, 0#8, 0#8, 0#8, 0x1E#8, 0#8, 0#8, 0#8, 0x02#8, 0#8, 0#8, 0#8, 0x01#8,
    0x00#8, 0x02#8, 0x42#8, 0xA0#8, 0#8, 0#8, 0x1E#8, 0#8, 0#8, 0#8]

def descRead : Desc := ⟨some [0x70#8], 30, 1, 30, 2, true, false, [0xA042, 0x001E]⟩

theorem test_decode_dealloc :
    decode (.txn ([0x07#8, 0#8, 0#8, 0#8, 0#8, 0x01#8, 0#8, 0#8, 0#8] ++ descBytes ++ [0x1E#8, 0#8, 0#8, 0#8])) =
      .ok (.dealloc 1 descRead 30) := by decide
theorem test_decode_addprog :
    decode (.txn ([0x09#8, 0#8, 0#8, 0#8, 0#8, 0x00#8, 0#8, 0#8, 0#8] ++ descBytes)) = .ok (.addprog 0 descRead) := by
  decide
theorem test_decode_addprogat :
    decode (.txn ([0x0A#8, 0#8, 0#8, 0#8, 0#8, 0x00#8, 0#8, 0#8, 0#8] ++ descBytes ++ [0x1F#8, 0#8, 0#8, 0#8])) =
      .ok (.addprogat 0 descRead 31) := by decide
theorem test_decode_rmprog :
    decode (.txn ([0x0B#8, 0#8, 0#8, 0#8, 0#8, 0x01#8, 0#8, 0#8, 0#8] ++ descBytes ++ [0x1E#8, 0#8, 0#8, 0#8])) =
      .ok (.rmprog 1 descRead 30) := by decide
theorem test_decode_jmp : decode (.pio 0b0000000000011111#16) = .ok (.jmpAlways 31#5) := by decide
theorem test_decode_set_pins : decode (.pio 0b1110000000000001#16) = .ok (.setPins 1#5) := by decide
theorem test_decode_set_pindirs : decode (.pio 0b1110000010011111#16) = .ok (.setPindirs 0x1F#5) := by decide
theorem test_decode_out_null : decode (.pio 0b0110000001100000#16) = .ok .outNull32 := by decide
theorem test_decode_pull : decode (.pio 0b1000000010000000#16) = .ok .pullNoblock := by decide
theorem test_decode_other_word : decode (.pio 0xA042#16) = .error (.notSynthesised 0xA042#16) := by decide

/-- 95_test_vectors 2.1: headers 0x0C, 0x0F and 0x12 are illegal whatever follows. -/
theorem test_decode_illegal :
    decode (.txn [0x0C#8]) = .error (.illegalOperation 0x0C#8) ∧
    decode (.txn [0x0F#8, 0x03#8]) = .error (.illegalOperation 0x0F#8) ∧
    decode (.txn [0x12#8]) = .error (.illegalOperation 0x12#8) := by decide
theorem test_decode_bad_flag :
    decode (.txn [0x02#8, 0#8, 0#8, 0#8, 0#8, 0#8, 0#8, 0#8, 0#8, 0#8, 0#8, 0#8, 0#8, 2#8]) =
      .error (.illegalArgument 2) := by decide
theorem test_decode_truncated : decode (.txn [0x01#8, 0x04#8, 0x00#8, 0x20#8, 0x50#8]) = .error .truncated := by decide
theorem test_table_word :
    decodeTableWord 40 0x0150201038 = some (.writeXor 0x50201038#32 0#32) ∧
    decodeTableWord 16 0xE085 = some (.setPindirs 5#5) ∧ decodeTableWord 40 0x0C00000000 = none := by decide

/-! ## Helpers of the execution tests -/

/-- 95_test_vectors: BLOCKS = [PIO0, PIO1], IMEM_READ_MODE = stored, 8-bit counters, cycles at 0xFE. -/
def params8 : Params := { Config.resetParams with cycleBits := 8, millisBits := 8 }

def s0 : State := State.resetWith params8 0xFE 0

/-- The state after an instruction, or the state before it where there is none. -/
def after (i : Instr) (s : State) : State :=
  match exec i s with
  | .next t => t
  | .fault _ => s
  | .refused _ => s

/-- The result thread 0 has after an instruction. -/
def answer (i : Instr) (s : State) : Option Result := ((after i s).thread 0).result

def withSm (s : State) (p : PioId) (n : SmId) (f : Sm → Sm) : State := s.modSm p n f
def withOcc (s : State) (p : PioId) (v : Word) : State := s.modPio p fun x => { x with occ := v }
def withBypass (v : Word) : State := s0.modPio 0 fun x => { x with inputSyncBypass := v }

/-! ## READ, PROVIDES, LABEL (95_test_vectors 2.2) -/

theorem test_read_fstat_at_code_one : answer (.read 0x50201004#32) s0 = some (.word 0x0F000F00#32) := by decide
theorem test_read_resets :
    answer (.read 0x502000FC#32) s0 = some (.word 0x0001F000#32) ∧
    answer (.read 0x50200110#32) s0 = some (.word 0x00010000#32) ∧
    answer (.read 0x502000F4#32) s0 = some (.word 0x14000000#32) ∧
    answer (.read 0x50200044#32) s0 = some (.word 0x00200404#32) ∧
    answer (.read 0x50200128#32) s0 = some (.word 0x000000F0#32) := by decide
theorem test_read_errors :
    answer (.read 0x501FFFFC#32) s0 = some (.error (.addrUnmapped 0x501FFFFC#32)) ∧
    answer (.read 0x50204000#32) s0 = some (.error (.addrUnmapped 0x50204000#32)) ∧
    answer (.read 0x60000001#32) s0 = some (.error (.addrMisaligned 0x60000001#32)) := by decide
theorem test_provides :
    answer (.provides 0x50200140#32) s0 = some (.word 1#32) ∧ answer (.provides 0x50200144#32) s0 = some (.word 0#32) ∧
    answer (.provides 0x50200002#32) s0 = some (.word 0#32) := by decide
theorem test_label :
    answer (.label 0x502000D8#32) s0 = some (.label "PIO0_SM0_INSTR") ∧
    answer (.label 0x5030312C#32) s0 = some (.label "PIO1_IRQ0_INTE") := by decide
theorem test_label_imem : answer (.label 0x502000C4#32) s0 = some (.label "PIO0_INSTR_MEM31") := by decide

/-- An opaque block placed before PIO0 takes the address, one placed after does not (R142). -/
theorem test_first_match :
    ({ s0 with params := { params8 with blocks := [.csr 0, .device 0x14080040#30 16 "X"] } } : State).resolve
      0x50200100#32 = .hit (.csr 0) 64 0#2 ∧
    ({ s0 with params := { params8 with blocks := [.device 0x14080040#30 16 "X", .csr 0] } } : State).resolve
      0x50200100#32 = .hit (.device 0x14080040#30 16 "X") 0 0#2 := by decide

/-! ## WRITE and WRITEM (95_test_vectors 2.4, 2.5) -/

theorem test_write_rw :
    ((after (.writeRw 0x50200038#32 0x12345678#32) (withBypass 0xF0F0#32)).pio 0).inputSyncBypass = 0x12345678#32 := by
  decide
theorem test_write_xor :
    ((after (.writeXor 0x50201038#32 0xFF#32) (withBypass 0xF0F0#32)).pio 0).inputSyncBypass = 0xF00F#32 := by decide
theorem test_write_set :
    ((after (.writeSet 0x50202038#32 0x0F000000#32) (withBypass 0xF0F0#32)).pio 0).inputSyncBypass = 0x0F00F0F0#32 := by
  decide
theorem test_write_clr :
    ((after (.writeClr 0x50203038#32 0xF000#32) (withBypass 0xF0F0#32)).pio 0).inputSyncBypass = 0xF0#32 := by decide
theorem test_writem :
    ((after (.writem 0x50200038#32 0x0F#32 0xFF#32 true) (withBypass 0xF0#32)).pio 0).inputSyncBypass = 0xFF#32 := by
  decide
theorem test_writem_at_code_one :
    (after (.writem 0x50201038#32 0#32 0#32 false) s0).refusalMark = some .writemAtAlias ∧
    answer (.writem 0x50201144#32 0#32 0#32 false) s0 = some (.error (.addrUnmapped 0x50201144#32)) := by decide

/-- 2.5: CTRL <- 0x0F0F enables all four and emits ClkdivRestart(0, 0xF) only. -/
theorem test_ctrl_write :
    ((after (.writeRw 0x50200000#32 0x0F0F#32) s0).pio 0).smEnable = 0xF#4 ∧
    (after (.writeRw 0x50200000#32 0x0F0F#32) s0).history =
      [.clkdivRestart 0 0xF#4, .wr 0x50200000#32 0x0F0F#32 0xFFFFFFFF#32 false] := by decide

/-- 2.5: FDEBUG 0x00020200, the SET form clears a flag, the CLR and XOR forms clear nothing. -/
theorem test_fdebug_write_one_to_clear :
    let s := s0.modPio 0 fun x => { x with txover := 2#4, rxunder := 2#4 }
    ((after (.writeRw 0x50200008#32 0x200#32) s).pio 0).fdebug = 0x20000#32 ∧
    ((after (.writeXor 0x50201008#32 0x20000#32) s).pio 0).fdebug = 0x20200#32 ∧
    ((after (.writeClr 0x50203008#32 0x20000#32) s).pio 0).fdebug = 0x20200#32 ∧
    ((after (.writeSet 0x50202008#32 0x20000#32) s).pio 0).fdebug = 0x200#32 := by decide

/-- 2.5: the fifth word to TXF1 is dropped: FDEBUG, FLEVEL, FSTAT and INTR as listed. -/
theorem test_txf_overflow :
    let s := withSm s0 0 1 fun m => { m with tx := [0x11#32, 0x22#32, 0x33#32, 0x44#32] }
    let x := (after (.writeRw 0x50200014#32 0x55#32) s).pio 0
    (x.sm 1).tx = [0x11#32, 0x22#32, 0x33#32, 0x44#32] ∧ x.fdebug = 0x20000#32 ∧ x.flevel = 0x400#32 ∧
      x.fstat = 0x0D020F00#32 ∧ x.intr = 0x0D0#12 := by decide

/-- 2.5: SM0 TX with 3 words, SM3 RX with 8 words joined. -/
theorem test_flevel_fstat_joined :
    let x := (withSm (withSm s0 0 0 fun m => { m with tx := [1#32, 2#32, 3#32] }) 0 3 fun m =>
      { m with shiftctrl := 0x800C0000#32, rx := List.replicate 8 0#32 }).pio 0
    x.flevel = 0x80000003#32 ∧ x.fstat = 0x0E080708#32 := by decide

/-- A pop, and an underflow (R191). -/
theorem test_rxf_read :
    let s := withSm s0 0 2 fun m => { m with rx := [0x42#32, 0x43#32] }
    answer (.read 0x50200028#32) s = some (.word 0x42#32) ∧
    ((after (.read 0x50200028#32) s).sm 0 2).rx = [0x43#32] ∧
    ((after (.read 0x50200024#32) s0).pio 0).fdebug = 0x200#32 := by decide

/-- 2.5: joins flush, and both joins are refused. -/
theorem test_shiftctrl :
    let s := withSm s0 0 0 fun m => { m with tx := [1#32, 2#32, 3#32] }
    ((after (.writeRw 0x502000D0#32 0x000E0000#32) s).sm 0 0).tx = [1#32, 2#32, 3#32] ∧
    ((after (.writeRw 0x502000D0#32 0x400C0000#32) s).sm 0 0).tx = [] ∧
    (after (.writeRw 0x502000D0#32 0xC00C0000#32) s).refusalMark = some .bothJoined ∧
    ((after (.writeRw 0x502000D0#32 0x3FFFFFFF#32) s0).sm 0 0).shiftctrl = 0x3FFF0000#32 := by decide

theorem test_other_registers :
    answer (.read 0x502000CC#32) (after (.writeRw 0x502000CC#32 0xFFFFFFFF#32) s0) = some (.word 0x7FFFFF9F#32) ∧
    answer (.read 0x502000C8#32) (after (.writeRw 0x502000C8#32 0xFFFFFFFF#32) s0) = some (.word 0xFFFFFF00#32) ∧
    answer (.read 0x5020005C#32) (after (.writeRw 0x5020005C#32 0x1234ABCD#32) s0) = some (.word 0xABCD#32) ∧
    answer (.read 0x502000D8#32) (after (.writeRw 0x50200048#32 0xE081#32) s0) = some (.word 0xE081#32) ∧
    (after (.writeRw 0x50200044#32 0#32) s0).pio0 = s0.pio0 := by decide

theorem test_irq_registers :
    let s1 := after (.writeRw 0x50200034#32 0x05#32) s0
    let s2 := after (.writeRw 0x50200030#32 0x01#32) s1
    let s3 := after (.writeRw 0x50200130#32 0x100#32) (after (.writeRw 0x5020012C#32 0x100#32) s2)
    answer (.read 0x50200128#32) s1 = some (.word 0x5F0#32) ∧ (s2.pio 0).irq = 4#8 ∧
      answer (.read 0x50200134#32) s3 = some (.word 0x100#32) ∧ s3.irqOut 0 0 = true ∧ s3.irqOut 0 1 = false := by decide

/-- R211: a forced word is pending; over a stalled one EXEC_OVERWRITE decides. -/
theorem test_instr_write :
    let stalled := withSm s0 0 1 fun m => { m with pending := some 7#16, execStalled := true }
    ((after (.writeRw 0x502000F0#32 0x0007#32) s0).sm 0 1).pending = some 7#16 ∧
    ((after (.writeRw 0x502000F0#32 0x0008#32) stalled).sm 0 1).pending = some 8#16 ∧
    (after (.writeRw 0x502000F0#32 0x0008#32) { stalled with params := { params8 with execOverwrite := .refuse } }).refusalMark
      = some .execWhileStalled ∧
    ((after (.writeRw 0x50200000#32 0x20#32) stalled).sm 0 1).pending = none := by decide

/-! ## WAIT (95_test_vectors 2.3, Q5) -/

theorem test_timed_out :
    timedOut 10 13 12 = false ∧ timedOut 10 13 13 = true ∧ timedOut 10 13 9 = true ∧ timedOut 0xFE 1 0 = false ∧
      timedOut 0xFE 1 1 = true ∧ timedOut 0xFE 1 0x80 = true ∧ timedOut 5 5 200 = false := by decide
theorem test_wait_at_once :
    answer (.wait 0x50200004#32 0x0F000F00#32 0xFFFFFFFF#32 100 0) s0 = some (.word 0x0F000F00#32) ∧
    answer (.wait 0x50200003#32 0#32 0#32 999 0) s0 = some (.error (.illegalArgument [999, 0])) := by decide

/-- Q5: with S = 0xFE and T = 0x01 the poll at 0x00 suspends and the poll at 0x01 times out. -/
theorem test_wait_across_wrap :
    let w := waitStart 0x50200004#32 0#32 0x01000000#32 3 0 s0
    ((waitPoll w { s0 with cycles := 0 }).thread 0).result = none ∧
    ((waitPoll w { s0 with cycles := 1 }).thread 0).result = some (.word 0x01000000#32) := by decide

/-! ## Allocator (95_test_vectors 2.6) -/

theorem test_alloc_wraps :
    answer (.alloc 0 3#32 (-1) false) (withOcc s0 0 0x7FFFFFFE#32) = some (.offset 31) ∧
    ((after (.alloc 0 3#32 (-1) false) (withOcc s0 0 0x7FFFFFFE#32)).pio 0).occ = 0xFFFFFFFF#32 := by decide
theorem test_alloc_fails :
    answer (.alloc 0 0xFFFFFFFF#32 (-1) false) (withOcc s0 0 1#32) =
      some (.error (.allocationFailed 0xFFFFFFFF#32 (-1) 1#32)) ∧
    answer (.alloc 0 0xFFFFFFFF#32 (-1) true) (withOcc s0 0 1#32) = some (.offset (-1)) ∧
    answer (.alloc 2 1#32 (-1) false) s0 = some (.error (.illegalArgument [2, 1, -1])) := by decide

def prog30 : Desc := ⟨none, 30, 1, 30, 0, false, false, [0xA042, 0xA042, 0xA042, 0x001E]⟩
def prog32 : Desc := ⟨none, -1, 31, 0, 0, false, false, List.replicate 32 0⟩

theorem test_dealloc :
    ((after (.dealloc 0 prog30 30) (withOcc s0 0 0xC0000003#32)).pio 0).occ = 0#32 ∧
    ((after (.dealloc 0 prog32 7) (withOcc s0 0 0xFFFFFFFF#32)).pio 0).occ = 0#32 := by decide
theorem test_double_free :
    (after (.dealloc 1 prog30 30) (withOcc s0 1 0x1C#32)).faultMark = some ⟨0xC0000003#32, 0x1C#32⟩ ∧
    ((after (.dealloc 1 prog30 30) (withOcc s0 1 0x1C#32)).pio 1).occ = 0x1C#32 := by decide
theorem test_rmprog :
    ((after (.rmprog 0 goodDesc 0) (withOcc s0 0 3#32)).pio 0).occ = 0#32 := by decide
theorem test_imclear :
    let s := (withOcc s0 0 7#32).modPio 0 fun x => (x.setWord 0 1#16).setWord 31 2#16
    ((after (.imclear 0) s).pio 0).occ = 0#32 ∧ ((after (.imclear 0) s).pio 0).imem = Vector.replicate 32 0#16 := by decide
theorem test_addprog :
    answer (.addprog 0 goodDesc) s0 = some (.offset 0) ∧ ((after (.addprog 0 goodDesc) s0).pio 0).occ = 3#32 ∧
    ((after (.addprog 0 goodDesc) s0).pio 0).word 0 = 0xE081#16 ∧
    ((after (.addprog 0 goodDesc) s0).pio 0).word 1 = 0x0001#16 := by decide
theorem test_addprogat :
    let d : Desc := { goodDesc with instrs := [0xA, 0xB] }
    answer (.addprogat 0 d 31) s0 = some (.offset 31) ∧ ((after (.addprogat 0 d 31) s0).pio 0).occ = 0x80000001#32 ∧
    ((after (.addprogat 0 d 31) s0).pio 0).word 31 = 0xA#16 ∧ ((after (.addprogat 0 d 31) s0).pio 0).word 0 = 0xB#16 := by
  decide
theorem test_addprogat_fails :
    answer (.addprogat 0 goodDesc 31) (withOcc s0 0 1#32) =
      some (.error (.allocationFailed 0x80000001#32 31 1#32)) ∧
    answer (.addprogat 0 prog30 6) s0 = some (.error (.illegalArgument [30, 6])) := by decide

/-- R261, R262: mask and wrap defaults (X4, X9, X12). -/
theorem test_descriptor :
    allocMask prog30 = 0xC0000003#32 ∧ allocMask prog32 = 0xFFFFFFFF#32 ∧ wrapTargetDefault 30 = 30 ∧
    wrapDefault 30 4 = 1 ∧ wrapDefault (-1) 4 = 3 ∧ wrapDefault 5 3 = 7 ∧
    descOk { goodDesc with instrs := [0x10000] } = false ∧ descOk { goodDesc with instrs := [] } = false ∧
    descOk { goodDesc with sideSetOpt := true, sideSetCount := 5 } = false := by decide

/-- R401: the offending values of an empty identifier and of an instruction word above 0xFFFF. -/
theorem test_descriptor_offending :
    answer (.addprog 0 { goodDesc with id := some [] }) s0 = some (.error (.illegalArgument [0])) ∧
    answer (.rmprog 0 { goodDesc with instrs := [1, 0x10000], wrap := 32 } 0) s0 =
      some (.error (.illegalArgument [32, 0x10000])) := by decide

/-! ## Synthesised words: handed to the state machine, not interpreted (R110, R211) -/

def forSm02 : State := { s0 with target := (0, 2) }

theorem test_jmp_always : ((after (.jmpAlways 5#5) forSm02).sm 0 2).pending = some 0x0005#16 := by decide
theorem test_set_pins : ((after (.setPins 0x1F#5) forSm02).sm 0 2).pending = some 0xE01F#16 := by decide
theorem test_set_pindirs : ((after (.setPindirs 1#5) forSm02).sm 0 2).pending = some 0xE081#16 := by decide
theorem test_out_null_32 : ((after .outNull32 forSm02).sm 0 2).pending = some 0x6060#16 := by decide
theorem test_pull_noblock : ((after .pullNoblock forSm02).sm 0 2).pending = some 0x8080#16 := by decide

/-! ## Engine moves (R230, R231) -/

theorem test_no_engine_move_at_reset : engineMove 0 (.popTx 0) s0 = s0 := by decide
theorem test_engine_pops :
    let s := (withSm s0 0 0 fun m => { m with tx := [7#32] }).modPio 0 fun x => { x with smEnable := 1#4 }
    ((engineMove 0 (.popTx 0) s).pio 0).fstat = 0x0F000F00#32 := by decide

/-! ## Configuration builder (95_test_vectors 2.7) -/

theorem test_builder_words :
    setClkdivIntFrac defaultConfig 2 128 = .ok { defaultConfig with clkdiv := 0x00028000#32 } ∧
    setClkdiv defaultConfig 3 2 = .ok { defaultConfig with clkdiv := 0x00018000#32 } ∧
    setClkdiv defaultConfig 65536 1 = .ok { defaultConfig with clkdiv := 0#32 } ∧
    setWrap defaultConfig 6 10 = .ok { defaultConfig with execctrl := 0x0000A300#32 } ∧
    setJmpPin defaultConfig 7 = .ok { defaultConfig with execctrl := 0x0701F000#32 } ∧
    setMovStatus defaultConfig 1 3 = .ok { defaultConfig with execctrl := 0x0001F013#32 } ∧
    setSideset defaultConfig 2 true false =
      .ok { defaultConfig with pinctrl := 0x54000000#32, execctrl := 0x4001F000#32 } ∧
    setOutSpecial defaultConfig true true 9 = .ok { defaultConfig with execctrl := 0x004FF000#32 } := by decide
theorem test_builder_pins_and_shift :
    setOutPins defaultConfig 5 3 = .ok { defaultConfig with pinctrl := 0x14300005#32 } ∧
    setSetPins defaultConfig 25 1 = .ok { defaultConfig with pinctrl := 0x04000320#32 } ∧
    setInPins defaultConfig 3 = .ok { defaultConfig with pinctrl := 0x14018000#32 } ∧
    setSidesetPins defaultConfig 4 = .ok { defaultConfig with pinctrl := 0x14001000#32 } ∧
    setOutShift defaultConfig true true 32 = .ok { defaultConfig with shiftctrl := 0x000E0000#32 } ∧
    setInShift defaultConfig false false 8 = .ok { defaultConfig with shiftctrl := 0x00880000#32 } ∧
    setFifoJoin defaultConfig .rx = { defaultConfig with shiftctrl := 0x800C0000#32 } ∧
    setFifoJoin (setFifoJoin defaultConfig .tx) .none = defaultConfig := by decide
theorem test_builder_rejects :
    setClkdivIntFrac defaultConfig 0 5 = .error (.illegalArgument [5]) ∧
    setClkdiv defaultConfig 1 2 = .error (.illegalArgument [1, 2]) ∧
    setSideset defaultConfig 0 true false = .error (.illegalArgument [0]) ∧
    setOutPins defaultConfig 0 33 = .error (.illegalArgument [33]) ∧
    setOutShift defaultConfig true false 0 = .error (.illegalArgument [0]) := by decide

/-! ## Control protocol (95_test_vectors 2.8, Q1, Q4) -/

theorem test_init_expansion :
    (initTxns 0 0 0 ⟨0x00028000#32, 0x00002000#32, 0x000C0000#32, 0x04000320#32⟩) =
      [.writem 0x50200000#32 0#32 1#32 false, .writeRw 0x502000C8#32 0x00028000#32, .writeRw 0x502000CC#32 0x00002000#32,
       .writeRw 0x502000D0#32 0x000C0000#32, .writeRw 0x502000DC#32 0x04000320#32,
       .writem 0x502000D0#32 0x80000000#32 0x80000000#32 true, .writem 0x502000D0#32 0x80000000#32 0x80000000#32 true,
       .writeRw 0x50200008#32 0x01010101#32, .writem 0x50200000#32 0x10#32 0x10#32 false,
       .writem 0x50200000#32 0x100#32 0x100#32 false, .writeRw 0x502000D8#32 0#32] := by decide
theorem test_pin_windows :
    maskWindows setPinsWord 32 8#32 9#32 = [(0x04000000#32, 0xE000#16), (0x04000060#32, 0xE001#16)] ∧
    (pinWindows 8 32 0 0x21#32).map Prod.snd =
      [0xE001#16, 0xE001#16, 0xE000#16, 0xE000#16, 0xE000#16, 0xE000#16, 0xE000#16] ∧
    (pinWindows 8 32 0 0x21#32).getLast? = some (0x080003C0#32, 0xE000#16) ∧
    dirWindows (setPindirsWord 0x1F#5) 8 30 7 = [(0x140003C0#32, 0xE09F#16), (0x08000060#32, 0xE09F#16)] ∧
    dirWindows (setPindirsWord 0#5) 8 4 0 = [(0x00000080#32, 0xE080#16)] ∧
    maskWindows setPindirsWord 32 0xFFFFFFFF#32 0x80000000#32 = [(0x040003E0#32, 0xE081#16)] := by decide
theorem test_macro_checks :
    macroStart (.smSetEnabled 0 4 1) = .error (.illegalArgument [0, 4, 1]) ∧
    macroStart (.restartSmMask 0 0x10) = .error (.illegalArgument [0, 16]) ∧
    macroStart (.smExec 0 0 0x10000) = .error (.illegalArgument [0, 0, 65536]) ∧
    macroStart (.smSetConsecutivePinDirs 0 0 0 33 true) = .error (.illegalArgument [0, 0, 0, 33]) ∧
    macroStart (.enableSmMaskInSync 0 3) = .ok (plainMacro [.writem 0x50200000#32 0x303#32 0x303#32 false] .done) := by
  decide

/-! ## Steps -/

/-- The outcome's kind: 0 next, 1 fault, 2 refused. -/
def kind (o : Host.Outcome State Fault Refusal) : Nat :=
  match o with
  | .next _ => 0
  | .fault _ => 1
  | .refused _ => 2

theorem test_first_steps_from_reset :
    kind (step (State.reset.withFetchWord 40 0x0050200004)) = 0 ∧
    kind (step (State.reset.withFetchWord 40 0x0300000000)) = 0 ∧
    kind (step (State.reset.withFetchWord 40 0x0A00000000)) = 0 ∧
    kind (step (State.reset.withFetchWord 16 0x8080)) = 0 := by decide
theorem test_marked_machine_stops :
    kind (step { s0 with faultMark := some ⟨0#32, 0#32⟩ }) = 1 ∧
    kind (step { s0 with refusalMark := some .bothJoined }) = 2 := by decide

/-! ## Witnesses: for each obligation with hypotheses, states and operands that meet them, clause by clause -/

/-- Host thread 0 asks for r, and moves next. -/
def asking (r : Request) : State := { s0.setThread 0 { queue := [r], op := .idle, result := none } with moves := [.host 0] }

/-- A machine with an opaque block of four registers before the two PIOs. -/
def sDev : State :=
  { s0 with params := { params8 with blocks := [.device 0x10000000#30 4 "X", .csr 0, .csr 1] } }

theorem witness_decode_of_encode :
    (Instr.alloc (2 ^ 32 - 1) 0xFFFFFFFF#32 (-2 ^ 31) true).wellFormed = true ∧
    (Instr.wait 0xFFFFFFFF#32 0#32 0#32 (2 ^ 64) (2 ^ 65)).wellFormed = true ∧
    (Instr.writeClr 0x50203140#32 1#32).wellFormed = true := by decide
theorem witness_decoded_is_well_formed :
    decode (.txn [0x01#8, 0x38#8, 0x10#8, 0x20#8, 0x50#8, 0xFF#8, 0x00#8, 0x00#8, 0x00#8]) =
      .ok (.writeXor 0x50201038#32 0xFF#32) ∧ decode (.pio 0xE09F#16) = .ok (.setPindirs 31#5) := by decide
theorem witness_asks (r : Request) : (asking r).Asks 0 r [] ∧ (asking r).moves = .host 0 :: [] :=
  ⟨⟨⟨rfl, rfl⟩, .inl rfl, rfl, rfl⟩, rfl⟩
theorem witness_reserved_header :
    0xC ≤ ((0x0C#8).extractLsb' 0 4).toNat ∧ (0x10#8).extractLsb' 4 4 ≠ 0#4 ∧ (0x80#8).extractLsb' 4 4 ≠ 0#4 := by decide
theorem witness_step_runs_decoded :
    decode (.txn [0x00#8, 0x04#8, 0x00#8, 0x20#8, 0x50#8]) = .ok (.read 0x50200004#32) ∧
    (asking (.txn [0x00#8, 0x04#8, 0x00#8, 0x20#8, 0x50#8])).Asks 0 (.txn [0x00#8, 0x04#8, 0x00#8, 0x20#8, 0x50#8]) [] ∧
    decode (.pio 0x6060#16) = .ok .outNull32 ∧ (asking (.word 1 3 0x6060#16)).Asks 0 (.word 1 3 0x6060#16) [] :=
  ⟨by decide, (witness_asks _).1, by decide, (witness_asks _).1⟩
theorem witness_marked :
    ({ s0 with faultMark := some ⟨1#32, 0#32⟩ } : State).faultMark = some ⟨1#32, 0#32⟩ ∧
    ({ s0 with refusalMark := some .bothJoined } : State).faultMark = none ∧
    ({ s0 with refusalMark := some .bothJoined } : State).refusalMark = some .bothJoined := by decide
theorem witness_bad_address :
    (0x50200001#32).extractLsb' 0 2 ≠ 0#2 ∧ (0x60000003#32).extractLsb' 0 2 ≠ 0#2 ∧
    (0x50200144#32).extractLsb' 0 2 = 0#2 ∧
    (∀ b ∈ s0.params.blocks, ¬ ((((0x50200144#32 - blockBase b) &&& ~~~0x3000#32) >>> 2).toNat < blockSize b)) := by decide
theorem witness_first_match :
    (0x50303140#32).extractLsb' 0 2 = 0#2 ∧ s0.params.blocks = [.csr 0] ++ .csr 1 :: [] ∧
    (∀ c ∈ [Block.csr 0], ¬ ((((0x50303140#32 - blockBase c) &&& ~~~0x3000#32) >>> 2).toNat < blockSize c)) ∧
    (((0x50303140#32 - blockBase (.csr 1)) &&& ~~~0x3000#32) >>> 2).toNat < blockSize (.csr 1) := by decide
theorem witness_four_windows : s0.params.blocks = [.csr 0, .csr 1] ∧ 80 < 81 := by decide

/-- The registers the witnesses touch, each at an alias code of its window. -/
theorem witness_hits (p : PioId) (r : Reg) (a : BitVec 2) :
    Hits s0 (pioBase p + 0x1000#32 * a.setWidth 32 + 4#32 * BitVec.ofNat 32 (regIndex r)) p r a :=
  hits_window s0 p r a rfl
theorem witness_label :
    Hits s0 0x50303140#32 1 (.ints 1) 3#2 ∧ sDev.resolve 0x4000300C#32 = .hit (.device 0x10000000#30 4 "X") 3 3#2 ∧
    s0.resolve 0x50200002#32 = .misaligned ∧ s0.resolve 0x50200144#32 = .unmapped :=
  ⟨witness_hits 1 (.ints 1) 3, by decide, by decide, by decide⟩
theorem witness_plain_read : Hits s0 0x50203140#32 0 (.ints 1) 3#2 ∧ plainRead (.ints 1) = true :=
  ⟨witness_hits 0 (.ints 1) 3, rfl⟩

/-- The reset machine is sound, and so is one with a joined FIFO full. -/
theorem witness_sound : s0.Sound where
  sms p n := by
    match p, n with
    | 0, 0 | 0, 1 | 0, 2 | 0, 3 | 1, 0 | 1, 1 | 1, 2 | 1, 3 => constructor <;> decide
  cyclesIn := by decide
  millisIn := by decide
def joined : State := withSm s0 0 3 fun m => { m with shiftctrl := 0x800C0000#32, rx := List.replicate 8 0#32 }
theorem witness_sound_full : joined.Sound ∧ (joined.sm 0 3).rx.length = 8 :=
  ⟨{ sms := fun p n => by
      match p, n with
      | 0, 0 | 0, 1 | 0, 2 | 0, 3 | 1, 0 | 1, 1 | 1, 2 | 1, 3 => constructor <;> decide
     cyclesIn := by decide
     millisIn := by decide }, by decide⟩
theorem witness_join_modes :
    ((joined.sm 0 3).shiftctrl.getLsbD 31 = true ∧ (joined.sm 0 3).shiftctrl.getLsbD 30 = false) ∧
    ((s0.sm 0 0).shiftctrl.getLsbD 31 = false ∧ (s0.sm 0 0).shiftctrl.getLsbD 30 = false) ∧
    (0x400C0000#32).getLsbD 31 = false ∧ (0x400C0000#32).getLsbD 30 = true ∧
    ¬ (true = true ∧ false = true) := by decide
theorem witness_rxf :
    Hits joined 0x5020002C#32 0 (.rxf 3) 0#2 ∧ (joined.sm 0 3).rxReadsEmpty = false ∧
    (joined.sm 0 3).rx = 0#32 :: List.replicate 7 0#32 ∧
    Hits s0 0x50203020#32 0 (.rxf 0) 3#2 ∧ (s0.sm 0 0).rxReadsEmpty = true ∧
    Writes (.writem 0x5020002C#32 1#32 1#32 false) joined 0x5020002C#32 0 (.rxf 3) 1#32 1#32 false :=
  ⟨hits_regAddr joined 0 (.rxf 3) rfl, by decide, by decide, witness_hits 0 (.rxf 0) 3, by decide,
    .inl ⟨rfl, hits_regAddr joined 0 (.rxf 3) rfl⟩⟩
def drawing : State := { s0 with params := { params8 with imemReadMode := .draw } }
def stalled : State := withSm s0 0 1 fun m => { m with pending := some 7#16, execStalled := true }
theorem witness_instruction_words :
    (Hits s0 0x502000C4#32 0 (.instrMem 31) 0#2 ∧ s0.params.imemReadMode = .stored) ∧
    (Hits drawing 0x50200048#32 0 (.instrMem 0) 0#2 ∧ drawing.params.imemReadMode = .draw) ∧
    (Hits s0 0x50200120#32 0 (.smInstr 3) 0#2 ∧ (s0.sm 0 3).pending = none) ∧
    (Hits stalled 0x502000F0#32 0 (.smInstr 1) 0#2 ∧ (stalled.sm 0 1).pending ≠ none) :=
  ⟨⟨hits_regAddr s0 0 (.instrMem 31) rfl, rfl⟩, ⟨hits_regAddr drawing 0 (.instrMem 0) rfl, rfl⟩,
    ⟨hits_regAddr s0 0 (.smInstr 3) rfl, rfl⟩, hits_regAddr stalled 0 (.smInstr 1) rfl, by decide⟩
theorem witness_opaque_block :
    sDev.resolve 0x40000000#32 = .hit (.device 0x10000000#30 4 "X") 0 0#2 ∧
    sDev.resolve 0x4000300C#32 = .hit (.device 0x10000000#30 4 "X") 3 3#2 := by decide

/-- The five forms of a write transaction, on any register of the block (boundary data). -/
theorem witness_writes (p : PioId) (r : Reg) :
    let at' : BitVec 2 → Word := fun a => pioBase p + 0x1000#32 * a.setWidth 32 + 4#32 * BitVec.ofNat 32 (regIndex r)
    Writes (.writem (at' 0) 0xFFFFFFFF#32 0#32 true) s0 (at' 0) p r 0xFFFFFFFF#32 0#32 true ∧
    Writes (.writeRw (at' 0) 0xFFFFFFFF#32) s0 (at' 0) p r 0xFFFFFFFF#32 0xFFFFFFFF#32 false ∧
    Writes (.writeXor (at' 1) 0#32) s0 (at' 1) p r 0#32 0#32 true ∧
    Writes (.writeSet (at' 2) 1#32) s0 (at' 2) p r 1#32 1#32 false ∧
    Writes (.writeClr (at' 3) 0x80000000#32) s0 (at' 3) p r (~~~0x80000000#32) 0x80000000#32 false :=
  ⟨.inl ⟨rfl, witness_hits p r 0⟩, .inr (.inl ⟨rfl, witness_hits p r 0, rfl, rfl⟩),
    .inr (.inr (.inl ⟨rfl, witness_hits p r 1, rfl, rfl⟩)),
    .inr (.inr (.inr (.inl ⟨rfl, witness_hits p r 2, rfl, rfl⟩))),
    .inr (.inr (.inr (.inr ⟨rfl, witness_hits p r 3, rfl, rfl⟩)))⟩
theorem witness_flag_write :
    Hits s0 0x50202008#32 0 .fdebug 2#2 ∧ ∃ t, exec (writeForm 2#2 0x50202008#32 0x01010101#32) s0 = .next t :=
  ⟨witness_hits 0 .fdebug 2, _, rfl⟩
theorem witness_read_only : readOnly .fstat = true ∧ readOnly (.ints 1) = true := by decide
def txFull : State := withSm s0 0 1 fun m => { m with tx := [0x11#32, 0x22#32, 0x33#32, 0x44#32] }
theorem witness_txf :
    (Writes (.writeRw 0x50200014#32 5#32) txFull 0x50200014#32 0 (.txf 1) 5#32 0xFFFFFFFF#32 false ∧
      (txFull.sm 0 1).txReadsFull = true) ∧
    (Writes (.writem 0x5020001C#32 5#32 0#32 false) s0 0x5020001C#32 0 (.txf 3) 5#32 0#32 false ∧
      (s0.sm 0 3).txReadsFull = false) :=
  ⟨⟨.inr (.inl ⟨rfl, hits_regAddr txFull 0 (.txf 1) rfl, rfl, rfl⟩), by decide⟩,
    .inl ⟨rfl, hits_regAddr s0 0 (.txf 3) rfl⟩, by decide⟩
theorem witness_shiftctrl_flushes :
    Writes (.writeRw 0x502000D0#32 0x7FFFFFFF#32) s0 0x502000D0#32 0 (.smShiftctrl 0) 0x7FFFFFFF#32 0xFFFFFFFF#32 false ∧
    ¬ ((maskedValue (s0.sm 0 0).shiftctrl 0x7FFFFFFF#32 0xFFFFFFFF#32 false).getLsbD 31 = true ∧
      (maskedValue (s0.sm 0 0).shiftctrl 0x7FFFFFFF#32 0xFFFFFFFF#32 false).getLsbD 30 = true) :=
  ⟨.inr (.inl ⟨rfl, witness_hits 0 (.smShiftctrl 0) 0, rfl, rfl⟩), by decide⟩
theorem witness_both_joins :
    Writes (.writeSet 0x502020D0#32 0xC0000000#32) s0 0x502020D0#32 0 (.smShiftctrl 0) 0xC0000000#32 0xC0000000#32 false ∧
    (maskedValue (s0.sm 0 0).shiftctrl 0xC0000000#32 0xC0000000#32 false).getLsbD 31 = true ∧
    (maskedValue (s0.sm 0 0).shiftctrl 0xC0000000#32 0xC0000000#32 false).getLsbD 30 = true :=
  ⟨.inr (.inr (.inr (.inl ⟨rfl, witness_hits 0 (.smShiftctrl 0) 2, rfl, rfl⟩))), by decide, by decide⟩
def stalledRefuse : State := { stalled with params := { params8 with execOverwrite := .refuse } }
theorem witness_instr_write :
    (Writes (.writeRw 0x502000F0#32 8#32) stalled 0x502000F0#32 0 (.smInstr 1) 8#32 0xFFFFFFFF#32 false ∧
      ¬ ((stalled.sm 0 1).pending ≠ none ∧ (stalled.sm 0 1).execStalled = true ∧
        stalled.params.execOverwrite = .refuse)) ∧
    (Writes (.writeRw 0x502000F0#32 8#32) stalledRefuse 0x502000F0#32 0 (.smInstr 1) 8#32 0xFFFFFFFF#32 false ∧
      (stalledRefuse.sm 0 1).pending ≠ none ∧ (stalledRefuse.sm 0 1).execStalled = true ∧
      stalledRefuse.params.execOverwrite = .refuse) :=
  ⟨⟨.inr (.inl ⟨rfl, hits_regAddr stalled 0 (.smInstr 1) rfl, rfl, rfl⟩), by decide⟩,
    .inr (.inl ⟨rfl, hits_regAddr stalledRefuse 0 (.smInstr 1) rfl, rfl, rfl⟩), by decide⟩
theorem witness_writem_at_alias :
    s0.resolve 0x50201038#32 = .hit (.csr 0) 14 1#2 ∧ sDev.resolve 0x40003000#32 = .hit (.device 0x10000000#30 4 "X") 0 3#2 ∧
    1#2 ≠ 0#2 ∧ 3#2 ≠ 0#2 := by decide
theorem witness_forwarded :
    forSm02.target = (0, 2) ∧ Hits forSm02 (regAddr 0 (.smInstr 2)) 0 (.smInstr 2) 0#2 ∧
    ¬ ((forSm02.sm 0 2).pending ≠ none ∧ (forSm02.sm 0 2).execStalled = true ∧
      forSm02.params.execOverwrite = .refuse) :=
  ⟨rfl, hits_regAddr forSm02 0 (.smInstr 2) rfl, by decide⟩

theorem witness_timed_out : 0xFE < 256 ∧ 1 < 256 ∧ 255 < 256 := by decide

/-- At reset FSTAT answers 0x0F000F00: the first poll matches, does not match, ends with an error. -/
theorem witness_wait :
    (∃ t, exec (.read 0x50200004#32) s0 = .next t ∧ (t.thread s0.turn).result = some (.word 0x0F000F00#32)) ∧
    0x0F000F00#32 &&& 0x01000000#32 = 0x01000000#32 ∧ 0x0F000F00#32 &&& 0x01000000#32 ≠ 0#32 ∧
    Hits s0 0x50200004#32 0 .fstat 0#2 ∧ plainRead .fstat = true ∧
    (∃ t, exec (.read 0x50200144#32) s0 = .next t ∧
      (t.thread s0.turn).result = some (.error (.addrUnmapped 0x50200144#32))) ∧
    256 ≤ 2 ^ s0.params.cycleBits ∧ 256 ≤ 2 ^ s0.params.millisBits ∧ 2 ^ s0.params.cycleBits < 257 :=
  ⟨⟨after (.read 0x50200004#32) s0, rfl, by decide⟩, by decide, by decide, witness_hits 0 .fstat 0, rfl,
    ⟨after (.read 0x50200144#32) s0, rfl, by decide⟩, by decide, by decide, by decide⟩

/-- A thread that waits for TXEMPTY of SM0 to clear, its poll enabled or not, with a move to come. -/
def waitFor (may : Bool) : WaitState := { waitStart 0x50200004#32 0#32 0x01000000#32 3 0 s0 with mayPoll := may }
def waiting (may : Bool) (m : Move) : State :=
  { s0.setThread 0 { queue := [], op := .waiting (waitFor may), result := none } with moves := [m] }
theorem witness_suspended (m : Move) :
    (waiting false m).Live ∧ ((waiting false m).thread 0).op = .waiting (waitFor false) ∧ (waitFor false).mayPoll = false ∧
    (waiting false m).moves = m :: [] := ⟨⟨rfl, rfl⟩, rfl, rfl, rfl⟩
theorem witness_poll :
    let s := waiting true (.host 0)
    s.Live ∧ s.critical = none ∧ (s.thread 0).op = .waiting (waitFor true) ∧ (waitFor true).mayPoll = true ∧
    s.moves = .host 0 :: [] ∧ Hits s (waitFor true).addr 0 .fstat 0#2 ∧ plainRead .fstat = true :=
  ⟨⟨rfl, rfl⟩, rfl, rfl, rfl, rfl, hits_regAddr (waiting true (.host 0)) 0 .fstat rfl, rfl⟩
theorem witness_clocks (m : Move) : ({ s0 with moves := [m] } : State).Live ∧ ({ s0 with moves := [m] } : State).moves = m :: [] :=
  ⟨⟨rfl, rfl⟩, rfl⟩

theorem witness_alloc :
    3#32 ≠ 0#32 ∧ 31 < 32 ∧
    (rotl32 3#32 31 &&& ((withOcc s0 0 0x7FFFFFFE#32).pio 0).occ = 0#32 ∧
      (∀ j < 31, rotl32 3#32 j &&& ((withOcc s0 0 0x7FFFFFFE#32).pio 0).occ ≠ 0#32)) ∧
    0x80000001#32 &&& ((withOcc s0 0 0x7FFFFFFE#32).pio 0).occ = 0#32 ∧
    (∀ j < 32, rotl32 0xFFFFFFFF#32 j &&& ((withOcc s0 0 1#32).pio 0).occ ≠ 0#32) ∧
    0x80000001#32 &&& ((withOcc s0 0 1#32).pio 0).occ ≠ 0#32 := by decide
theorem witness_bad_operands :
    2 ≤ 2 ∧ (0#32 = 0#32) ∧ (-2 : Int) < -1 ∧ (31 : Int) < 32 ∧ (-1 : Int) < 0 ∧ 1 < 2 ∧
    descOk prog30 = true ∧ (0 ≤ prog30.origin ∧ (31 : Int) ≠ prog30.origin) ∧ (0 : Int) ≤ 31 ∧
    ¬ (0 ≤ prog30.origin ∧ (30 : Int) ≠ prog30.origin) ∧ ¬ (0 ≤ goodDesc.origin ∧ (31 : Int) ≠ goodDesc.origin) ∧
    descOk goodDesc = true ∧ descOk { goodDesc with instrs := [] } = false ∧
    descOk { goodDesc with id := some [], origin := 32, instrs := [0x10000] } = false := by decide
theorem witness_dealloc :
    descOk prog30 = true ∧ 30 < 32 ∧ (prog30.origin = -1 ∨ prog30.origin = (30 : Nat)) ∧
    rotl32 (lowmask prog30.instrs.length) 30 &&& ~~~((withOcc s0 0 0xC0000003#32).pio 0).occ = 0#32 ∧
    rotl32 (lowmask prog30.instrs.length) 30 &&& ~~~((withOcc s0 1 0x1C#32).pio 1).occ ≠ 0#32 ∧
    descOk goodDesc = true ∧ 31 < 32 ∧ (goodDesc.origin = -1 ∨ goodDesc.origin = (31 : Nat)) ∧
    rotl32 (lowmask goodDesc.instrs.length) 31 &&& ~~~((withOcc s0 0 0x80000001#32).pio 0).occ = 0#32 := by decide
theorem witness_dealloc_runs : ∃ t, exec (.dealloc 0 prog30 30) (withOcc s0 0 0xC0000003#32) = .next t := ⟨_, rfl⟩
theorem witness_imclear : 2 ≤ 2 := by decide
theorem witness_addprog :
    descOk goodDesc = true ∧ 31 < 32 ∧
    rotl32 (lowmask goodDesc.instrs.length) 31 &&& ((withOcc s0 0 0x7FFFFFFE#32).pio 0).occ = 0#32 ∧
    goodDesc.origin = -1 ∧
    (∀ j < 31, rotl32 (lowmask goodDesc.instrs.length) j &&& ((withOcc s0 0 0x7FFFFFFE#32).pio 0).occ ≠ 0#32) ∧
    descOk prog30 = true ∧ prog30.origin = (30 : Nat) ∧
    rotl32 (lowmask prog30.instrs.length) 30 &&& (s0.pio 0).occ = 0#32 := by decide
theorem witness_addprog_without_a_place :
    (∀ j < 32, rotl32 (lowmask goodDesc.instrs.length) j &&& ((withOcc s0 0 0x55555555#32).pio 0).occ ≠ 0#32) ∧
    goodDesc.origin = -1 ∧ rotl32 (lowmask goodDesc.instrs.length) 31 &&& ((withOcc s0 0 1#32).pio 0).occ ≠ 0#32 ∧
    prog30.origin = (30 : Nat) ∧
    rotl32 (lowmask prog30.instrs.length) 30 &&& ((withOcc s0 0 2#32).pio 0).occ ≠ 0#32 := by decide
theorem witness_add_then_remove :
    descOk goodDesc = true ∧ ∃ t, exec (.addprog 0 goodDesc) s0 = .next t ∧ (t.thread s0.turn).result = some (.offset 0) :=
  ⟨by decide, after (.addprog 0 goodDesc) s0, rfl, by decide⟩
theorem witness_not_allocator :
    isAllocator (.writeRw 0x50200048#32 1#32) = false ∧ ∃ t, exec (.writeRw 0x50200048#32 1#32) s0 = .next t :=
  ⟨rfl, _, rfl⟩
theorem witness_error_result :
    (s0.thread s0.turn).result = none ∧ ∃ t, exec (.read 0x50200001#32) s0 = .next t ∧
      (t.thread s0.turn).result = some (.error (.addrMisaligned 0x50200001#32)) :=
  ⟨rfl, after (.read 0x50200001#32) s0, rfl, by decide⟩
theorem witness_marks :
    (∃ t, exec (.dealloc 0 prog30 30) s0 = .next t ∧ t.faultMark ≠ s0.faultMark) ∧
    (∃ t, exec (.writem 0x50201038#32 0#32 0#32 false) s0 = .next t ∧ t.refusalMark ≠ s0.refusalMark) :=
  ⟨⟨after (.dealloc 0 prog30 30) s0, rfl, by decide⟩,
    after (.writem 0x50201038#32 0#32 0#32 false) s0, rfl, by decide⟩
theorem witness_other_thread : 1 ≠ s0.turn ∧ ∃ t, exec (.imclear 0) s0 = .next t := ⟨by decide, _, rfl⟩

/-- An enabled state machine, a disabled one with a word pending, and a PIO with none of either. -/
theorem witness_engine_guards :
    ((s0.modPio 0 fun x => { x with smEnable := 8#4 }).pio 0).smEnable.getLsbD 3 = true ∧
    (stalled.sm 0 1).pending ≠ none ∧ (∃ k, (stalled.sm 0 k).pending ≠ none) ∧
    ¬ ((s0.pio 0).smEnable.getLsbD 3 = true ∨ (s0.sm 0 3).pending ≠ none) ∧
    ¬ (∃ k : SmId, (s0.pio 0).smEnable.getLsbD k.val = true ∨ (s0.sm 0 k).pending ≠ none) := by decide
theorem witness_engine_frame :
    (1 : PioId) ≠ 0 ∧ (s0.pio 0).smEnable.getLsbD 3 = false ∧ (s0.sm 0 3).pending = none := by decide

theorem witness_control_operands : 15 < 16 ∧ 2 ≤ 2 ∧ 32 ≤ 32 ∧ 4 ≤ 4 ∧ 65536 ≤ 65536 ∧ 16 ≤ 16 := by decide
theorem witness_clear_fifos :
    s0.Live ∧ s0.Sound ∧ (s0.sm 1 3).shiftctrl.getLsbD 30 = false ∧
    Hits s0 (regAddr 1 (.smShiftctrl 3)) 1 (.smShiftctrl 3) 0#2 ∧
    joined.Live ∧ joined.Sound ∧ (joined.sm 0 3).shiftctrl.getLsbD 30 = false ∧
    Hits joined (regAddr 0 (.smShiftctrl 3)) 0 (.smShiftctrl 3) 0#2 :=
  ⟨⟨rfl, rfl⟩, witness_sound, by decide, hits_regAddr s0 1 _ rfl, ⟨rfl, rfl⟩, witness_sound_full.1, by decide,
    hits_regAddr joined 0 _ rfl⟩
theorem witness_pin_frame :
    s0.Live ∧ s0.params.execOverwrite = .replace ∧ Hits s0 (regAddr 1 (.smPinctrl 3)) 1 (.smPinctrl 3) 0#2 ∧
    Hits s0 (regAddr 1 (.smInstr 3)) 1 (.smInstr 3) 0#2 :=
  ⟨⟨rfl, rfl⟩, rfl, hits_regAddr s0 1 _ rfl, hits_regAddr s0 1 _ rfl⟩
theorem witness_critical :
    let s : State := { s0 with critical := some 1, moves := [.host 0] }
    s.Live ∧ s.critical = some 1 ∧ 0 ≠ 1 ∧ s.moves = .host 0 :: [] := ⟨⟨rfl, rfl⟩, rfl, by decide, rfl⟩

/-- Host thread 0 inside a pin helper of PIO0's SM0, with these transactions left, and moving next. -/
def inHelper (critical : Option Nat) (todo : List Instr) (cont : Cont) : State :=
  { s0.setThread 0 { queue := [], op := .running ⟨todo, cont, true⟩, result := none } with
    critical := critical, moves := [.host 0] }
theorem witness_helper_enters :
    let s := inHelper none [.read (regAddr 0 (.smPinctrl 0))] (.pinFrame 0 0 [(0x04000000#32, 0xE001#16)])
    s.Live ∧ s.critical = none ∧ s.moves = .host 0 :: [] ∧
    (s.thread 0).op =
      .running ⟨[.read (regAddr 0 (.smPinctrl 0))], .pinFrame 0 0 [(0x04000000#32, 0xE001#16)], true⟩ ∧
    Hits s (regAddr 0 (.smPinctrl 0)) 0 (.smPinctrl 0) 0#2 :=
  ⟨⟨rfl, rfl⟩, rfl, rfl, rfl, hits_regAddr (inHelper none _ _) 0 (.smPinctrl 0) rfl⟩

/-- A transaction of a helper with another left, its last one, and one that ends with an error. -/
theorem witness_helper_goes_on (rest : List Instr) :
    let s := inHelper (some 0) (.writeRw 0x502000DC#32 5#32 :: rest) .done
    s.Live ∧ (s.critical = none ∨ s.critical = some 0) ∧ s.moves = .host 0 :: [] ∧
    (s.thread 0).op = .running ⟨.writeRw 0x502000DC#32 5#32 :: rest, .done, true⟩ ∧
    ∃ v, exec (.writeRw 0x502000DC#32 5#32) { s with moves := [], turn := 0, critical := some 0 } = .next v ∧ v.Live ∧
      (v.thread 0).result = some .unit ∧ (∀ e, Result.unit ≠ .error e) :=
  ⟨⟨rfl, rfl⟩, .inr rfl, rfl, rfl, _, rfl, ⟨rfl, rfl⟩, rfl, by simp⟩
theorem witness_helper_fails :
    let s := inHelper (some 0) [.read 0x50200144#32] .done
    s.Live ∧ (s.critical = none ∨ s.critical = some 0) ∧
    ∃ v, exec (.read 0x50200144#32) { s with moves := [], turn := 0, critical := some 0 } = .next v ∧ v.Live ∧
      (v.thread 0).result = some (.error (.addrUnmapped 0x50200144#32)) :=
  ⟨⟨rfl, rfl⟩, .inr rfl, _, rfl, ⟨rfl, rfl⟩, rfl⟩
theorem witness_setters : 31 ≤ 31 ∧ 32 ≤ 32 ∧ 31 < 32 ∧ 32 < 33 := by decide
theorem witness_step : s0.Sound ∧ (∃ t, step s0 = .next t) ∧ ∃ t, step (asking (.txn [0x0F#8])) = .next t :=
  ⟨witness_sound, ⟨_, rfl⟩, _, rfl⟩

end Sys2Proof.Tests
end

section
/-! SUPPORT. The scope family (00_scope): a step takes the instruction its request decodes to (R9, R20, R110, R326), and
every instruction answers a next state (R10, R400, R412). -/

namespace Sys2Proof.Machine

open Sys2Proof

/-! ## Taking a request -/

/-- A record that decodes is taken as its instruction (R9, R103). -/
theorem startRequest_txn {bytes : List Byte} {i : Instr} (h : decode (.txn bytes) = .ok i) (s : State) :
    startRequest (.txn bytes) s = exec i s := by
  simp only [startRequest, h]

/-- A word that is a row of R110 stands for the instruction of that row. -/
theorem wordInstr_of_decode {w : Half} {i : Instr} (h : decode (.pio w) = .ok i) (p : PioId) (n : SmId) :
    wordInstr p n w = i := by
  simp only [wordInstr, h]

/-- A word that is a row of R110 is taken as its instruction, for the state machine it is handed to (R326; log 11). -/
theorem startRequest_word {w : Half} {i : Instr} (h : decode (.pio w) = .ok i) (p : PioId) (n : SmId) (s : State) :
    startRequest (.word p n w) s = exec i { s with target := (p, n) } := by
  simp only [startRequest, wordInstr_of_decode h]

/-- Settles O5: the step takes the request in the state in which it is consumed, and the request is taken as the
instruction it decodes to. -/
theorem stepRunsTheDecodedInstruction : Obligations.StepRunsTheDecodedInstruction := by
  intro s t i rest ms hm
  constructor
  · intro bytes ha hd
    rw [step_of_asks ha hm, startRequest_txn hd]
  · intro p n w ha hd
    rw [step_of_asks ha hm, startRequest_word hd]

/-! ## No transaction traps -/

/-- PROVIDES answers whether the address resolves (R144). -/
theorem execProvides_next (addr : Word) (s : State) : ∃ t, execProvides addr s = .next t := by
  unfold execProvides
  cases s.resolve addr with
  | misaligned | unmapped | hit _ _ _ => exact ⟨_, rfl⟩

/-- LABEL answers a label, or the error of a bad address (R145). -/
theorem execLabel_next (addr : Word) (s : State) : ∃ t, execLabel addr s = .next t := by
  unfold execLabel
  cases s.resolve addr with
  | misaligned | unmapped => exact ⟨_, rfl⟩
  | hit b _ _ =>
    cases b with
    | csr _ | device _ _ _ => exact ⟨_, rfl⟩

/-- WAIT polls once, or ends with the error of its timeouts (R160, R406). -/
theorem execWait_next (addr expected mask : Word) (cyc ms : Nat) (s : State) :
    ∃ t, execWait addr expected mask cyc ms s = .next t := by
  unfold execWait
  split <;> exact ⟨_, rfl⟩

/-- IMCLEAR clears one PIO, or ends with the error of its operand (R275). -/
theorem execImclear_next (p : Nat) (s : State) : ∃ t, execImclear p s = .next t := by
  unfold execImclear
  cases pioOf p with
  | none | some _ => exact ⟨_, rfl⟩

/-- ADDPROG ends as its allocation does, or with the error of its descriptor (R280). -/
theorem execAddprog_next (p : Nat) (prog : Desc) (s : State) : ∃ t, execAddprog p prog s = .next t := by
  unfold execAddprog
  split <;> exact ⟨_, rfl⟩

/-- ADDPROGAT ends as its allocation does, or with the error of the first check that fails (R281). -/
theorem execAddprogat_next (p : Nat) (prog : Desc) (offset : Int) (s : State) :
    ∃ t, execAddprogat p prog offset s = .next t := by
  unfold execAddprogat
  by_cases hd : descOk prog
  · by_cases ho : offsetOk offset
    · by_cases hf : offsetFits prog offset <;> simp [hd, ho, hf]
    · simp [hd, ho]
  · simp [hd]

/-- Settles O7, by cases on the instruction: WAIT, PROVIDES, LABEL, IMCLEAR, ADDPROG and ADDPROGAT choose between ends
that are all next states; every other instruction has one end. -/
theorem everyInstructionAnswersANextState : Obligations.EveryInstructionAnswersANextState := by
  intro i s
  cases i with
  | read _ => exact ⟨_, rfl⟩
  | writeRw _ _ | writeXor _ _ | writeSet _ _ | writeClr _ _ | writem _ _ _ _ => exact ⟨_, rfl⟩
  | wait addr expected mask cyc ms => exact execWait_next addr expected mask cyc ms s
  | provides addr => exact execProvides_next addr s
  | label addr => exact execLabel_next addr s
  | alloc _ _ _ _ | dealloc _ _ _ | rmprog _ _ _ => exact ⟨_, rfl⟩
  | imclear p => exact execImclear_next p s
  | addprog p prog => exact execAddprog_next p prog s
  | addprogat p prog offset => exact execAddprogat_next p prog offset s
  | jmpAlways _ | setPins _ | setPindirs _ | outNull32 | pullNoblock => exact ⟨_, rfl⟩

end Sys2Proof.Machine
end

section
/-! SUPPORT. The state family (10_state): the invariant of the machine from reset on, what every step and every
instruction leave unchanged, and what the registers answer. -/

namespace Sys2Proof.Machine

open Sys2Proof

/-! ## What every step keeps -/

/-- What one agent's step keeps (R20). -/
theorem perform_keeps {m : Move} {s t : State} (h : perform m s = .next t) : Keeps s t := by
  cases m with
  | host u => exact hostMove_keeps h
  | engine p e => cases h; exact (Works.engineMove p e s).keeps
  | masterClock => cases h; exact .masterTick s
  | wallClock => cases h; exact .wallTick s
  | interrupt u => cases h; exact .interruptThread u s

/-- A step is one agent's, in the machine as it stands or with the move taken off the list (log 3). -/
theorem agentStep_keeps {s t : State} (h : agentStep s = .next t) : Keeps s t := by
  unfold agentStep at h
  split at h
  · exact perform_keeps h
  · next m ms _ =>
    have taken : Keeps s { s with moves := ms } := .of_eq rfl rfl rfl rfl rfl rfl
    exact taken.trans (perform_keeps h)

/-- A machine with the fault mark stops as faulted, whatever else it holds (R404). -/
theorem step_of_faultMark {s : State} {info : FatalInfo} (h : s.faultMark = some info) :
    step s = .fault (.fatal info) := by
  simp only [step, machineStep, h]

/-- A machine with the refusal mark alone stops as refused (R405). -/
theorem step_of_refusalMark {s : State} {reason : RefuseReason} (hf : s.faultMark = none)
    (h : s.refusalMark = some reason) : step s = .refused (.refusedBefore reason) := by
  simp only [step, machineStep, hf, h]

/-- A machine with neither mark takes an agent's step (R20, R25). -/
theorem step_of_live {s : State} (h : s.Live) : step s = agentStep s := by
  simp only [step, machineStep, h.1, h.2]

/-- Only a machine with neither mark has a step (R25). -/
theorem live_of_step {s t : State} (h : step s = .next t) : s.Live := by
  cases hf : s.faultMark with
  | some info => rw [step_of_faultMark hf] at h; cases h
  | none =>
    cases hr : s.refusalMark with
    | some reason => rw [step_of_refusalMark hf hr] at h; cases h
    | none => exact ⟨hf, hr⟩

/-- What every step keeps. -/
theorem step_keeps {s t : State} (h : step s = .next t) : Keeps s t := by
  have live := live_of_step h
  rw [step_of_live live] at h
  exact agentStep_keeps h

/-- Settles O59: soundness is one of the facts every step keeps, by cases on the agent that moves. -/
theorem everyStepKeepsTheMachineSound : Obligations.EveryStepKeepsTheMachineSound :=
  fun _ _ hs h => (step_keeps h).sound hs

/-- Settles O60: every step of any agent keeps the parameters and the history as a beginning. -/
theorem stepsKeepParametersAndHistory : Obligations.StepsKeepParametersAndHistory :=
  fun _ _ h => ⟨(step_keeps h).params, (step_keeps h).history⟩

/-- Settles O6: the fault mark is looked at first, then the refusal mark. -/
theorem markedMachineHasNoStep : Obligations.MarkedMachineHasNoStep :=
  fun _ => ⟨fun _ h => step_of_faultMark h, fun _ hf h => step_of_refusalMark hf h⟩

/-- Settles O36: the step is the tick of the listed clock, which besides its counter wakes threads only. -/
theorem clockStepsAdvanceTheirCounter : Obligations.ClockStepsAdvanceTheirCounter := by
  intro s ms live
  constructor
  · intro hm
    exact ⟨s.threads.map Thread.wake, step_of_move live hm⟩
  · intro hm
    exact ⟨s.threads.map Thread.wake, step_of_move live hm⟩

/-! ## The machine after reset -/

/-- A state machine is sound at reset: its FIFOs are empty and its configuration words have no reserved bit set. -/
theorem Sm.sound_reset : Sm.reset.Sound where
  notBothJoined := by decide
  txFits := Nat.zero_le _
  rxFits := Nat.zero_le _
  clkdivRes := by decide
  execctrlRes := by decide
  shiftctrlRes := by decide
  stallPending := by decide

/-- Every state machine of either PIO is at its reset state after reset (R451). -/
theorem sm_resetWith (P : Params) (c m : Nat) (p : PioId) (n : SmId) : (State.resetWith P c m).sm p n = .reset := by
  match p, n with
  | 0, 0 | 0, 1 | 0, 2 | 0, 3 | 1, 0 | 1, 1 | 1, 2 | 1, 3 => rfl

/-- Settles O58: the state machines are at their sound reset state, and the clocks' start is reduced to their periods. -/
theorem resetIsSound : Obligations.ResetIsSound := fun P c m =>
  { sms := fun p n => by rw [sm_resetWith]; exact Sm.sound_reset
    cyclesIn := Nat.mod_lt _ (Nat.two_pow_pos _)
    millisIn := Nat.mod_lt _ (Nat.two_pow_pos _) }

/-! ## What an instruction leaves unchanged -/

/-- From s to t, nothing outside the hardware, the history, the marks and the draws moved but the operation and the result
of the thread whose turn it is. -/
structure OnlyItsThread (s t : State) : Prop where
  others   : ∀ u, u ≠ s.turn → t.thread u = s.thread u
  params   : t.params = s.params
  cycles   : t.cycles = s.cycles
  millis   : t.millis = s.millis
  critical : t.critical = s.critical
  moves    : t.moves = s.moves
  turn     : t.turn = s.turn
  target   : t.target = s.target
  queue    : (t.thread s.turn).queue = (s.thread s.turn).queue

theorem OnlyItsThread.trans {s u v : State} (h : OnlyItsThread s u) (k : OnlyItsThread u v) : OnlyItsThread s v where
  others n hn := (k.others n (by rw [h.turn]; exact hn)).trans (h.others n hn)
  params := k.params.trans h.params
  cycles := k.cycles.trans h.cycles
  millis := k.millis.trans h.millis
  critical := k.critical.trans h.critical
  moves := k.moves.trans h.moves
  turn := k.turn.trans h.turn
  target := k.target.trans h.target
  queue := by
    have hk := k.queue
    rw [h.turn] at hk
    exact hk.trans h.queue

/-- Work on the hardware moves no thread at all. -/
theorem Works.onlyItsThread {s u : State} (h : Works s u) : OnlyItsThread s u where
  others n _ := h.thread n
  params := h.params
  cycles := h.cycles
  millis := h.millis
  critical := h.critical
  moves := h.moves
  turn := h.turn
  target := h.target
  queue := by rw [h.thread]

/-- A change of the thread whose turn it is that keeps its requests to come. -/
theorem OnlyItsThread.setThread (s : State) (x : Thread) (h : x.queue = (s.thread s.turn).queue) :
    OnlyItsThread s (s.setThread s.turn x) where
  others _ hn := State.thread_setThread_ne _ _ hn
  params := rfl
  cycles := rfl
  millis := rfl
  critical := rfl
  moves := rfl
  turn := rfl
  target := rfl
  queue := by rw [State.thread_setThread_same, h]

theorem OnlyItsThread.deliver (s : State) (r : Result) : OnlyItsThread s (s.deliver r) := .setThread s _ rfl
theorem OnlyItsThread.finish (s : State) (r : Result) : OnlyItsThread s (s.finish r) := .setThread s _ rfl
theorem OnlyItsThread.proceed (s : State) (op : HostOp) : OnlyItsThread s (s.proceed op) := .setThread s _ rfl

/-- Every end of a transaction touches only the thread whose turn it is (R27, R400). -/
theorem Ends.onlyItsThread {s t : State} (h : Ends s t) : OnlyItsThread s t := by
  cases h with
  | fatal info | refuse reason => exact ⟨fun _ _ => rfl, rfl, rfl, rfl, rfl, rfl, rfl, rfl, rfl⟩
  | raise u e hu t ht =>
    have work : Works s u := by
      rcases hu with rfl | rfl
      · exact .refl _
      · exact .drawn s
    rcases ht with rfl | rfl
    · exact work.onlyItsThread.trans (.deliver _ _)
    · exact work.onlyItsThread.trans (.finish _ _)
  | normal u r work _ t ht =>
    rcases ht with rfl | rfl
    · exact work.onlyItsThread.trans (.deliver _ _)
    · exact work.onlyItsThread.trans (.finish _ _)
  | suspend u w work => exact work.onlyItsThread.trans (.proceed _ _)

/-- Settles O48, by cases on how the transaction ends. -/
theorem instructionTouchesOnlyItsThread : Obligations.InstructionTouchesOnlyItsThread := by
  intro i s t h
  have only := (exec_cases h).onlyItsThread
  exact ⟨only.others, only.params, only.cycles, only.millis, only.critical, only.moves, only.turn, only.target,
    only.queue⟩

/-! ## Occupancy (R23) -/

theorem SameOcc.busWrite (s : State) (addr value : Word) : SameOcc s (busWrite s addr value) := by
  unfold Machine.busWrite
  split
  · exact (SameOcc.refl s).then_deliver _
  · exact (SameOcc.refl s).then_deliver _
  · exact SameOcc.blockWrite s addr _ _ _

theorem SameOcc.busWriteM (s : State) (addr bits mask : Word) (xor : Bool) :
    SameOcc s (busWriteM s addr bits mask xor) := by
  unfold Machine.busWriteM
  split
  · exact (SameOcc.refl s).then_deliver _
  · exact (SameOcc.refl s).then_deliver _
  · split
    · exact SameOcc.blockWrite s addr _ _ _
    · exact SameOcc.refl s

theorem SameOcc.endRead (s : State) (addr : Word) : SameOcc s (endRead (Machine.busRead s addr)) := by
  unfold Machine.endRead
  split <;> exact (SameOcc.busRead s addr).then_deliver _

/-- A poll changes the hardware as its READ does (R160). -/
theorem SameOcc.waitPoll (w : WaitState) (s : State) : SameOcc s (waitPoll w s) := by
  have hr := SameOcc.busRead s w.addr
  unfold Machine.waitPoll
  split
  · next hb => rw [hb] at hr; exact hr.then_finish _
  · next hb =>
    rw [hb] at hr
    split
    · exact hr.then_finish _
    · exact hr.then_proceed _

/-- WAIT polls once, or ends with the error of its timeouts (R160, R406). -/
theorem execWait_sameOcc {addr expected mask : Word} {cyc ms : Nat} {s t : State}
    (h : execWait addr expected mask cyc ms s = .next t) : SameOcc s t := by
  unfold execWait at h
  split at h
  · cases h; exact SameOcc.waitPoll _ s
  · cases h; exact (SameOcc.refl s).then_deliver _

/-- PROVIDES only answers (R144). -/
theorem execProvides_sameOcc {addr : Word} {s t : State} (h : execProvides addr s = .next t) : SameOcc s t := by
  unfold execProvides at h
  split at h <;> cases h <;> exact (SameOcc.refl s).then_deliver _

/-- LABEL only answers, and draws the label of an opaque block (R145). -/
theorem execLabel_sameOcc {addr : Word} {s t : State} (h : execLabel addr s = .next t) : SameOcc s t := by
  unfold execLabel at h
  split at h <;> cases h
  · exact (SameOcc.refl s).then_deliver _
  · exact (SameOcc.refl s).then_deliver _
  · exact (SameOcc.refl s).then_deliver _
  · exact (SameOcc.refl s).then_drawn.then_deliver _

/-- Settles O45, by cases on the instruction: reads, writes and forwarded words go through the register block, which has no
way to the occupancy, and PROVIDES and LABEL only answer. -/
theorem onlyTheAllocatorChangesOccupancy : Obligations.OnlyTheAllocatorChangesOccupancy := by
  intro i s t p hi h
  have same : SameOcc s t := by
    cases i with
    | read addr => cases h; exact .endRead s addr
    | writeRw addr v | writeXor addr v | writeSet addr v | writeClr addr v => cases h; exact .busWrite s addr v
    | writem addr bits mask xor => cases h; exact .busWriteM s addr bits mask xor
    | wait addr expected mask cyc ms => exact execWait_sameOcc h
    | provides addr => exact execProvides_sameOcc h
    | label addr => exact execLabel_sameOcc h
    | alloc _ _ _ _ | dealloc _ _ _ | imclear _ | addprog _ _ | addprogat _ _ _ | rmprog _ _ _ => cases hi
    | jmpAlways _ | setPins _ | setPindirs _ | outNull32 | pullNoblock => cases h; exact .busWrite s _ _
  exact same p

/-! ## The register map and reads -/

/-- The address of a register in R31's form, with the word offset as a product. -/
theorem regAddr_eq (p : PioId) (r : Reg) : regAddr p r = pioBase p + 4#32 * BitVec.ofNat 32 (regIndex r) := by
  rw [regAddr, BitVec.ofNat_mul]

/-- Settles O10: the windows are `hits_window`, the table is R31's, and `regOf` inverts `regIndex` both ways. -/
theorem pioRegistersAnswerInFourWindows : Obligations.PioRegistersAnswerInFourWindows := by
  refine ⟨fun s p r a h => hits_window s p r a h, ?table, fun r => ⟨regIndex_lt r, regOf_regIndex r⟩, regIndex_regOf⟩
  case table =>
    refine ⟨rfl, rfl, regAddr_eq, rfl, rfl, rfl, rfl, fun _ => ⟨rfl, rfl⟩, rfl, rfl, rfl, rfl, rfl, rfl, fun _ => rfl,
      fun _ => ⟨rfl, rfl, rfl, rfl, rfl, rfl⟩, rfl, rfl, rfl, rfl, rfl, rfl, rfl⟩

/-- Settles O13: such a READ leaves the block as it is, and each value is its entry of `pioView`. -/
theorem plainReadsAnswerTheRegister : Obligations.PlainReadsAnswerTheRegister := by
  constructor
  · intro s addr p r a hit plain
    rw [exec_read_hit hit, pioRead_plain plain]
  · intro s p n
    exact ⟨rfl, rfl, rfl, rfl, rfl, rfl, rfl, rfl, rfl, rfl, rfl, rfl, rfl, rfl, rfl, rfl, rfl, rfl, rfl⟩

/-! ## Status registers -/

/-- Each bit of FSTAT (R33, R193). -/
theorem getLsbD_fstat (x : Pio) (i : Nat) :
    x.fstat.getLsbD i =
      if 24 ≤ i ∧ i < 28 then (x.sm (Fin.ofNat 4 (i - 24))).txReadsEmpty
      else if 16 ≤ i ∧ i < 20 then (x.sm (Fin.ofNat 4 (i - 16))).txReadsFull
      else if 8 ≤ i ∧ i < 12 then (x.sm (Fin.ofNat 4 (i - 8))).rxReadsEmpty
      else if i < 4 then (x.sm (Fin.ofNat 4 i)).rxReadsFull
      else false := by
  rw [Pio.fstat, getLsbD_fourNibbles]
  simp only [getLsbD_smBits]
  by_cases h24 : 24 ≤ i ∧ i < 28
  · rw [if_pos h24, if_pos h24, if_pos (by omega)]
  by_cases h16 : 16 ≤ i ∧ i < 20
  · rw [if_neg h24, if_neg h24, if_pos h16, if_pos h16, if_pos (by omega)]
  by_cases h8 : 8 ≤ i ∧ i < 12
  · rw [if_neg h24, if_neg h24, if_neg h16, if_neg h16, if_pos h8, if_pos h8, if_pos (by omega)]
  · simp only [if_neg h24, if_neg h16, if_neg h8]
    split_ifs <;> rfl

/-- An interrupt output is high exactly when its IRQk_INTS reads nonzero (R222). -/
theorem irqOut_iff (s : State) (p : PioId) (k : Fin 2) : s.irqOut p k = true ↔ pioView s p (.ints k) ≠ 0#32 := by
  show ((s.pio p).ints k != 0#12) = true ↔ ((s.pio p).ints k).setWidth 32 ≠ 0#32
  rw [bne_iff_ne, ne_eq, ne_eq, ← BitVec.toNat_inj, ← BitVec.toNat_inj, BitVec.toNat_setWidth_of_le (by decide)]
  rfl

/-- Widening the 12 interrupt bits to a register word moves no bit (R52, R55). -/
theorem getLsbD_widened (v : BitVec 12) (i : Nat) : (v.setWidth 32).getLsbD i = v.getLsbD i := by
  rw [BitVec.getLsbD_setWidth]
  by_cases hi : i < 32
  · rw [decide_eq_true hi, Bool.true_and]
  · rw [BitVec.getLsbD_of_ge v i (by omega), Bool.and_false]

/-- Settles O14, register by register: FSTAT and FDEBUG are four nibbles; INTR and IRQk_INTS are their 12 bits widened. -/
theorem statusRegisterBits : Obligations.StatusRegisterBits := by
  intro s p i
  refine ⟨getLsbD_fstat (s.pio p) i, getLsbD_fourNibbles .., ?intr, fun k => ⟨?ints, irqOut_iff s p k⟩⟩
  case intr => exact (getLsbD_widened _ i).trans (getLsbD_intr (s.pio p) i)
  case ints => simp only [pioView, getLsbD_widened, Pio.ints, BitVec.getLsbD_and, BitVec.getLsbD_or]

/-- A capacity is 8 words at most. -/
theorem Sm.cap_le (m : Sm) : m.capTx ≤ 8 ∧ m.capRx ≤ 8 := by
  unfold Sm.capTx Sm.capRx Config.fifoDepth
  constructor <;> split_ifs <;> omega

/-- The levels of a sound state machine are the numbers of words in its FIFOs (R194). -/
theorem Sm.Sound.levels {m : Sm} (h : m.Sound) : m.txLevel = m.tx.length ∧ m.rxLevel = m.rx.length := by
  have htx := h.txFits
  have hrx := h.rxFits
  unfold Sm.txLevel Sm.rxLevel
  constructor <;> split_ifs <;> omega

/-- Settles O15: in a sound machine every level is the FIFO's length and fits its nibble. -/
theorem flevelNibbles : Obligations.FlevelNibbles := by
  intro s p n hs
  have fits : ∀ k, ((s.pio p).sm k).txLevel < 16 ∧ ((s.pio p).sm k).rxLevel < 16 := by
    intro k
    have sound : ((s.pio p).sm k).Sound := hs.sms p k
    obtain ⟨tx, rx⟩ := sound.levels
    have txFits := sound.txFits
    have rxFits := sound.rxFits
    have cap := Sm.cap_le ((s.pio p).sm k)
    omega
  obtain ⟨tx, rx⟩ := (hs.sms p n).levels
  rw [← tx, ← rx]
  exact flevel_nibble (s.pio p) fits n

end Sys2Proof.Machine
end

section
/-! SUPPORT. The memory family (20_memory): what an access ends with at an address that resolves to no register of a PIO:
the error of a bad address (R143), and the fault, draw or event of an opaque block (R83, R148). -/

namespace Sys2Proof.Machine

open Sys2Proof

/-! ## Bad addresses -/

/-- The address resolves to no block, and this is the error an access of it ends with (R143). -/
inductive BadAddress (s : State) (addr : Word) : Err → Prop
  | misaligned (h : s.resolve addr = .misaligned) : BadAddress s addr (.addrMisaligned addr)
  | unmapped (h : s.resolve addr = .unmapped) : BadAddress s addr (.addrUnmapped addr)

/-- Alignment is checked before any block (R87, R143). -/
theorem resolve_misaligned {addr : Word} (h : addr.extractLsb' 0 2 ≠ 0#2) (s : State) : s.resolve addr = .misaligned := by
  rw [State.resolve, if_neg (mt (aligned_iff addr).mp h)]

/-- An aligned address that no block covers is unmapped (R84, R142). -/
theorem resolve_unmapped {s : State} {addr : Word} (h : addr.extractLsb' 0 2 = 0#2)
    (hb : ∀ b ∈ s.params.blocks, ¬ regIndexAt addr (blockBase b) < blockSize b) : s.resolve addr = .unmapped := by
  rw [State.resolve, if_pos ((aligned_iff addr).mpr h), resolveIn_unmapped addr _ hb]

theorem BadAddress.busRead {s : State} {addr : Word} {e : Err} (h : BadAddress s addr e) :
    busRead s addr = (.error e, s) := by
  cases h with
  | misaligned h | unmapped h => simp only [Machine.busRead, h]

theorem BadAddress.busWrite {s : State} {addr : Word} {e : Err} (h : BadAddress s addr e) (v : Word) :
    busWrite s addr v = s.raise e := by
  cases h with
  | misaligned h | unmapped h => simp only [Machine.busWrite, h]

theorem BadAddress.busWriteM {s : State} {addr : Word} {e : Err} (h : BadAddress s addr e) (bits mask : Word)
    (xor : Bool) : busWriteM s addr bits mask xor = s.raise e := by
  cases h with
  | misaligned h | unmapped h => simp only [Machine.busWriteM, h]

theorem BadAddress.execRead {s : State} {addr : Word} {e : Err} (h : BadAddress s addr e) :
    execRead addr s = .next (s.raise e) := by
  rw [Machine.execRead, h.busRead, endRead]

theorem BadAddress.execLabel {s : State} {addr : Word} {e : Err} (h : BadAddress s addr e) :
    execLabel addr s = .next (s.raise e) := by
  cases h with
  | misaligned h | unmapped h => simp only [Machine.execLabel, h]

/-- Settles O8: either premise makes the address bad, and every access of a bad address raises its error in the state it
found. -/
theorem badAddressEndsWithItsError : Obligations.BadAddressEndsWithItsError := by
  intro s addr bits mask value xor ends
  have ends_of_bad : ∀ e, BadAddress s addr e → ends e := by
    intro e bad
    have write : execWriteRw addr value s = .next (s.raise e) := congrArg _ (bad.busWrite value)
    exact ⟨bad.execRead, write, write, write, write, congrArg _ (bad.busWriteM bits mask xor), bad.execLabel⟩
  constructor
  · intro misaligned
    exact ends_of_bad _ (.misaligned (resolve_misaligned misaligned s))
  · intro aligned uncovered
    exact ends_of_bad _ (.unmapped (resolve_unmapped aligned uncovered))

/-! ## Opaque blocks -/

/-- READ of an opaque block fails with a cause, or answers a value (R83, R148). -/
theorem exec_read_device {s : State} {addr : Word} {base : BitVec 30} {size : Nat} {name : String} {r : Nat}
    {a : BitVec 2} (h : s.resolve addr = .hit (.device base size name) r a) :
    exec (.read addr) s = .next (s.drawn.deliver (.error (.blockFault addr (Config.freeWord s.draws)))) ∨
    exec (.read addr) s = .next ((s.drawn.emit (.rd addr (Config.freeWord s.draws))).deliver
      (.word (Config.freeWord s.draws))) := by
  simp only [exec, execRead, busRead, h]
  by_cases fails : blockFaults s
  · rw [if_pos fails]
    exact .inl rfl
  · rw [if_neg fails]
    exact .inr rfl

/-- A transaction that writes an opaque block fails with a cause, or is recorded with its triple (R83, R148). -/
theorem exec_write_device {i : Instr} {s : State} {addr : Word} {base : BitVec 30} {size : Nat} {name : String} {r : Nat}
    {t : Triple} (h : exec i s = .next (blockWrite s addr (.device base size name) r t)) :
    (∃ c, exec i s = .next (s.drawn.deliver (.error (.blockFault addr c)))) ∨
    exec i s = .next ((s.drawn.emit (.wr addr t.bits t.mask t.xor)).deliver .unit) := by
  rw [h, blockWrite]
  by_cases fails : blockFaults s
  · rw [if_pos fails]
    exact .inl ⟨_, rfl⟩
  · rw [if_neg fails]
    exact .inr rfl

/-- A WRITE of the form its address selects is the block's write with the triple of the alias code (R102, R150). -/
theorem exec_writeForm_resolve {s : State} {addr : Word} {b : Block} {r : Nat} {a : BitVec 2}
    (h : s.resolve addr = .hit b r a) (v : Word) :
    exec (writeForm a addr v) s = .next (blockWrite s addr b r (aliasTriple a v)) := by
  simp only [exec_writeForm, busWrite, h]

/-- WRITEM at an alias-0 address is the block's write with the operands as its triple (R151). -/
theorem exec_writem_resolve {s : State} {addr : Word} {b : Block} {r : Nat} (h : s.resolve addr = .hit b r 0#2)
    (bits mask : Word) (xor : Bool) :
    exec (.writem addr bits mask xor) s = .next (blockWrite s addr b r ⟨bits, mask, xor⟩) := by
  simp only [exec, execWritem, busWriteM, h, if_true]

/-- Settles O19: every access of an opaque block fails or goes through, by the one-bit draw of `blockFaults`. -/
theorem opaqueBlockAccess : Obligations.OpaqueBlockAccess := by
  intro s addr base size name r a hit
  refine ⟨⟨_, exec_read_device hit⟩, fun v => ?write, fun ha bits mask xor => ?writem⟩
  case write =>
    rw [aliasEvent_triple]
    exact exec_write_device (exec_writeForm_resolve hit v)
  case writem =>
    subst ha
    exact exec_write_device (exec_writem_resolve hit bits mask xor)

end Sys2Proof.Machine
end

section
/-! SUPPORT. The encoding family (30_encoding): the decoder reads back what the encoder writes and accepts nothing else
than well-formed instructions (R103, R104, R110); what becomes of a reserved header (R105), of the four WRITE forms by
alias code (R102), and of a synthesised word (R110, R326). -/

namespace Sys2Proof.Machine

open Sys2Proof

/-! ## The decoder reads back what the encoder writes (R103, R104, R110) -/

/-- A reading sequence goes on with what its first reader answers. -/
theorem bind_of_ok {α β : Type} {x : Except DecodeError α} {f : α → Except DecodeError β} {a : α}
    {r : Except DecodeError β} (hx : x = .ok a) (hf : f a = r) : (x >>= f) = r := by
  subst hx
  exact hf

/-- A reader that undoes a writer before any further bytes undoes it at the end of a record. -/
theorem take_last {α : Type} {take : List Byte → Except DecodeError (α × List Byte)} {bytes : List Byte} {v : α}
    (h : ∀ rest, take (bytes ++ rest) = .ok (v, rest)) : take bytes = .ok (v, []) := by
  simpa using h []

/-- A record with a legal header is decoded as its operands are read (R103, R104). -/
theorem decode_record {op : Byte} (legal : headerLegal op = true) {addr : Word} {operands : List Byte} {i : Instr}
    (h : takeOperands op addr operands = .ok i) : decode (record op addr operands) = .ok i := by
  simp only [decode, record, decodeRecord, if_pos legal]
  exact bind_of_ok (takeWord_leWord addr operands) h

/-- A WRITE form whose address has its alias code is read back: the address selects the form (R102, R104). -/
theorem decode_writeForm {addr : Word} {code : BitVec 2} (h : hasAlias addr code = true) (v : Word) :
    decode (record 0x1 addr (leWord v)) = .ok (writeForm code addr v) := by
  have halias : addr.extractLsb' 12 2 = code := by simpa [hasAlias] using h
  have hform : writeInstr addr v = writeForm code addr v := by rw [← halias]; rfl
  exact decode_record rfl (bind_of_ok (take_last (takeWord_leWord v)) (congrArg Except.ok hform))

/-! The rows of R110 with a field are told apart by their upper 11 bits, whatever the 5 bits of the field. -/

theorem decode_jmpAlwaysWord : ∀ a : BitVec 5, decode (.pio (jmpAlwaysWord a)) = .ok (.jmpAlways a) := by decide
theorem decode_setPinsWord : ∀ v : BitVec 5, decode (.pio (setPinsWord v)) = .ok (.setPins v) := by decide
theorem decode_setPindirsWord : ∀ v : BitVec 5, decode (.pio (setPindirsWord v)) = .ok (.setPindirs v) := by decide

/-- Settles O2, by cases on the instruction: the header selects the row's readers, and each reader in turn undoes the
writer of its operand, on every value that fits the field. -/
theorem decodeOfEncodeIsIdentity : Obligations.DecodeOfEncodeIsIdentity := by
  intro i wf
  cases i with
  | read _ | provides _ | label _ => exact decode_record rfl rfl
  | writeRw _ v | writeXor _ v | writeSet _ v | writeClr _ v => exact decode_writeForm wf v
  | writem _ bits mask xor =>
    exact decode_record rfl (bind_of_ok (takeWord_leWord bits _) (bind_of_ok (takeWord_leWord mask _)
      (bind_of_ok (take_last (takeFlag_leFlag xor)) rfl)))
  | wait _ expected mask cyc ms =>
    exact decode_record rfl (bind_of_ok (takeWord_leWord expected _) (bind_of_ok (takeWord_leWord mask _)
      (bind_of_ok (takeVar_leVar cyc _) (bind_of_ok (take_last (takeVar_leVar ms)) rfl))))
  | alloc p amask origin check =>
    obtain ⟨hp, ho⟩ := Bool.and_eq_true_iff.mp wf
    exact decode_record rfl (bind_of_ok (takeNat4_leBytes p _ hp) (bind_of_ok (takeWord_leWord amask _)
      (bind_of_ok (takeInt_leInt origin _ ho) (bind_of_ok (take_last (takeFlag_leFlag check)) rfl))))
  | imclear p => exact decode_record rfl (bind_of_ok (take_last (takeNat4_leBytes p · wf)) rfl)
  | addprog p prog =>
    obtain ⟨hp, hd⟩ := Bool.and_eq_true_iff.mp wf
    exact decode_record rfl (bind_of_ok (takeNat4_leBytes p _ hp)
      (bind_of_ok (take_last (takeDesc_leDesc prog · hd)) rfl))
  | dealloc p prog offset | addprogat p prog offset | rmprog p prog offset =>
    obtain ⟨hpd, ho⟩ := Bool.and_eq_true_iff.mp wf
    obtain ⟨hp, hd⟩ := Bool.and_eq_true_iff.mp hpd
    exact decode_record rfl (bind_of_ok (takeNat4_leBytes p _ hp) (bind_of_ok (takeDesc_leDesc prog _ hd)
      (bind_of_ok (take_last (takeInt_leInt offset · ho)) rfl)))
  | jmpAlways a => exact decode_jmpAlwaysWord a
  | setPins v => exact decode_setPinsWord v
  | setPindirs v => exact decode_setPindirsWord v
  | outNull32 | pullNoblock => rfl

/-! ## What the decoder accepts (R103, R104) -/

/-- A reading sequence answers a value only if its first reader does. -/
theorem ok_of_bind {α β : Type} {x : Except DecodeError α} {f : α → Except DecodeError β} {r : β}
    (h : (x >>= f) = .ok r) : ∃ a, x = .ok a ∧ f a = .ok r := by
  cases x with
  | error _ => cases h
  | ok a => exact ⟨a, rfl, h⟩

/-- The WRITE form that an address selects is one the address fits (R104). -/
theorem writeInstr_wellFormed (addr v : Word) : (writeInstr addr v).wellFormed = true := by
  unfold writeInstr
  split_ifs with h0 h1 h2
  · exact beq_iff_eq.mpr h0
  · exact beq_iff_eq.mpr h1
  · exact beq_iff_eq.mpr h2
  · have h3 : addr.extractLsb' 12 2 = 3#2 := by bv_omega
    exact beq_iff_eq.mpr h3

/-- Whatever the operands of a record are read into is well-formed: every reader answers a value that fits its field. -/
theorem takeOperands_wellFormed {header : Byte} {addr : Word} {bs : List Byte} {i : Instr}
    (h : takeOperands header addr bs = .ok i) : i.wellFormed = true := by
  unfold takeOperands at h
  split at h
  case h_1 | h_5 | h_6 => cases h; rfl -- READ, PROVIDES, LABEL
  case h_2 => -- WRITE
    obtain ⟨⟨v, _⟩, _, h⟩ := ok_of_bind h
    cases h
    exact writeInstr_wellFormed addr v
  case h_3 => -- WRITEM
    obtain ⟨_, _, h⟩ := ok_of_bind h
    obtain ⟨_, _, h⟩ := ok_of_bind h
    obtain ⟨_, _, h⟩ := ok_of_bind h
    cases h
    rfl
  case h_4 => -- WAIT
    obtain ⟨_, _, h⟩ := ok_of_bind h
    obtain ⟨_, _, h⟩ := ok_of_bind h
    obtain ⟨_, _, h⟩ := ok_of_bind h
    obtain ⟨_, _, h⟩ := ok_of_bind h
    cases h
    rfl
  case h_7 => -- ALLOC
    obtain ⟨⟨p, _⟩, hp, h⟩ := ok_of_bind h
    obtain ⟨_, _, h⟩ := ok_of_bind h
    obtain ⟨⟨origin, _⟩, ho, h⟩ := ok_of_bind h
    obtain ⟨_, _, h⟩ := ok_of_bind h
    cases h
    exact Bool.and_eq_true_iff.mpr ⟨takeNat4_fits hp, takeInt_fits ho⟩
  case h_9 => -- IMCLEAR
    obtain ⟨⟨p, _⟩, hp, h⟩ := ok_of_bind h
    cases h
    exact takeNat4_fits hp
  case h_10 => -- ADDPROG
    obtain ⟨⟨p, _⟩, hp, h⟩ := ok_of_bind h
    obtain ⟨⟨prog, _⟩, hd, h⟩ := ok_of_bind h
    cases h
    exact Bool.and_eq_true_iff.mpr ⟨takeNat4_fits hp, takeDesc_wellFormed hd⟩
  case h_8 | h_11 | h_12 => -- DEALLOC, ADDPROGAT, RMPROG
    obtain ⟨⟨p, _⟩, hp, h⟩ := ok_of_bind h
    obtain ⟨⟨prog, _⟩, hd, h⟩ := ok_of_bind h
    obtain ⟨⟨offset, _⟩, ho, h⟩ := ok_of_bind h
    cases h
    exact Bool.and_eq_true_iff.mpr
      ⟨Bool.and_eq_true_iff.mpr ⟨takeNat4_fits hp, takeDesc_wellFormed hd⟩, takeInt_fits ho⟩
  case h_13 => cases h -- a reserved op

/-- Settles O3: a record is decoded by its operands' readers, and every instruction of R110 is well-formed. -/
theorem decodedInstructionIsWellFormed : Obligations.DecodedInstructionIsWellFormed := by
  intro c i h
  cases c with
  | txn bytes =>
    cases bytes with
    | nil => cases h
    | cons header bs =>
      simp only [decode, decodeRecord] at h
      split at h
      · obtain ⟨⟨addr, operands⟩, _, h⟩ := ok_of_bind h
        exact takeOperands_wellFormed h
      · cases h
  | pio w =>
    simp only [decode, decodePio] at h
    split_ifs at h <;> cases h <;> rfl

/-! ## Reserved headers (R105) -/

/-- A header with op 0xC to 0xF or with bits 7:4 not all zero is not legal (R103, R105). -/
theorem headerLegal_reserved {header : Byte} (h : header.extractLsb' 4 4 ≠ 0#4 ∨ 0xC ≤ (header.extractLsb' 0 4).toNat) :
    headerLegal header = false := by
  unfold headerLegal
  rcases h with high | op
  · rw [beq_false_of_ne high, Bool.false_and]
  · rw [decide_eq_false (Nat.not_lt.mpr op), Bool.and_false]

/-- A record is decoded header first: an illegal one is rejected whatever follows it (R105, R406). -/
theorem decode_illegal_header {header : Byte} (h : headerLegal header = false) (operands : List Byte) :
    decode (.txn (header :: operands)) = .error (.illegalOperation header) := by
  simp only [decode, decodeRecord, h, Bool.false_eq_true, if_false]

/-- Settles O4: the step takes up the request, whose record does not decode, and raises the error in the state in which
the request is consumed. -/
theorem reservedHeaderIsIllegalOperation : Obligations.ReservedHeaderIsIllegalOperation := by
  intro s t header operands rest ms asks moves reserved
  have rejected := decode_illegal_header (headerLegal_reserved reserved) operands
  rw [step_of_asks asks moves]
  simp only [startRequest, rejected]
  rfl

/-- Settles O1, by running the decoder on each word; the last is one case of `decode_setPindirsWord`. -/
theorem sampleWordsDecode : Obligations.SampleWordsDecode :=
  ⟨by decide, by decide, by decide, decode_setPindirsWord 0x1F#5⟩

/-! ## The WRITE forms by alias code (R102) -/

/-- The effect of an alias code is bit by bit: the bits kept of it depend on the same bits of the old value only. -/
theorem aliasEffect_and (a : BitVec 2) (old v k : Word) : aliasEffect a old v &&& k = aliasEffect a (old &&& k) v &&& k := by
  unfold aliasEffect
  split_ifs
  · rfl
  all_goals
    ext i hi
    cases hk : k[i] <;> simp [hk]

/-- The stored bits of EXECCTRL after a WRITE do not depend on EXEC_STALLED, which it reads in bit 31 (R45, R202). -/
theorem execctrlStored_aliasEffect (a : BitVec 2) (m : Sm) (v : Word) :
    execctrlStored (aliasEffect a m.execctrlRead v) = aliasEffect a m.execctrl v &&& 0x7FFFFF9F#32 := by
  have stored : m.execctrlRead &&& 0x7FFFFF9F#32 = m.execctrl &&& 0x7FFFFF9F#32 := by
    rw [Sm.execctrlRead, BitVec.and_or_distrib_right]
    cases m.execStalled <;> simp
  rw [execctrlStored, aliasEffect_and, stored, ← aliasEffect_and]

/-- Settles O21: each is a write transaction whose new value is the effect of its alias code, and the register stores it
as `applyWrite` says; EXECCTRL alone reads a bit it does not store. -/
theorem writeFormsByAliasCode : Obligations.WriteFormsByAliasCode := by
  intro s addr v p n a
  refine ⟨fun hit => exec_writeForm_ok hit rfl, fun hit => exec_writeForm_ok hit rfl,
    fun hit => exec_writeForm_ok hit rfl, fun hit => exec_writeForm_ok hit rfl, fun hit => exec_writeForm_ok hit rfl,
    fun hit => exec_writeForm_ok hit rfl, fun hit => exec_writeForm_ok hit ?execctrl⟩
  case execctrl =>
    exact congrArg (fun w => Except.ok (s.modSm p n fun m => { m with execctrl := w }))
      (execctrlStored_aliasEffect a (s.sm p n) v)

/-! ## Synthesised words (R110, R211, R326) -/

/-- A word over no stalled pending word, or where it may be replaced, becomes pending; whether it stalls is a draw (R211). -/
theorem writeInstrReg_ok {s : State} {p : PioId} {n : SmId}
    (h : ¬ ((s.sm p n).pending ≠ none ∧ (s.sm p n).execStalled = true ∧ s.params.execOverwrite = .refuse)) (w : Half) :
    writeInstrReg s p n w = .ok ((s.modSm p n fun m =>
      { m with pending := some w, execStalled := Config.freeBit s.draws }).drawn.emit (.exec p n w)) := by
  unfold writeInstrReg
  rw [if_neg]
  simpa [Option.isSome_iff_ne_none, and_assoc] using h

/-- A word is handed to its state machine by one plain WRITE to SMn_INSTR (R211, R326). -/
theorem forwardWord_eq {s : State} {p : PioId} {n : SmId} (target : s.target = (p, n))
    (hit : Hits s (regAddr p (.smInstr n)) p (.smInstr n) 0#2)
    (free : ¬ ((s.sm p n).pending ≠ none ∧ (s.sm p n).execStalled = true ∧ s.params.execOverwrite = .refuse))
    {w : Half} {v : Word} (hw : w.setWidth 32 = v) :
    forwardWord w s =
      (((s.modSm p n fun m =>
        { m with pending := some (v.setWidth 16), execStalled := Config.freeBit s.draws }).drawn.emit
        (.exec p n (v.setWidth 16))).emit (.wr (regAddr p (.smInstr n)) v 0xFFFFFFFF#32 false)).deliver .unit := by
  subst hw
  rw [forwardWord, targetAddr, target]
  exact Host.Outcome.next.inj (exec_writeRw_ok hit (writeInstrReg_ok free _))

/-- Widening a row's word to the register's 32 bits widens its fixed bits and its field (R110). -/
theorem setWidth_or_field (fixed : Half) (v : BitVec 5) :
    (fixed ||| v.setWidth 16).setWidth 32 = fixed.setWidth 32 ||| v.setWidth 32 := by
  rw [BitVec.setWidth_or, BitVec.setWidth_setWidth (by decide)]

/-- Settles O30: each row's word, widened to the register's 32 bits, is handed on as `forwardWord_eq` says. -/
theorem synthesisedWordsAreForwarded : Obligations.SynthesisedWordsAreForwarded := by
  intro s p n target hit free
  refine ⟨Config.freeBit s.draws, fun a => ?jmpAlways, fun v => ?setPins, fun v => ?setPindirs, ?outNull32,
    ?pullNoblock⟩
  case jmpAlways => exact congrArg _ (forwardWord_eq target hit free (BitVec.setWidth_setWidth (by decide)))
  case setPins => exact congrArg _ (forwardWord_eq target hit free (setWidth_or_field 0xE000#16 v))
  case setPindirs => exact congrArg _ (forwardWord_eq target hit free (setWidth_or_field 0xE080#16 v))
  case outNull32 | pullNoblock => exact congrArg _ (forwardWord_eq target hit free rfl)

end Sys2Proof.Machine
end

section
/-! SUPPORT. The dispatch family (40_dispatch): which block an address reaches (R141, R142) and what the queries of it
answer (R144, R145); the masked write as a register's new value (R151, R152); WAIT from its first poll to its last
(R160 to R166). -/

namespace Sys2Proof.Machine

open Sys2Proof

/-! ## Address resolution (R141, R142) -/

/-- Settles O9: the scan skips the blocks before b, which do not cover the address, and stops at b, which does. -/
theorem resolutionIsFirstMatch : Obligations.ResolutionIsFirstMatch := by
  intro s addr before after b align blocks skipped covers
  rw [State.resolve, if_pos ((aligned_iff addr).mpr align), blocks, resolveIn_append addr before _ skipped]
  exact if_pos covers

/-- An address resolves to a block exactly when it is aligned and some block covers it (R141, R142). -/
theorem resolve_hit_iff (s : State) (addr : Word) :
    (∃ b r a, s.resolve addr = .hit b r a) ↔
      addr.extractLsb' 0 2 = 0#2 ∧ ∃ b ∈ s.params.blocks, regIndexAt addr (blockBase b) < blockSize b := by
  by_cases align : addr.extractLsb' 0 2 = 0#2
  · rw [State.resolve, if_pos ((aligned_iff addr).mpr align), resolveIn_hit_iff, and_iff_right align]
  · simp [resolve_misaligned align, align]

/-! ## Queries (R144, R145) -/

/-- PROVIDES answers 1 at an address that resolves to a block (R144). -/
theorem exec_provides_hit {s : State} {addr : Word} (h : ∃ b r a, s.resolve addr = .hit b r a) :
    exec (.provides addr) s = .next (s.deliver (.word 1#32)) := by
  obtain ⟨b, r, a, h⟩ := h
  simp only [exec, execProvides, h]

/-- PROVIDES answers 0, and no error, at any other address (R144). -/
theorem exec_provides_miss {s : State} {addr : Word} (h : ¬ ∃ b r a, s.resolve addr = .hit b r a) :
    exec (.provides addr) s = .next (s.deliver (.word 0#32)) := by
  cases res : s.resolve addr with
  | misaligned | unmapped => simp only [exec, execProvides, res]
  | hit b r a => exact absurd ⟨b, r, a, res⟩ h

/-- Settles O11: an address resolves to a block exactly when it is aligned and covered. -/
theorem providesAnswersCoverage : Obligations.ProvidesAnswersCoverage := by
  intro s addr
  split
  · next covered => exact exec_provides_hit ((resolve_hit_iff s addr).mpr covered)
  · next uncovered => exact exec_provides_miss (mt (resolve_hit_iff s addr).mp uncovered)

/-- The number of a PIO is one decimal digit (R145). -/
theorem decimal_pio (p : PioId) : decimal p.val = if p = 0 then "0" else "1" := by
  match p with
  | 0 | 1 => decide

/-- LABEL of a PIO register answers its label, whatever the alias code (R145). -/
theorem exec_label_hit {s : State} {addr : Word} {p : PioId} {r : Reg} {a : BitVec 2} (h : Hits s addr p r a) :
    exec (.label addr) s = .next (s.deliver (.label (regLabel p r))) := by
  unfold Hits at h
  simp only [exec, execLabel, h, regOf_regIndex]

/-- LABEL of an opaque block answers a draw (R145; log 5). -/
theorem exec_label_device {s : State} {addr : Word} {base : BitVec 30} {size : Nat} {name : String} {r : Nat}
    {a : BitVec 2} (h : s.resolve addr = .hit (.device base size name) r a) :
    exec (.label addr) s = .next (s.drawn.deliver (.label (Config.freeText s.draws))) := by
  simp only [exec, execLabel, h]

/-- Settles O12, by what the address resolves to. -/
theorem labelNamesTheRegister : Obligations.LabelNamesTheRegister := by
  refine ⟨fun s addr p r a hit => ?register, fun s addr base size name r a hit => ⟨_, exec_label_device hit⟩,
    fun s addr => ⟨fun h => (BadAddress.misaligned h).execLabel, fun h => (BadAddress.unmapped h).execLabel⟩⟩
  case register => rw [exec_label_hit hit, regLabel, decimal_pio]

/-! ## Masked writes (R151, R152) -/

/-- Settles O20: each is a write transaction with the new value of R151's formula, and the register stores it as
`applyWrite` says. -/
theorem writesSetTheRegisterByFormula : Obligations.WritesSetTheRegisterByFormula := by
  intro i s addr bits mask xor p n j sets
  and_intros <;> exact fun write => exec_writes_ok write rfl

/-- Settles O29: WRITEM looks at the alias code before it reaches the block. -/
theorem writemAtAliasIsRefused : Obligations.WritemAtAliasIsRefused := by
  intro s addr bits mask xor b r a hit code
  simp only [exec, execWritem, busWriteM, hit, if_neg code]
  rfl

/-! ## Timeouts (R161, R162) -/

/-- The timeout predicate as a proposition (R161). -/
theorem timedOut_iff (S T now : Nat) :
    timedOut S T now = true ↔ if S < T then now < S ∨ T ≤ now else now < S ∧ T ≤ now := by
  unfold timedOut
  split <;> simp

/-- The steps from S to x on a counter of period N: the difference, or its wrap around the period. -/
theorem clock_steps_eq {N S x : Nat} (hS : S < N) (hx : x < N) :
    (x + N - S) % N = if S ≤ x then x - S else x + N - S := by
  split
  · next h => rw [show x + N - S = x - S + N by omega, Nat.add_mod_right, Nat.mod_eq_of_lt (by omega)]
  · next h => exact Nat.mod_eq_of_lt (by omega)

/-- Settles O31: the steps from S to T and from S to `now` are told apart by which of the two wrapped. -/
theorem timedOutCountsFromTheStart : Obligations.TimedOutCountsFromTheStart := by
  refine ⟨timedOut_iff, fun N S T now hS hT hnow => ?_⟩
  rw [timedOut_iff, clock_steps_eq hS hT, clock_steps_eq hS hnow]
  split_ifs <;> omega

/-! ## The start of a WAIT (R160, R165) -/

/-- Whatever a READ answers, it moves only the hardware, the history and the count of draws. -/
theorem busRead_works (s : State) (addr : Word) : Works s (busRead s addr).2 := by
  obtain ⟨v, u, read, work⟩ | ⟨e, u, read, hu⟩ := busRead_cases s addr <;> rw [read]
  · exact work
  · rcases hu with hu | hu <;> rw [hu]
    · exact .refl s
    · exact .drawn s

/-- A READ delivers the value or the error of its access (R146). -/
theorem exec_read_cases {s t : State} {addr : Word} (h : exec (.read addr) s = .next t) :
    ∃ u, Works s u ∧ ((∃ v, busRead s addr = (.ok v, u) ∧ t = u.deliver (.word v)) ∨
      ∃ e, busRead s addr = (.error e, u) ∧ t = u.deliver (.error e)) := by
  have ends : endRead (busRead s addr) = t := Host.Outcome.next.inj h
  have work := busRead_works s addr
  cases read : busRead s addr with
  | mk x u =>
    rw [read] at ends work
    cases x with
    | ok v => exact ⟨u, work, .inl ⟨v, rfl, ends.symm⟩⟩
    | error e => exact ⟨u, work, .inr ⟨e, rfl, ends.symm⟩⟩

/-- The issuing thread receives the result of its transaction (R400). -/
theorem Works.result_deliver {s u : State} (h : Works s u) (r : Result) :
    ((u.deliver r).thread s.turn).result = some r := by
  rw [← h.turn, State.thread_deliver_turn]

/-- A READ whose thread received a value read that value. -/
theorem busRead_of_word {s t : State} {addr v : Word} (h : exec (.read addr) s = .next t)
    (hr : (t.thread s.turn).result = some (.word v)) :
    ∃ u, Works s u ∧ busRead s addr = (.ok v, u) ∧ t = u.deliver (.word v) := by
  obtain ⟨u, work, ⟨v', read, rfl⟩ | ⟨e, read, rfl⟩⟩ := exec_read_cases h
  · rw [work.result_deliver] at hr
    cases hr
    exact ⟨u, work, read, rfl⟩
  · rw [work.result_deliver] at hr
    cases hr

/-- A READ whose thread received an error failed with that error. -/
theorem busRead_of_error {s t : State} {addr : Word} {e : Err} (h : exec (.read addr) s = .next t)
    (hr : (t.thread s.turn).result = some (.error e)) :
    ∃ u, busRead s addr = (.error e, u) ∧ t = u.deliver (.error e) := by
  obtain ⟨u, work, ⟨v, read, rfl⟩ | ⟨e', read, rfl⟩⟩ := exec_read_cases h
  · rw [work.result_deliver] at hr
    cases hr
  · rw [work.result_deliver] at hr
    cases hr
    exact ⟨u, read, rfl⟩

/-- A WAIT whose timeouts are at most one period polls in its start step (R160). -/
theorem exec_wait_start {s : State} {cyc ms : Nat} (hc : cyc ≤ 2 ^ s.params.cycleBits)
    (hm : ms ≤ 2 ^ s.params.millisBits) (addr expected mask : Word) :
    exec (.wait addr expected mask cyc ms) s = .next (waitPoll (waitStart addr expected mask cyc ms s) s) := by
  have ok : (timeoutOk cyc s.params.cycleBits && timeoutOk ms s.params.millisBits) = true := by
    simp [timeoutOk, hc, hm]
  exact if_pos ok

/-- A timeout above one period ends the WAIT before its first poll (R406). -/
theorem exec_wait_illegal {s : State} {cyc ms : Nat} (h : 2 ^ s.params.cycleBits < cyc ∨ 2 ^ s.params.millisBits < ms)
    (addr expected mask : Word) :
    exec (.wait addr expected mask cyc ms) s = .next (s.raise (.illegalArgument [cyc, ms])) := by
  have illegal : ¬ (timeoutOk cyc s.params.cycleBits && timeoutOk ms s.params.millisBits) = true := by
    simpa [timeoutOk, imp_iff_not_or] using h
  exact if_neg illegal

/-- A poll that reads the expected value ends the WAIT with it (R164, R165). -/
theorem waitPoll_match {w : WaitState} {s u : State} {v : Word} (read : busRead s w.addr = (.ok v, u))
    (hv : v &&& w.mask = w.expected) : waitPoll w s = u.finish (.word w.expected) := by
  have stop : waitOver w w.expected u = true := (waitOver_iff ..).mpr (.inl rfl)
  simp only [waitPoll, read, hv, stop, if_true]

/-- A poll whose READ fails ends the WAIT with that error (R407). -/
theorem waitPoll_error {w : WaitState} {s u : State} {e : Err} (read : busRead s w.addr = (.error e, u)) :
    waitPoll w s = u.finish (.error e) := by
  simp only [waitPoll, read]

/-- The first poll of a WAIT suspends it on any other value: no timeout has run out at its start (R162, R163). -/
theorem waitPoll_start_suspends {s u : State} {addr expected mask v : Word} {cyc ms : Nat} (work : Works s u)
    (read : busRead s addr = (.ok v, u)) (hv : v &&& mask ≠ expected) :
    waitPoll (waitStart addr expected mask cyc ms s) s =
      u.proceed (.waiting { waitStart addr expected mask cyc ms s with mayPoll := false }) := by
  have on : ¬ waitOver (waitStart addr expected mask cyc ms s) (v &&& mask) u = true := by
    rw [waitOver_iff, work.cycles, work.millis]
    simp [waitStart, timedOut_start, hv]
  have read' : busRead s (waitStart addr expected mask cyc ms s).addr = (.ok v, u) := read
  rw [waitPoll, read']
  exact if_neg on

/-- Settles O32: the first poll is the READ, and it reads the expected value. -/
theorem waitReturnsAtOnceOnAMatch : Obligations.WaitReturnsAtOnceOnAMatch := by
  constructor
  · intro s t addr expected mask v cyc ms hread hr hv hc hm
    obtain ⟨u, _, read, rfl⟩ := busRead_of_word hread hr
    rw [exec_wait_start hc hm, State.finish_deliver, waitPoll_match read hv]
    rfl
  · intro s addr mask cyc ms p r a hit plain hc hm
    have read := busRead_hit hit
    rw [pioRead_plain plain] at read
    rw [exec_wait_start hc hm, waitPoll_match read rfl]
    rfl

/-- Settles O33: the first poll is the READ, and its error or its value decides; the timeouts are checked before it. -/
theorem waitSuspendsOrFails : Obligations.WaitSuspendsOrFails := by
  intro s t addr expected mask cyc ms hread
  refine ⟨fun v hr hv hc hm => ?suspends, fun e hr hc hm => ?fails, fun h => exec_wait_illegal h addr expected mask⟩
  case suspends =>
    obtain ⟨u, work, read, rfl⟩ := busRead_of_word hread hr
    rw [exec_wait_start hc hm, State.proceed_deliver, waitPoll_start_suspends work read hv]
    rfl
  case fails =>
    obtain ⟨u, read, rfl⟩ := busRead_of_error hread hr
    rw [exec_wait_start hc hm, State.finish_deliver, waitPoll_error read]

/-! ## The later polls of a WAIT (R160, R163, R166) -/

/-- A listed move of a waiting thread whose next poll is not enabled does nothing (R163; log 15). -/
theorem step_of_suspended {s : State} {t : Nat} {w : WaitState} {ms : List Move} (h : s.Live)
    (ho : (s.thread t).op = .waiting w) (hp : w.mayPoll = false) (hm : s.moves = .host t :: ms) :
    step s = .next { s with moves := ms } := by
  have hop : (({ s with moves := ms } : State).thread t).op = .waiting w := ho
  rw [step_of_move h hm]
  unfold perform hostMove
  dsimp only
  rw [hop]
  simp [hp]

/-- The step of a waiting thread that is not excluded and whose next poll is enabled (R160, R163). -/
theorem step_of_polling {s : State} {t : Nat} {w : WaitState} {ms : List Move} (h : s.Live)
    (hf : s.critical = none ∨ s.critical = some t) (ho : (s.thread t).op = .waiting w) (hp : w.mayPoll = true)
    (hm : s.moves = .host t :: ms) : step s = .next (waitPoll w { s with moves := ms, turn := t }) := by
  have hop : (({ s with moves := ms } : State).thread t).op = .waiting w := ho
  have free : excluded { s with moves := ms } t = false := by
    rcases hf with hf | hf <;> simp [excluded, hf]
  rw [step_of_move h hm]
  unfold perform hostMove
  dsimp only
  rw [free, hop]
  simp [hp]

/-- A waiting thread that is woken has its next poll enabled and nothing of its WAIT cancelled (R163, R166). -/
theorem Thread.wake_waiting {x : Thread} {w : WaitState} (h : x.op = .waiting w) :
    x.wake = { x with op := .waiting { w with mayPoll := true } } := by
  simp only [Thread.wake, h]

/-- Waking every listed thread wakes each thread: one not listed is idle. -/
theorem threadAt_map_wake (l : List Thread) (n : Nat) : threadAt (l.map Thread.wake) n = (threadAt l n).wake := by
  unfold threadAt
  rw [List.getElem?_map]
  cases l[n]? with
  | none | some _ => rfl

/-- Settles O34: the move of a suspended thread does nothing, and the clocks and the interruption wake the thread. -/
theorem pollWaitsForAClockStep : Obligations.PollWaitsForAClockStep := by
  intro s t w ms m live waiting
  refine ⟨fun suspended hm => step_of_suspended live waiting suspended hm, fun hw hm => ?wakes⟩
  case wakes =>
    rw [step_of_move live hm, ← Thread.wake_waiting waiting]
    rcases hw with rfl | rfl | rfl
    · exact ⟨_, rfl, threadAt_map_wake s.threads t, rfl, rfl, rfl⟩
    · exact ⟨_, rfl, threadAt_map_wake s.threads t, rfl, rfl, rfl⟩
    · exact ⟨_, rfl, State.thread_setThread_same .., rfl, rfl, rfl⟩

/-- Settles O35: the step is one poll of a register that neither pops nor draws. -/
theorem laterPollDecidesByValueAndTimeouts : Obligations.LaterPollDecidesByValueAndTimeouts := by
  intro s t w ms p r a live free waiting enabled hm hit plain u
  have hit' : Hits { s with moves := ms, turn := t } w.addr p r a := hit
  rw [step_of_polling live (.inl free) waiting enabled hm, waitPoll_plain hit' plain]
  simp only [waitOver_iff]
  rfl

end Sys2Proof.Machine
end

section
/-! SUPPORT. The CSR family (41_csr): what a READ of a FIFO or of an instruction word answers (R188, R191, R210); the
writes that do more than store their value: flags (R184, R195, R196), CTRL (R186), TXFn (R190), SHIFTCTRL (R200, R201),
SMn_INSTR (R211); and the moves of the engine (R230, R231). -/

namespace Sys2Proof.Machine

open Sys2Proof

/-! ## FIFO predicates (R192) -/

/-- Settles O16: each join mode gives the two capacities, and the predicates compare a length with a capacity. -/
theorem fifoPredicatesByJoin : Obligations.FifoPredicatesByJoin := by
  intro m jr jt hr ht notBoth
  simp only [Sm.txReadsFull, Sm.txReadsEmpty, Sm.rxReadsFull, Sm.rxReadsEmpty, Sm.txLevel, Sm.rxLevel, Sm.capTx, Sm.capRx,
    Sm.joinRx, Sm.joinTx, Config.fifoDepth, hr, ht]
  cases jr <;> cases jt
  case true.true => exact absurd ⟨rfl, rfl⟩ notBoth
  all_goals simp

/-! ## Reads that pop or draw (R188, R191, R210) -/

/-- A READ of a register, by what the block's side of it answers. -/
theorem exec_read_of_pioRead {s u : State} {addr v : Word} {p : PioId} {r : Reg} {a : BitVec 2} (hit : Hits s addr p r a)
    (read : pioRead s p r = (v, u)) : exec (.read addr) s = .next ((u.emit (.rd addr v)).deliver (.word v)) := by
  rw [exec_read_hit hit, read]

/-- A FIFO that does not read empty gives its head word (R191). -/
theorem pioRead_rxf_pop {s : State} {p : PioId} {n : SmId} {w : Word} {ws : List Word}
    (filled : (s.sm p n).rxReadsEmpty = false) (rx : (s.sm p n).rx = w :: ws) :
    pioRead s p (.rxf n) = (w, (s.modSm p n fun m => { m with rx := ws }).emit (.pop p n w)) := by
  simp only [pioRead, readRx, filled, rx]

/-- A FIFO that reads empty answers a draw and records the underflow (R191). -/
theorem pioRead_rxf_underflow {s : State} {p : PioId} {n : SmId} (empty : (s.sm p n).rxReadsEmpty = true) :
    pioRead s p (.rxf n) =
      (Config.freeWord s.draws, (s.modPio p fun x => { x with rxunder := x.rxunder ||| oneHot n }).drawn) := by
  simp only [pioRead, readRx, empty]

theorem pioRead_instrMem_stored {s : State} (mode : s.params.imemReadMode = .stored) (p : PioId) (i : Fin 32) :
    pioRead s p (.instrMem i) = (((s.pio p).word i).setWidth 32, s) := by
  simp only [pioRead, mode, pioView]

theorem pioRead_instrMem_draw {s : State} (mode : s.params.imemReadMode = .draw) (p : PioId) (i : Fin 32) :
    pioRead s p (.instrMem i) = (Config.freeWord s.draws, s.drawn) := by
  simp only [pioRead, mode]

theorem pioRead_smInstr_free {s : State} {p : PioId} {n : SmId} (free : (s.sm p n).pending = none) :
    pioRead s p (.smInstr n) = (((s.pio p).word (s.sm p n).pc.toFin).setWidth 32, s) := by
  simp [pioRead, pioView, free]

theorem pioRead_smInstr_pending {s : State} {p : PioId} {n : SmId} (pending : (s.sm p n).pending ≠ none) :
    pioRead s p (.smInstr n) = (Config.freeWord s.draws, s.drawn) := by
  obtain ⟨w, hw⟩ := Option.ne_none_iff_exists'.mp pending
  simp [pioRead, pioView, hw]

/-- Settles O17: the head word, or a draw with the underflow flag; `applyWrite` ignores every write. -/
theorem rxfReadPopsOrUnderflows : Obligations.RxfReadPopsOrUnderflows := by
  intro s addr p n
  exact ⟨fun a w ws hit filled rx => exec_read_of_pioRead hit (pioRead_rxf_pop filled rx),
    fun a hit empty => ⟨_, exec_read_of_pioRead hit (pioRead_rxf_underflow empty)⟩,
    fun i bits mask xor write => exec_writes_ok write rfl⟩

/-- Settles O18, by the read mode of INSTR_MEMi and by whether a word is pending. -/
theorem instructionWordReads : Obligations.InstructionWordReads := by
  intro s addr p i n a answers draws
  exact ⟨fun hit mode => exec_read_of_pioRead hit (pioRead_instrMem_stored mode p i),
    fun hit mode => ⟨_, exec_read_of_pioRead hit (pioRead_instrMem_draw mode p i)⟩,
    fun hit free => exec_read_of_pioRead hit (pioRead_smInstr_free free),
    fun hit pending => ⟨_, exec_read_of_pioRead hit (pioRead_smInstr_pending pending)⟩⟩

/-! ## Flags (R184, R195, R196) and read-only registers (R183) -/

/-- After a write to FDEBUG it reads as before without the flags set in the written data (R195). -/
theorem fdebug_writeFdebug (s : State) (p : PioId) (d : Word) :
    ((writeFdebug s p d).pio p).fdebug = (s.pio p).fdebug &&& ~~~d := by
  rw [writeFdebug, State.pio_modPio_same]
  exact fourNibbles_cleared ..

/-- The data of WRITE.XOR holds no bit that is set in the old value: what it clears was clear (R184). -/
theorem and_not_xorData (old v : Word) : old &&& ~~~(~~~old &&& v) = old := by
  ext i hi
  cases h : old[i] <;> simp [h]

/-- Settles O22: `applyWrite` clears or sets by the written data, which is v for WRITE and WRITE.SET and holds no set
flag of FDEBUG for WRITE.XOR and WRITE.CLR. -/
theorem flagWritesClearAndForce : Obligations.FlagWritesClearAndForce := by
  constructor
  · intro i s addr bits mask xor p
    exact ⟨fun write => exec_writes_ok write rfl, fun write => exec_writes_ok write rfl,
      fun write => exec_writes_ok write rfl, rfl⟩
  · intro s t addr v p a hit run
    rw [exec_writeForm_ok hit rfl] at run
    cases run
    refine (fdebug_writeFdebug s p _).trans ?_
    split_ifs
    · rfl
    · exact and_not_xorData ..
    · exact BitVec.and_allOnes

/-- A read-only register takes no write (R183). -/
theorem applyWrite_readOnly {r : Reg} (h : readOnly r = true) (s : State) (p : PioId) (new d : Word) :
    applyWrite s p r new d = .ok s := by
  cases r with
  | fstat | flevel | dbgPadout | dbgPadoe | dbgCfginfo | smAddr | intr | ints => rfl
  | _ => exact absurd h Bool.false_ne_true

/-- Settles O23: the write ends as a write of any register does, and the register is as it was. -/
theorem readOnlyRegistersIgnoreWrites : Obligations.ReadOnlyRegistersIgnoreWrites :=
  fun _ s _ _ _ _ p _ hr write => exec_writes_ok write (applyWrite_readOnly hr s p _ _)

/-! ## CTRL (R185, R186, R205) -/

/-- A PIO after the restart of every state machine whose strobe bit is set (R186). -/
def Pio.restartedAll (x : Pio) (strobe : BitVec 4) : Pio :=
  (((x.restarted strobe 0).restarted strobe 1).restarted strobe 2).restarted strobe 3

theorem Pio.sm_restartedAll (x : Pio) (strobe : BitVec 4) (k : SmId) :
    (x.restartedAll strobe).sm k =
      if strobe.getLsbD k.val then { x.sm k with pending := none, execStalled := false } else x.sm k := by
  simp only [Pio.restartedAll, Pio.sm_restarted]
  match k with
  | 0 | 1 | 2 | 3 => simp

/-- A PIO seen as its registers outside the state machines, those of x, and its own four state machines. -/
def Pio.withSmsOf (x y : Pio) : Pio := { x with sm0 := y.sm0, sm1 := y.sm1, sm2 := y.sm2, sm3 := y.sm3 }

theorem Pio.eq_withSmsOf_restarted {x y : Pio} (h : y = x.withSmsOf y) (strobe : BitVec 4) (n : SmId) :
    y.restarted strobe n = x.withSmsOf (y.restarted strobe n) := by
  unfold Pio.restarted
  split
  · rw [h]
    match n with
    | 0 | 1 | 2 | 3 => rfl
  · exact h

/-- Restarts touch nothing of a PIO outside its state machines (R205). -/
theorem Pio.restartedAll_eq (x : Pio) (strobe : BitVec 4) :
    x.restartedAll strobe = x.withSmsOf (x.restartedAll strobe) :=
  eq_withSmsOf_restarted (eq_withSmsOf_restarted (eq_withSmsOf_restarted (eq_withSmsOf_restarted rfl strobe 0) strobe 1)
    strobe 2) strobe 3

/-- The restart events of a CTRL write with this strobe, in the order of the state machines (R186; log 23). -/
def restartEvents (p : PioId) (strobe : SmId → Bool) : List Event :=
  ([0, 1, 2, 3].filter strobe).map fun n => .smRestart p (1#4 <<< n.val)

/-- Each kept entry gives one mapped entry, in order. -/
theorem map_filter_cons {α β : Type} (f : α → Bool) (g : α → β) (a : α) (l : List α) :
    ((a :: l).filter f).map g = (if f a then [g a] else []) ++ (l.filter f).map g := by
  rw [List.filter_cons]
  split <;> rfl

theorem restartEvents_eq (p : PioId) (strobe : SmId → Bool) :
    restartEvents p strobe =
      (if strobe 0 then [.smRestart p (oneHot 0)] else []) ++ (if strobe 1 then [.smRestart p (oneHot 1)] else []) ++
      (if strobe 2 then [.smRestart p (oneHot 2)] else []) ++ (if strobe 3 then [.smRestart p (oneHot 3)] else []) := by
  simp only [restartEvents, map_filter_cons, List.filter_nil, List.map_nil, List.append_nil, List.append_assoc]
  rfl

/-- Bit n of a write's restart strobe is bit 4 + n of its data (R186). -/
theorem getLsbD_strobe (d : Word) (n : SmId) : (d.extractLsb' 4 4).getLsbD n.val = d.getLsbD (4 + n.val) := by
  simp [n.isLt]

/-- A CTRL write changes one PIO and the history. -/
theorem writeCtrl_put (s : State) (p : PioId) (new d : Word) :
    writeCtrl s p new d =
      s.put p ({ s.pio p with smEnable := new.extractLsb' 0 4 }.restartedAll (d.extractLsb' 4 4))
        (s.history ++ restartEvents p (fun n => d.getLsbD (4 + n.val)) ++
          (if d.extractLsb' 8 4 = 0#4 then [] else [.clkdivRestart p (d.extractLsb' 8 4)])) := by
  rw [writeCtrl_eq, restartEvents_eq]
  simp only [← getLsbD_strobe, List.append_assoc]
  rfl

/-- Settles O24: the state after the write differs in PIO p and in the history, as `writeCtrl_put` says. -/
theorem ctrlWriteEnablesAndRestarts : Obligations.CtrlWriteEnablesAndRestarts := by
  intro i s addr bits mask xor p write new d
  have run := exec_writes_ok write rfl
  rw [writeCtrl_put, State.put_emit] at run
  refine ⟨_, run, ?view, ?outside, fun n => ?sms, ?events, ?frame⟩
  case view =>
    show ((State.pio _ p).smEnable).setWidth 32 = _
    rw [State.pio_deliver, State.pio_put, Pio.restartedAll_eq]
    rfl
  case outside =>
    rw [State.pio_deliver, State.pio_put]
    exact Pio.restartedAll_eq ..
  case sms =>
    rw [State.sm_deliver, State.sm_put, Pio.sm_restartedAll, getLsbD_strobe]
    match n with
    | 0 | 1 | 2 | 3 => rfl
  case events => rfl
  case frame =>
    rw [State.pio_deliver, State.pio_put]
    exact State.put_deliver ..

/-! ## TXFn (R190) -/

theorem writeTx_full {s : State} {p : PioId} {n : SmId} (full : (s.sm p n).txReadsFull = true) (w : Word) :
    writeTx s p n w = s.modPio p fun x => { x with txover := x.txover ||| oneHot n } := if_pos full

theorem writeTx_push {s : State} {p : PioId} {n : SmId} (space : (s.sm p n).txReadsFull = false) (w : Word) :
    writeTx s p n w = (s.modSm p n fun m => { m with tx := m.tx ++ [w] }).emit (.push p n w) :=
  if_neg (by simp [space])

/-- Settles O25: TXFn views 0, and its write is `writeTx` of the new value. -/
theorem txfWritePushesOrOverflows : Obligations.TxfWritePushesOrOverflows := by
  intro i s addr bits mask xor p n
  exact ⟨fun write full => exec_writes_ok write (congrArg Except.ok (writeTx_full full _)),
    fun write space => exec_writes_ok write (congrArg Except.ok (writeTx_push space _)),
    fun a hit => exec_read_of_pioRead hit rfl⟩

/-! ## SHIFTCTRL (R200, R201) and SMn_INSTR (R211) -/

/-- Settles O26, by whether a join bit changes. -/
theorem shiftctrlWriteFlushesOnJoinChange : Obligations.ShiftctrlWriteFlushesOnJoinChange := by
  intro i s addr bits mask xor p n write old new notBoth
  split
  · next same => exact exec_writes_ok write (writeShiftctrl_same notBoth same)
  · next changed => exact exec_writes_ok write (writeShiftctrl_flush notBoth changed)

theorem writeShiftctrl_refused {new : Word} (rx : new.getLsbD 31 = true) (tx : new.getLsbD 30 = true) (s : State)
    (p : PioId) (n : SmId) : writeShiftctrl s p n new = .error .bothJoined := if_pos (by simp [rx, tx])

/-- Settles O27: a new value with both join bits is refused before anything is stored. -/
theorem bothJoinsAreRefused : Obligations.BothJoinsAreRefused :=
  fun _ s _ _ _ _ p n write rx tx => exec_writes_refused write (writeShiftctrl_refused rx tx s p n)

theorem writeInstrReg_refused {s : State} {p : PioId} {n : SmId} (pending : (s.sm p n).pending ≠ none)
    (stalled : (s.sm p n).execStalled = true) (refuse : s.params.execOverwrite = .refuse) (w : Half) :
    writeInstrReg s p n w = .error .execWhileStalled :=
  if_pos (by simp [Option.isSome_iff_ne_none, pending, stalled, refuse])

/-- Settles O28: the word becomes pending, whether it stalls is a draw, or the write is refused over a stalled word. -/
theorem instrWriteHandsTheWordToTheEngine : Obligations.InstrWriteHandsTheWordToTheEngine := by
  intro i s addr bits mask xor p n write
  exact ⟨fun free => ⟨Config.freeBit s.draws, exec_writes_ok write (writeInstrReg_ok free _)⟩,
    fun pending stalled refuse => exec_writes_refused write (writeInstrReg_refused pending stalled refuse _)⟩

/-! ## The engine (R230, R231) -/

/-- `active(p, n)` (R231): enabled, or with a word pending. -/
theorem active_iff (x : Pio) (n : SmId) :
    x.active n = true ↔ x.smEnable.getLsbD n.val = true ∨ (x.sm n).pending ≠ none := by
  rw [Pio.active, Bool.or_eq_true, Option.isSome_iff_ne_none]

theorem anyActive_iff (x : Pio) :
    x.anyActive = true ↔ ∃ n : SmId, x.smEnable.getLsbD n.val = true ∨ (x.sm n).pending ≠ none := by
  simp only [← active_iff, Pio.anyActive, Bool.or_eq_true]
  constructor
  · rintro (((h | h) | h) | h) <;> exact ⟨_, h⟩
  · rintro ⟨n, h⟩
    match n with
    | 0 | 1 | 2 | 3 => simp [h]

/-- A move, given its guard and its effect on the state. -/
theorem engineMove_does {s t : State} {p : PioId} {m : EngineMove} {guard : Prop}
    (enabled : engineEnabled (s.pio p) m = true ↔ guard) (effect : (s.modPio p fun x => engineEffect x m) = t) :
    (guard → engineMove p m s = t.emit (.engine p m)) ∧ (¬ guard → engineMove p m s = s) := by
  rw [engineMove, effect, ← enabled]
  exact ⟨fun h => if_pos h, fun h => if_neg h⟩

/-- E2 takes the word exactly when the FIFO does not read full: one without storage reads full (R192, R230). -/
theorem rxCanTake_iff (m : Sm) : m.rxCanTake = !m.rxReadsFull := by
  unfold Sm.rxCanTake Sm.rxReadsFull
  rcases Nat.eq_zero_or_pos m.capRx with h | h <;> simp [h]

theorem modPio_pushRx (s : State) (p : PioId) (n : SmId) (w : Word) :
    (s.modPio p fun x => engineEffect x (.pushRx n w)) =
      if (s.sm p n).rxReadsFull = true then s else s.modSm p n fun m => { m with rx := m.rx ++ [w] } := by
  have can : ((s.pio p).sm n).rxCanTake = !(s.sm p n).rxReadsFull := rxCanTake_iff _
  cases full : (s.sm p n).rxReadsFull <;> simp [State.modSm, State.modPio, engineEffect, can, full]

/-- Settles O49, move by move: `engineMove_does` with the move's guard and its effect. -/
theorem engineMovesHaveTheirEffectAndGuard : Obligations.EngineMovesHaveTheirEffectAndGuard := by
  intro s p n w out oe j v active does
  have guard : (s.pio p).active n = true ↔ active n := active_iff _ n
  have anyGuard : (s.pio p).anyActive = true ↔ ∃ k, active k := anyActive_iff _
  have pending : (s.sm p n).pending.isSome = true ↔ (s.sm p n).pending ≠ none := Option.isSome_iff_ne_none
  exact ⟨engineMove_does guard rfl, engineMove_does guard (modPio_pushRx s p n w), engineMove_does guard rfl,
    engineMove_does guard rfl, engineMove_does anyGuard rfl, engineMove_does anyGuard rfl, engineMove_does guard rfl,
    engineMove_does anyGuard rfl, engineMove_does pending rfl, engineMove_does pending rfl⟩

/-- What a move can do to its PIO (R230): it changes the FIFOs, pc, pending word and stall of one state machine, which
is active if the move is enabled; or the stall flags, the IRQ flags and the pads. -/
theorem engineEffect_cases (x : Pio) (m : EngineMove) :
    (∃ n tx rx pc stalled pending, (engineEnabled x m = true → x.active n = true) ∧ engineEffect x m =
      x.setSm n { x.sm n with tx := tx, rx := rx, pc := pc, execStalled := stalled, pending := pending }) ∨
    (∃ txstall rxstall irq padout padoe, engineEffect x m =
      { x with txstall := txstall, rxstall := rxstall, irq := irq, padout := padout, padoe := padoe }) := by
  have activeOfPending : ∀ n, (x.sm n).pending.isSome = true → x.active n = true := fun n h => by
    rw [Pio.active, h, Bool.or_true]
  cases m with
  | popTx n => exact .inl ⟨n, _, _, _, _, _, id, rfl⟩
  | pushRx n w =>
    by_cases can : (x.sm n).rxCanTake = true
    · exact .inl ⟨n, _, _, _, _, _, id, if_pos can⟩
    · exact .inr ⟨_, _, _, _, _, if_neg can⟩
  | setPc n v => exact .inl ⟨n, _, _, _, _, _, id, rfl⟩
  | execDone n => exact .inl ⟨n, _, _, _, _, _, activeOfPending n, rfl⟩
  | execStall n => exact .inl ⟨n, _, _, _, _, _, activeOfPending n, rfl⟩
  | stallTx | stallRx | irqFlag | setPads => exact .inr ⟨_, _, _, _, _, rfl⟩

/-- A PIO after a move: as before, or the effect of an enabled move of its own engine. -/
theorem pio_engineMove (p q : PioId) (m : EngineMove) (s : State) :
    (engineMove p m s).pio q = s.pio q ∨
    (q = p ∧ engineEnabled (s.pio q) m = true ∧ (engineMove p m s).pio q = engineEffect (s.pio q) m) := by
  unfold engineMove
  split
  · next enabled =>
    rw [State.pio_emit, State.pio_modPio]
    split
    · next own => subst own; exact .inr ⟨rfl, enabled, rfl⟩
    · exact .inl rfl
  · exact .inl rfl

/-- An idle state machine is not active (R231). -/
theorem not_active {x : Pio} {n : SmId} (disabled : x.smEnable.getLsbD n.val = false) (free : (x.sm n).pending = none) :
    ¬ x.active n = true := by
  rw [active_iff, disabled, free]
  simp

/-- A move that is enabled changes nothing of an idle state machine (R231). -/
theorem sm_engineEffect_idle {y : Pio} {m : EngineMove} {n : SmId} (enabled : engineEnabled y m = true)
    (idle : ¬ y.active n = true) : (engineEffect y m).sm n = y.sm n := by
  rcases engineEffect_cases y m with ⟨k, _, _, _, _, _, active, e⟩ | ⟨_, _, _, _, _, e⟩
  · have other : n ≠ k := fun hk => idle (hk ▸ active enabled)
    rw [e, Pio.sm_setSm_ne _ _ other]
  · rw [e]
    rfl

/-- x and y agree on what is the host's of a PIO: the instruction memory, the occupancy, SM_ENABLE, IRQk_INTE, IRQk_INTF,
INPUT_SYNC_BYPASS and every state machine's configuration words (R230). -/
structure Pio.SameForHost (x y : Pio) : Prop where
  imem            : x.imem = y.imem
  occ             : x.occ = y.occ
  smEnable        : x.smEnable = y.smEnable
  irq0Inte        : x.irq0Inte = y.irq0Inte
  irq1Inte        : x.irq1Inte = y.irq1Inte
  irq0Intf        : x.irq0Intf = y.irq0Intf
  irq1Intf        : x.irq1Intf = y.irq1Intf
  inputSyncBypass : x.inputSyncBypass = y.inputSyncBypass
  words           : ∀ n, (x.sm n).clkdiv = (y.sm n).clkdiv ∧ (x.sm n).execctrl = (y.sm n).execctrl ∧
    (x.sm n).shiftctrl = (y.sm n).shiftctrl ∧ (x.sm n).pinctrl = (y.sm n).pinctrl

theorem Pio.SameForHost.refl (x : Pio) : x.SameForHost x :=
  ⟨rfl, rfl, rfl, rfl, rfl, rfl, rfl, rfl, fun _ => ⟨rfl, rfl, rfl, rfl⟩⟩

/-- The engine writes nothing that is the host's (R230). -/
theorem sameForHost_engineEffect (y : Pio) (m : EngineMove) : (engineEffect y m).SameForHost y := by
  rcases engineEffect_cases y m with ⟨k, _, _, _, _, _, _, e⟩ | ⟨_, _, _, _, _, e⟩
  · rw [e]
    refine ⟨by simp, by simp, by simp, by simp, by simp, by simp, by simp, by simp, fun n => ?_⟩
    rw [Pio.sm_setSm]
    split
    · next own => subst own; exact ⟨rfl, rfl, rfl, rfl⟩
    · exact ⟨rfl, rfl, rfl, rfl⟩
  · rw [e]
    exact ⟨rfl, rfl, rfl, rfl, rfl, rfl, rfl, rfl, fun _ => ⟨rfl, rfl, rfl, rfl⟩⟩

/-- Settles O50: a PIO is as it was, or its engine moved, which keeps what is the host's and every idle state machine. -/
theorem engineLeavesTheHostsRegisters : Obligations.EngineLeavesTheHostsRegisters := by
  intro s p q n m x y
  have kept : x.SameForHost y ∧ (q ≠ p → x = y) ∧ (¬ y.active n = true → x.sm n = y.sm n) := by
    rcases pio_engineMove p q m s with same | ⟨own, enabled, effect⟩
    · rw [show x = y from same]
      exact ⟨.refl y, fun _ => rfl, fun _ => rfl⟩
    · rw [show x = engineEffect y m from effect]
      exact ⟨sameForHost_engineEffect y m, fun other => absurd own other, sm_engineEffect_idle enabled⟩
  obtain ⟨host, other, idle⟩ := kept
  obtain ⟨clkdiv, execctrl, shiftctrl, pinctrl⟩ := host.words n
  exact ⟨host.imem, host.occ, host.smEnable, host.irq0Inte, host.irq1Inte, host.irq0Intf, host.irq1Intf,
    host.inputSyncBypass, clkdiv, execctrl, shiftctrl, pinctrl, other, fun disabled free => idle (not_active disabled free)⟩

end Sys2Proof.Machine
end

section
/-! SUPPORT. The allocator family (42_allocator): where an allocation goes, what it occupies and places, what a
deallocation frees, and which operands are refused. -/

namespace Sys2Proof.Machine

open Sys2Proof

/-! ## The search for a place (R265, R266) -/

theorem findPlace_first {occ amask : Word} {k : Nat} (hk : k < 32) (fits : rotl32 amask k &&& occ = 0#32)
    (least : ∀ j < k, rotl32 amask j &&& occ ≠ 0#32) : findPlace occ amask (-1) = some (rotl32 amask k, k) := by
  have origin : ¬ (0 : Int) ≤ -1 := by decide
  rw [findPlace, if_neg origin, firstFit_least hk fits least]

theorem findPlace_noFit {occ amask : Word} (noFit : ∀ j < 32, rotl32 amask j &&& occ ≠ 0#32) :
    findPlace occ amask (-1) = none := by
  have origin : ¬ (0 : Int) ≤ -1 := by decide
  rw [findPlace, if_neg origin, firstFit_none noFit]

theorem findPlace_fixed (occ amask : Word) (k : Nat) :
    findPlace occ amask k = if amask &&& occ = 0#32 then some (amask, k) else none :=
  if_pos (Int.natCast_nonneg k)

/-- What the search answers meets no occupied slot: the mask itself at its origin, or the mask rotated to an offset in
0..31. -/
theorem findPlace_cases {occ amask m : Word} {origin : Int} {k : Nat} (h : findPlace occ amask origin = some (m, k)) :
    m &&& occ = 0#32 ∧ ((0 ≤ origin ∧ k = origin.toNat ∧ m = amask) ∨ (origin < 0 ∧ k < 32 ∧ m = rotl32 amask k)) := by
  unfold findPlace at h
  split at h
  · next fixed =>
    split at h
    · next free => cases h; exact ⟨free, .inl ⟨fixed, rfl, rfl⟩⟩
    · cases h
  · next relocatable =>
    split at h
    · next hk =>
      cases h
      obtain ⟨bound, free⟩ := firstFit_fits hk
      exact ⟨free, .inr ⟨not_le.mp relocatable, bound, rfl⟩⟩
    · cases h

theorem pioOf_lt {p : Nat} {q : PioId} (h : pioOf p = some q) : p < 2 := by
  by_contra hp
  rw [pioOf_none (not_lt.mp hp)] at h
  cases h

/-! ## ALLOC (R265 to R268, R408) -/

theorem allocArgsOk_iff (amask : Word) (origin : Int) :
    allocArgsOk amask origin = true ↔ amask ≠ 0#32 ∧ -1 ≤ origin ∧ origin ≤ 31 := by
  simp only [allocArgsOk, Bool.and_eq_true, decide_eq_true_eq, and_assoc]

theorem allocate_place {s : State} {p : PioId} {amask m : Word} {origin : Int} {k : Nat}
    (args : allocArgsOk amask origin = true) (place : findPlace (s.pio p).occ amask origin = some (m, k)) (check : Bool) :
    allocate p.val amask origin check s = .ok (k, if check then s else occupy s p m k) := by
  simp only [allocate, pioOf_val, args, if_true, place]

theorem allocate_noPlace {s : State} {p : PioId} {amask : Word} {origin : Int}
    (args : allocArgsOk amask origin = true) (noPlace : findPlace (s.pio p).occ amask origin = none) (check : Bool) :
    allocate p.val amask origin check s =
      if check then .ok (-1, s) else .error (.allocationFailed amask origin (s.pio p).occ) := by
  simp only [allocate, pioOf_val, args, if_true, noPlace]

theorem allocate_illegal {p : Nat} {amask : Word} {origin : Int}
    (bad : 2 ≤ p ∨ amask = 0#32 ∨ origin < -1 ∨ 31 < origin) (check : Bool) (s : State) :
    allocate p amask origin check s = .error (.illegalArgument [p, amask.toNat, origin]) := by
  unfold allocate
  split
  · rfl
  · next q hq =>
    refine if_neg fun args => ?_
    have hp := pioOf_lt hq
    obtain ⟨mask, low, high⟩ := (allocArgsOk_iff amask origin).mp args
    rcases bad with h | h | h | h
    · omega
    · exact mask h
    · omega
    · omega

/-- ALLOC ends as `allocate` does (R265). -/
theorem exec_alloc (p : Nat) (amask : Word) (origin : Int) (check : Bool) (s : State) :
    exec (.alloc p amask origin check) s = .next (endOffset (allocate p amask origin check s) s) := rfl

/-- Settles O37, by what the search answers: the place of each kind of origin, or none. -/
theorem allocTakesItsPlace : Obligations.AllocTakesItsPlace := by
  intro s p amask k nonzero hk occ takes fails
  have relocatable : allocArgsOk amask (-1) = true := (allocArgsOk_iff _ _).mpr ⟨nonzero, by decide, by decide⟩
  have fixed : allocArgsOk amask k = true := (allocArgsOk_iff _ _).mpr ⟨nonzero, by omega, by omega⟩
  have takes_of {origin : Int} {m : Word} (args : allocArgsOk amask origin = true)
      (place : findPlace occ amask origin = some (m, k)) : takes origin m := by
    constructor <;> rw [exec_alloc, allocate_place args place] <;> rfl
  have fails_of {origin : Int} (args : allocArgsOk amask origin = true) (noPlace : findPlace occ amask origin = none) :
      fails origin := by
    constructor <;> rw [exec_alloc, allocate_noPlace args noPlace] <;> rfl
  exact ⟨fun fits least => takes_of relocatable (findPlace_first hk fits least),
    fun free => takes_of fixed ((findPlace_fixed ..).trans (if_pos free)),
    fun noFit => fails_of relocatable (findPlace_noFit noFit),
    fun meets => fails_of fixed ((findPlace_fixed ..).trans (if_neg meets))⟩

/-! ## DEALLOC and RMPROG (R270 to R272, R283) -/

/-- The bounds of a legal descriptor that placement rests on (R260). -/
theorem descOk_bounds {d : Desc} (h : descOk d = true) :
    -1 ≤ d.origin ∧ d.origin ≤ 31 ∧ 1 ≤ d.instrs.length ∧ d.instrs.length ≤ 32 := by
  simp only [descOk, Bool.and_eq_true, decide_eq_true_eq] at h
  obtain ⟨⟨⟨⟨⟨⟨⟨⟨_, low⟩, high⟩, _⟩, _⟩, _⟩, nonempty⟩, fits⟩, _⟩ := h
  exact ⟨low, high, nonempty, fits⟩

theorem offsetOk_iff (k : Int) : offsetOk k = true ↔ 0 ≤ k ∧ k ≤ 31 := by
  simp only [offsetOk, Bool.and_eq_true, decide_eq_true_eq]

theorem offsetFits_iff (d : Desc) (k : Int) : offsetFits d k = true ↔ ¬ (0 ≤ d.origin ∧ k ≠ d.origin) := by
  simp only [offsetFits, Bool.not_eq_true', Bool.and_eq_false_iff, decide_eq_false_iff_not, not_and_or]

theorem offsetOk_natCast {k : Nat} (h : k < 32) : offsetOk k = true := (offsetOk_iff _).mpr ⟨by omega, by omega⟩

/-- A relocatable program fits any offset, a fixed one its origin. -/
theorem offsetFits_of_origin {d : Desc} {k : Nat} (h : d.origin = -1 ∨ d.origin = k) : offsetFits d k = true :=
  (offsetFits_iff _ _).mpr (by omega)

/-- DEALLOC and RMPROG both end as `deallocate` does (R270, R283). -/
theorem exec_removals {p : Nat} {prog : Desc} {offset : Int} {s t : State} (run : deallocate p prog offset s = t) :
    exec (.dealloc p prog offset) s = .next t ∧ exec (.rmprog p prog offset) s = .next t :=
  ⟨congrArg _ run, congrArg _ run⟩

/-- The state after the slots of `m` are freed (R270). -/
def freeSlots (s : State) (p : PioId) (m : Word) (offset : Int) : State :=
  ((s.modPio p fun x => { x with occ := x.occ &&& ~~~m }).emit (.dealloc p m offset)).deliver .unit

/-- A deallocation with legal operands frees the program's slots if all are occupied, and else is the double-free
fault. -/
theorem deallocate_eq {prog : Desc} {offset : Nat} (legal : descOk prog = true) (bound : offset < 32)
    (origin : prog.origin = -1 ∨ prog.origin = offset) (s : State) (p : PioId) :
    deallocate p.val prog offset s =
      if placedMask prog.instrs.length offset &&& ~~~(s.pio p).occ = 0#32 then
        freeSlots s p (placedMask prog.instrs.length offset) offset
      else s.fatal ⟨placedMask prog.instrs.length offset, (s.pio p).occ⟩ := by
  simp only [deallocate, legal, pioOf_val, offsetOk_natCast bound, offsetFits_of_origin origin, if_true,
    Int.toNat_natCast, freeSlots]

/-- Settles O39: the condition of `deallocate_eq` holds. -/
theorem deallocFreesTheProgramsSlots : Obligations.DeallocFreesTheProgramsSlots := by
  intro s p prog offset legal bound origin placed freed
  exact exec_removals ((deallocate_eq legal bound origin s p).trans (if_pos placed))

/-- Settles O41: the condition of `deallocate_eq` fails, and a machine with the fault mark has no step. -/
theorem doubleFreeIsFatal : Obligations.DoubleFreeIsFatal := by
  intro s p prog offset legal bound origin expected unplaced marked
  obtain ⟨dealloc, rmprog⟩ := exec_removals ((deallocate_eq legal bound origin s p).trans (if_neg unplaced))
  exact ⟨dealloc, rmprog, congrArg Pio.occ (State.pio_fatal s ⟨expected, (s.pio p).occ⟩ p), step_of_faultMark rfl⟩

/-- Every end of a deallocation: an error, the fault, or slots freed. -/
theorem deallocate_cases (p : Nat) (prog : Desc) (offset : Int) (s : State) :
    (∃ e, deallocate p prog offset s = s.raise e) ∨ (∃ info, deallocate p prog offset s = s.fatal info) ∨
    ∃ q m, deallocate p prog offset s = freeSlots s q m offset := by
  unfold deallocate
  split
  · split
    · exact .inl ⟨_, rfl⟩
    · split
      · split
        · dsimp only
          split
          · exact .inr (.inr ⟨_, _, rfl⟩)
          · exact .inr (.inl ⟨_, rfl⟩)
        · exact .inl ⟨_, rfl⟩
      · exact .inl ⟨_, rfl⟩
  · exact .inl ⟨_, rfl⟩

theorem imem_freeSlots (s : State) (p q : PioId) (m : Word) (offset : Int) :
    ((freeSlots s p m offset).pio q).imem = (s.pio q).imem := by
  rw [freeSlots, State.pio_deliver, State.pio_emit, State.pio_modPio]
  split
  · next own => rw [own]
  · rfl

/-- Settles O40: both are `deallocate`, and no end of it touches an instruction memory. -/
theorem rmprogIsDealloc : Obligations.RmprogIsDealloc := by
  refine fun s t p q prog offset => ⟨rfl, fun h => ?_⟩
  cases h
  show ((deallocate p prog offset s).pio q).imem = (s.pio q).imem
  rcases deallocate_cases p prog offset s with ⟨e, h⟩ | ⟨info, h⟩ | ⟨k, m, h⟩
  · rw [h, State.pio_raise]
  · rw [h, State.pio_fatal]
  · rw [h, imem_freeSlots]

/-! ## IMCLEAR (R275) -/

theorem exec_imclear_illegal {p : Nat} (h : 2 ≤ p) (s : State) :
    exec (.imclear p) s = .next (s.deliver (.error (.illegalArgument [p]))) := by
  simp only [exec, execImclear, pioOf_none h]
  rfl

/-- Clearing the first k words leaves a PIO with some memory whose first k words are 0. -/
theorem clearWords_put (s : State) (p : PioId) (x : Pio) (h : List Event) (k : Nat) (hk : k ≤ 32) :
    ∃ v : Vector Half 32, (∀ i (hi : i < 32), i < k → v[i] = 0#16) ∧
      clearWords (s.put p x h) p k = s.put p { x with imem := v } h := by
  induction k with
  | zero => exact ⟨x.imem, fun _ _ hi => absurd hi (Nat.not_lt_zero _), rfl⟩
  | succ k ih =>
    obtain ⟨v, zeros, run⟩ := ih (by omega)
    refine ⟨v.set k 0#16 (by omega), fun i hi hik => ?_, ?_⟩
    · rw [Vector.getElem_set]
      split
      · rfl
      · exact zeros i hi (by omega)
    · rw [clearWords, run, storeWord_put]
      have slot : (Fin.ofNat 32 k).val = k := Nat.mod_eq_of_lt hk
      simp only [Pio.setWord, slot]
      rfl

theorem clearWords_all (s : State) (p : PioId) (x : Pio) (h : List Event) :
    clearWords (s.put p x h) p 32 = s.put p { x with imem := Vector.replicate 32 0#16 } h := by
  obtain ⟨v, zeros, run⟩ := clearWords_put s p x h 32 le_rfl
  have cleared : v = Vector.replicate 32 0#16 := Vector.ext fun i hi => by rw [zeros i hi hi, Vector.getElem_replicate]
  rw [run, cleared]

/-- Settles O42: emptying the occupancy and clearing all 32 words is one change of the PIO. -/
theorem imclearEmptiesOccupancyAndMemory : Obligations.ImclearEmptiesOccupancyAndMemory := by
  refine ⟨fun s p => ?_, fun s p h => exec_imclear_illegal h s⟩
  simp only [exec, execImclear, pioOf_val, State.modPio_eq_put, clearWords_all]

/-! ## ADDPROG and ADDPROGAT (R280 to R282) -/

theorem allocAndPlace_error {p : Nat} {amask : Word} {origin : Int} {s : State} {e : Err}
    (h : allocate p amask origin false s = .error e) (prog : Desc) : allocAndPlace p amask origin prog s = .error e := by
  simp only [allocAndPlace, h]

/-- The state with the slots of `m` occupied and the words of `ws` placed from slot `k` on, with their events (R282;
log 23). -/
def withProgram (s : State) (p : PioId) (m : Word) (k : Nat) (ws : List Nat) : State :=
  s.put p ({ s.pio p with occ := (s.pio p).occ ||| m }.placed k 0 ws)
    (s.history ++ Event.alloc p m k :: placeEvents p k 0 ws)

theorem pio_withProgram (s : State) (p : PioId) (m : Word) (k : Nat) (ws : List Nat) (r : Result) :
    ((withProgram s p m k ws).deliver r).pio p = { s.pio p with occ := (s.pio p).occ ||| m }.placed k 0 ws := by
  rw [State.pio_deliver, withProgram, State.pio_put]

theorem result_withProgram (s : State) (p : PioId) (m : Word) (k : Nat) (ws : List Nat) (r : Result) :
    (((withProgram s p m k ws).deliver r).thread s.turn).result = some r := by
  have turn : (withProgram s p m k ws).turn = s.turn := State.turn_setPio ..
  rw [← turn, State.thread_deliver_turn]

theorem allocAndPlace_place {s : State} {p : PioId} {amask m : Word} {origin : Int} {k : Nat}
    (args : allocArgsOk amask origin = true) (place : findPlace (s.pio p).occ amask origin = some (m, k)) (prog : Desc) :
    allocAndPlace p.val amask origin prog s = .ok (k, withProgram s p m k prog.instrs) := by
  have run : placeFrom p k 0 prog.instrs (occupy s p m k) = withProgram s p m k prog.instrs := by
    rw [occupy, State.modPio_eq_put, State.put_emit, placeFrom_put, List.append_assoc]
    rfl
  simp only [allocAndPlace, pioOf_val, allocate_place args place, Int.toNat_natCast, ← run]
  rfl

/-- ADDPROG of a legal program ends as its allocation and placement do (R280). -/
theorem exec_addprog {prog : Desc} (legal : descOk prog = true) (p : Nat) (s : State) :
    exec (.addprog p prog) s = .next (endOffset (allocAndPlace p (allocMask prog) prog.origin prog s) s) := if_pos legal

/-- ADDPROGAT with legal operands ends as its allocation and placement do (R281). -/
theorem exec_addprogat_legal {prog : Desc} {offset : Int} (legal : descOk prog = true) (bound : offsetOk offset = true)
    (fits : offsetFits prog offset = true) (p : Nat) (s : State) :
    exec (.addprogat p prog offset) s =
      .next (endOffset (allocAndPlace p (placedMask prog.instrs.length offset.toNat) offset prog s) s) := by
  simp only [exec, execAddprogat, legal, bound, fits, if_true]

theorem allocMask_relocatable {d : Desc} (h : d.origin < 0) : allocMask d = lowmask d.instrs.length := by
  rw [allocMask, if_neg (by omega), placedMask, rotl32_zero]

theorem allocMask_fixed {d : Desc} {k : Nat} (h : d.origin = k) : allocMask d = placedMask d.instrs.length k := by
  rw [allocMask, h, if_pos (Int.natCast_nonneg k), Int.toNat_natCast]

theorem findPlace_allocMask_relocatable {d : Desc} (occ : Word) (h : d.origin = -1) :
    findPlace occ (allocMask d) d.origin = findPlace occ (lowmask d.instrs.length) (-1) := by
  rw [allocMask_relocatable (by omega), h]

theorem findPlace_allocMask_fixed {d : Desc} {k : Nat} (occ : Word) (h : d.origin = k) :
    findPlace occ (allocMask d) d.origin =
      if placedMask d.instrs.length k &&& occ = 0#32 then some (placedMask d.instrs.length k, k) else none := by
  rw [allocMask_fixed h, h, findPlace_fixed]

/-- The mask of a legal program is a legal mask wherever it is placed. -/
theorem allocArgsOk_placedMask {d : Desc} (legal : descOk d = true) {k : Nat} (hk : k < 32) {origin : Int}
    (low : -1 ≤ origin) (high : origin ≤ 31) : allocArgsOk (placedMask d.instrs.length k) origin = true := by
  obtain ⟨_, _, nonempty, fits⟩ := descOk_bounds legal
  exact (allocArgsOk_iff _ _).mpr ⟨placedMask_ne_zero nonempty fits hk, low, high⟩

theorem allocArgsOk_allocMask {d : Desc} (legal : descOk d = true) : allocArgsOk (allocMask d) d.origin = true := by
  obtain ⟨low, high, _, _⟩ := descOk_bounds legal
  exact allocArgsOk_placedMask legal (by split <;> omega) low high

/-- Where ADDPROG's search places a program: at a slot in 0..31 that agrees with its origin, on free slots. -/
theorem findPlace_program {d : Desc} {occ m : Word} {k : Nat} (legal : descOk d = true)
    (place : findPlace occ (allocMask d) d.origin = some (m, k)) :
    m = placedMask d.instrs.length k ∧ m &&& occ = 0#32 ∧ k < 32 ∧ (d.origin = -1 ∨ d.origin = k) := by
  obtain ⟨low, high, _, _⟩ := descOk_bounds legal
  obtain ⟨free, ⟨fixed, rfl, rfl⟩ | ⟨relocatable, bound, rfl⟩⟩ := findPlace_cases place
  · exact ⟨allocMask_fixed (by omega), free, by omega, .inr (by omega)⟩
  · rw [allocMask_relocatable relocatable] at free ⊢
    exact ⟨rfl, free, bound, .inl (by omega)⟩

theorem exec_addprog_place {s : State} {p : PioId} {prog : Desc} {m : Word} {k : Nat} (legal : descOk prog = true)
    (place : findPlace (s.pio p).occ (allocMask prog) prog.origin = some (m, k)) :
    exec (.addprog p.val prog) s = .next ((withProgram s p m k prog.instrs).deliver (.offset k)) := by
  rw [exec_addprog legal, allocAndPlace_place (allocArgsOk_allocMask legal) place]
  rfl

theorem exec_addprog_noPlace {s : State} {p : PioId} {prog : Desc} (legal : descOk prog = true)
    (noPlace : findPlace (s.pio p).occ (allocMask prog) prog.origin = none) :
    exec (.addprog p.val prog) s =
      .next (s.deliver (.error (.allocationFailed (allocMask prog) prog.origin (s.pio p).occ))) := by
  rw [exec_addprog legal, allocAndPlace_error (allocate_noPlace (allocArgsOk_allocMask legal) noPlace false)]
  rfl

/-- ADDPROGAT at an offset that agrees with the program's origin: its slots decide between placement and failure. -/
theorem exec_addprogat {prog : Desc} {k : Nat} (legal : descOk prog = true) (hk : k < 32)
    (origin : prog.origin = -1 ∨ prog.origin = k) (s : State) (p : PioId) :
    exec (.addprogat p.val prog k) s = .next (
      if placedMask prog.instrs.length k &&& (s.pio p).occ = 0#32 then
        (withProgram s p (placedMask prog.instrs.length k) k prog.instrs).deliver (.offset k)
      else s.deliver (.error (.allocationFailed (placedMask prog.instrs.length k) k (s.pio p).occ))) := by
  have args : allocArgsOk (placedMask prog.instrs.length k) k = true :=
    allocArgsOk_placedMask legal hk (by omega) (by omega)
  rw [exec_addprogat_legal legal (offsetOk_natCast hk) (offsetFits_of_origin origin), Int.toNat_natCast]
  split
  · next free =>
    rw [allocAndPlace_place args ((findPlace_fixed ..).trans (if_pos free))]
    rfl
  · next meets =>
    rw [allocAndPlace_error (allocate_noPlace args ((findPlace_fixed ..).trans (if_neg meets)) false)]
    rfl

/-- Settles O43, by what the search answers: with a place the program stands at it as `withProgram` says, without one
the allocation's error is the end. -/
theorem addprogPlacesItsWords : Obligations.AddprogPlacesItsWords := by
  intro s p prog k legal hk len occ mask places fails
  obtain ⟨_, _, _, lenFits⟩ := descOk_bounds legal
  have places_of : ∀ {i}, exec i s = .next ((withProgram s p mask k prog.instrs).deliver (.offset k)) → places i := by
    intro i run
    refine ⟨_, run, ?result, ?outside, fun i hi => ?placed, fun j other => ?others, ?events, ?frame⟩
    case result => exact result_withProgram ..
    case outside => rw [pio_withProgram]; exact Pio.placed_eq ..
    case placed =>
      have word := Pio.word_placed k 0 prog.instrs { s.pio p with occ := occ ||| mask } i hi lenFits
      rw [Nat.zero_add] at word
      rw [pio_withProgram]
      exact word
    case others =>
      rw [pio_withProgram]
      exact Pio.word_placed_other k 0 prog.instrs _ j fun i hi => by rw [Nat.zero_add]; exact other i hi
    case events =>
      rw [State.history_deliver, withProgram, State.history_put, placeEvents_eq]
      simp only [Nat.zero_add]
      rfl
    case frame => rw [pio_withProgram]; exact State.put_deliver ..
  refine ⟨fun free => ⟨fun origin least => ?least, fun origin => ?fixed, fun origin => ?atOffset⟩,
    fun origin noFit => ?noFit, fun meets => ⟨fun origin => ?fixedFails, fun origin => ?atFails⟩⟩
  case least =>
    have place := (findPlace_allocMask_relocatable occ origin).trans (findPlace_first hk free least)
    exact places_of (exec_addprog_place legal place)
  case fixed =>
    have place := (findPlace_allocMask_fixed occ origin).trans (if_pos free)
    exact places_of (exec_addprog_place legal place)
  case atOffset => exact places_of ((exec_addprogat legal hk origin s p).trans (congrArg _ (if_pos free)))
  case noFit =>
    have noPlace := (findPlace_allocMask_relocatable occ origin).trans (findPlace_noFit noFit)
    have failure := exec_addprog_noPlace legal noPlace
    rwa [allocMask_relocatable (by omega), origin] at failure
  case fixedFails =>
    have noPlace := (findPlace_allocMask_fixed occ origin).trans (if_neg meets)
    have failure := exec_addprog_noPlace legal noPlace
    rwa [allocMask_fixed origin, origin] at failure
  case atFails => exact (exec_addprogat legal hk origin s p).trans (congrArg _ (if_neg meets))

/-- An ADDPROG that answered an offset placed its program there. -/
theorem placed_of_addprog {s t : State} {p : PioId} {prog : Desc} {k : Int} (legal : descOk prog = true)
    (run : exec (.addprog p.val prog) s = .next t) (answer : (t.thread s.turn).result = some (.offset k)) :
    ∃ (m : Word) (j : Nat), k = j ∧ findPlace (s.pio p).occ (allocMask prog) prog.origin = some (m, j) ∧
      t = (withProgram s p m j prog.instrs).deliver (.offset j) := by
  cases place : findPlace (s.pio p).occ (allocMask prog) prog.origin with
  | none =>
    rw [exec_addprog_noPlace legal place] at run
    cases run
    rw [State.thread_deliver_turn] at answer
    cases answer
  | some found =>
    obtain ⟨m, j⟩ := found
    rw [exec_addprog_place legal place] at run
    cases run
    rw [result_withProgram] at answer
    cases answer
    exact ⟨m, j, rfl, rfl, rfl⟩

/-- Settles O44: the program stands on slots that were free, so its removal finds them occupied and frees just them. -/
theorem addThenRemoveRestoresOccupancy : Obligations.AddThenRemoveRestoresOccupancy := by
  intro s t p prog k legal run answer
  obtain ⟨m, j, rfl, place, rfl⟩ := placed_of_addprog legal run answer
  obtain ⟨rfl, free, bound, origin⟩ := findPlace_program legal place
  generalize ht : (withProgram s p (placedMask prog.instrs.length j) j prog.instrs).deliver (.offset j) = t
  have occ : (t.pio p).occ = (s.pio p).occ ||| placedMask prog.instrs.length j := by
    rw [← ht, pio_withProgram, Pio.placed_eq]
  have occupied : placedMask prog.instrs.length j &&& ~~~(t.pio p).occ = 0#32 := by
    rw [occ]
    exact taken_occupied _ _
  refine ⟨_, (deallocFreesTheProgramsSlots t p prog j legal bound origin occupied).2, ?_, State.faultMark_modPio ..⟩
  rw [State.pio_deliver, State.pio_emit, State.pio_modPio_same, occ]
  exact free_taken free

/-! ## Operands out of range (R401) -/

theorem deallocate_illegal {p : Nat} {prog : Desc} {offset : Int} (legal : descOk prog = true)
    (bad : 2 ≤ p ∨ offset < 0 ∨ 31 < offset) (s : State) :
    deallocate p prog offset s = s.raise (.illegalArgument [p, offset]) := by
  rw [deallocate, if_pos legal]
  split
  · rfl
  · next q hq =>
    refine if_neg fun bound => ?_
    have hp := pioOf_lt hq
    have := (offsetOk_iff _).mp bound
    omega

theorem deallocate_misfit {p : Nat} {prog : Desc} {offset : Int} (legal : descOk prog = true) (hp : p < 2)
    (bound : offsetOk offset = true) (misfit : ¬ offsetFits prog offset = true) (s : State) :
    deallocate p prog offset s = s.raise (.illegalArgument [prog.origin, offset]) := by
  rw [deallocate, if_pos legal, show pioOf p = some ⟨p, hp⟩ from pioOf_val ⟨p, hp⟩]
  dsimp only
  rw [if_pos bound, if_neg misfit]

theorem deallocate_badDesc {prog : Desc} (bad : ¬ descOk prog = true) (p : Nat) (offset : Int) (s : State) :
    deallocate p prog offset s = s.raise (.illegalArgument (descInfo prog)) := if_neg bad

theorem exec_addprogat_illegal {prog : Desc} {offset : Int} (legal : descOk prog = true)
    (bad : ¬ offsetOk offset = true) (p : Nat) (s : State) :
    exec (.addprogat p prog offset) s = .next (s.raise (.illegalArgument [offset])) := by
  simp only [exec, execAddprogat, legal, if_true, if_neg bad]

theorem exec_addprogat_misfit {prog : Desc} {offset : Int} (legal : descOk prog = true) (bound : offsetOk offset = true)
    (misfit : ¬ offsetFits prog offset = true) (p : Nat) (s : State) :
    exec (.addprogat p prog offset) s = .next (s.raise (.illegalArgument [prog.origin, offset])) := by
  simp only [exec, execAddprogat, legal, bound, if_true, if_neg misfit]

/-- An allocation and placement on a PIO that is none ends with ALLOC's error (R280, R281). -/
theorem endOffset_allocAndPlace_noPio {p : Nat} (h : 2 ≤ p) (amask : Word) (origin : Int) (prog : Desc) (s : State) :
    endOffset (allocAndPlace p amask origin prog s) s = s.raise (.illegalArgument [p, amask.toNat, origin]) := by
  rw [allocAndPlace_error (allocate_illegal (.inl h) false s)]
  rfl

/-- Settles O38, transaction by transaction: the first check that fails gives the error. -/
theorem allocatorRefusesBadOperands : Obligations.AllocatorRefusesBadOperands := by
  intro s p amask origin offset check prog illegal misfit mask
  have fits_iff : offsetFits prog offset = true ↔ ¬ misfit := offsetFits_iff ..
  refine ⟨fun bad => ?alloc, fun bad => exec_imclear_illegal bad s, fun legal => ?operands, fun bad => ?desc⟩
  case alloc =>
    show exec _ _ = _
    rw [exec_alloc, allocate_illegal bad]
    rfl
  case operands =>
    have inRange : 0 ≤ offset → offset ≤ 31 → offsetOk offset = true := fun low high =>
      (offsetOk_iff _).mpr ⟨low, high⟩
    have misfits (mis : misfit) : ¬ offsetFits prog offset = true := fun fit => fits_iff.mp fit mis
    refine ⟨fun bad => exec_removals (deallocate_illegal legal bad s),
      fun hp low high mis => exec_removals (deallocate_misfit legal hp (inRange low high) (misfits mis) s),
      fun bad => exec_addprogat_illegal legal ?_ p s,
      fun low high mis => exec_addprogat_misfit legal (inRange low high) (misfits mis) p s,
      fun low high fit hp => (exec_addprogat_legal legal (inRange low high) (fits_iff.mpr fit) p s).trans ?_,
      fun hp => (exec_addprog legal p s).trans ?_⟩
    · rw [offsetOk_iff]
      omega
    · rw [endOffset_allocAndPlace_noPio hp]
      rfl
    · rw [endOffset_allocAndPlace_noPio hp]
      rfl
  case desc =>
    have bad' : ¬ descOk prog = true := Bool.eq_false_iff.mp bad
    obtain ⟨dealloc, rmprog⟩ := exec_removals (deallocate_badDesc bad' p offset s)
    exact ⟨descInfo prog, fun noValue => bad' ((descInfo_eq_nil prog).mp noValue), mem_descInfo prog, dealloc, rmprog,
      if_neg bad', if_neg bad'⟩

end Sys2Proof.Machine
end

section
/-! SUPPORT. The control family (43_control): the transactions each operation takes and the operands it refuses (R320 to
R337); uninterrupted runs of transactions, for smClearFIFOs (R334) and a pin helper's frame (R340); the critical section of
a pin helper (R345, R407); and the configuration builder's setters (R301). -/

namespace Sys2Proof.Machine

open Sys2Proof

/-! ## Operand checks (R320) -/

/-- Operands in range start the operation. -/
theorem withSm_ok (p : PioId) (n : SmId) (more : List Int) {ok : Bool} (h : ok = true) (k : PioId → SmId → MacroState) :
    withSm p.val n.val more ok k = .ok (k p n) := by
  simp only [withSm, pioOf_val, smOf_val, h]

/-- A PIO or state-machine index out of range, or a further operand that fails its check, is ILLEGAL_ARGUMENT. -/
theorem withSm_illegal {p n : Nat} {ok : Bool} (h : 2 ≤ p ∨ 4 ≤ n ∨ ok = false) (more : List Int)
    (k : PioId → SmId → MacroState) : ∃ info, withSm p n more ok k = .error (.illegalArgument info) := by
  refine ⟨[(p : Int), (n : Int)] ++ more, ?_⟩
  unfold withSm
  split
  · next hp hn =>
    rcases h with h | h | h
    · rw [pioOf_none h] at hp
      cases hp
    · rw [smOf_none h] at hn
      cases hn
    · cases h
  · rfl

theorem withMask_ok (p : PioId) {m : Nat} (h : m ≤ 15) (k : PioId → MacroState) : withMask p.val m k = .ok (k p) := by
  simp only [withMask, pioOf_val, decide_eq_true h]

/-- A PIO index or a state-machine mask out of range is ILLEGAL_ARGUMENT. -/
theorem withMask_illegal {p m : Nat} (h : 2 ≤ p ∨ 16 ≤ m) (k : PioId → MacroState) :
    ∃ info, withMask p m k = .error (.illegalArgument info) := by
  refine ⟨[p, m], ?_⟩
  unfold withMask
  split
  · next hp hm =>
    rcases h with h | h
    · rw [pioOf_none h] at hp
      cases hp
    · exact absurd (of_decide_eq_true hm) (by omega)
  · rfl

/-! ## The transactions (R321 to R337) -/

/-- A number shifted to its place in a word. -/
theorem ofNat_shiftLeft (v k : Nat) : BitVec.ofNat 32 v <<< k = BitVec.ofNat 32 (2 ^ k * v) := by
  apply BitVec.eq_of_toNat_eq
  simp [Nat.shiftLeft_eq, Nat.mul_comm]

/-- smSetEnabled writes the enable bit of its state machine alone (R322). -/
theorem enableTxn_eq (p : PioId) (n : SmId) (en : Bool) :
    enableTxn p n (if en then 1 else 0) =
      .writem (regAddr p .ctrl) (if en then 1#32 <<< n.val else 0#32) (1#32 <<< n.val) false := by
  cases en <;> simp [enableTxn, maskReg, smBitAt]

theorem restartTxn_eq (p : PioId) (m : Nat) :
    restartTxn p m =
      .writem (regAddr p .ctrl) (BitVec.ofNat 32 (16 * m)) (BitVec.ofNat 32 (16 * m)) false := by
  rw [restartTxn, ofNat_shiftLeft]
  rfl

theorem clkdivTxn_eq (p : PioId) (m : Nat) :
    clkdivTxn p m =
      .writem (regAddr p .ctrl) (BitVec.ofNat 32 (256 * m)) (BitVec.ofNat 32 (256 * m)) false := by
  rw [clkdivTxn, ofNat_shiftLeft]
  rfl

/-- The two nibbles of enableSmMaskInSync, restart and enable, do not overlap (R325). -/
theorem enableInSyncTxn_eq (p : PioId) {m : Nat} (h : m < 16) :
    enableInSyncTxn p m =
      .writem (regAddr p .ctrl) (BitVec.ofNat 32 (257 * m)) (BitVec.ofNat 32 (257 * m)) false := by
  have join : 2 ^ 8 * m ||| m = 257 * m := by
    rw [← Nat.two_pow_add_eq_or_of_lt (by omega) m]
    omega
  rw [enableInSyncTxn, ofNat_shiftLeft, ← BitVec.ofNat_or, join]
  rfl

theorem execReg_ofNat (p : PioId) (n : SmId) (w : Half) :
    execReg p n (BitVec.ofNat 16 w.toNat) = .writeRw (regAddr p (.smInstr n)) (w.setWidth 32) := by
  rw [BitVec.ofNat_toNat, BitVec.setWidth_eq]
  rfl

/-- The field a query answers is the bits of the word read at its place (R330). -/
theorem contNext_field (lsb : Nat) {width : Nat} (h : width ≤ 32) (v : Word) :
    contNext (.field lsb width) (.word v) = .finish (.word ((v.extractLsb' lsb width).setWidth 32)) := by
  have bits : (v >>> lsb) &&& lowmask width = (v.extractLsb' lsb width).setWidth 32 := by
    apply BitVec.eq_of_getLsbD_eq
    intro i hi
    rw [BitVec.getLsbD_and, getLsbD_lowmask h]
    simp [hi, Bool.and_comm]
  exact congrArg (fun w => MacroNext.finish (.word w)) bits

/-- A field of one bit reads as 1 or 0 (R330). -/
theorem extract_one (v : Word) (lsb : Nat) :
    (v.extractLsb' lsb 1).setWidth 32 = if v.getLsbD lsb then 1#32 else 0#32 := by
  have bit : v.extractLsb' lsb 1 = BitVec.ofBool (v.getLsbD lsb) := by
    apply BitVec.eq_of_getLsbD_eq
    intro i hi
    obtain rfl : i = 0 := by omega
    simp
  rw [bit]
  cases v.getLsbD lsb <;> rfl

/-- Settles O52: operands in range pass `withSm` or `withMask`, each transaction is its equation above, and operands out
of range fail there. -/
theorem controlOperationsAreTheirTransactions : Obligations.ControlOperationsAreTheirTransactions := by
  refine ⟨fun p n m en w v c hm => ?taken, fun lsb v => ⟨?bit, contNext_field lsb (by decide) v⟩,
    fun p n m en instr c v q => ⟨fun bad => ?indices, fun bad => ?enable, fun bad => ?exec, fun bad => ?masks⟩⟩
  case taken =>
    have mask : m ≤ 15 := by omega
    have enabled : decide ((if en then 1 else 0) ≤ 1) = true := by cases en <;> rfl
    have word : decide (w.toNat ≤ 0xFFFF) = true := decide_eq_true (by have := w.isLt; omega)
    refine ⟨withSm_ok p n _ rfl _, ?_, ?_, ?_, ?_, ?_, withSm_ok p n _ rfl _, withSm_ok p n _ rfl _,
      withSm_ok p n _ rfl _, withSm_ok p n _ rfl _, withSm_ok p n _ rfl _, withSm_ok p n _ rfl _,
      withSm_ok p n _ rfl _, withSm_ok p n _ rfl _⟩
    · rw [← enableTxn_eq]
      exact withSm_ok p n _ enabled _
    · rw [← restartTxn_eq]
      exact withMask_ok p mask _
    · rw [← clkdivTxn_eq]
      exact withMask_ok p mask _
    · rw [← enableInSyncTxn_eq p hm]
      exact withMask_ok p mask _
    · rw [← execReg_ofNat]
      exact withSm_ok p n _ word _
  case bit => rw [contNext_field lsb (by decide), extract_one]
  case indices =>
    have bad' : 2 ≤ p ∨ 4 ≤ n ∨ true = false := bad.imp_right .inl
    exact ⟨withSm_illegal bad' _ _, withSm_illegal bad' _ _, withSm_illegal bad' _ _, withSm_illegal bad' _ _⟩
  case enable =>
    exact withSm_illegal (bad.imp_right (.imp_right fun h => decide_eq_false (by omega))) _ _
  case exec =>
    exact withSm_illegal (bad.imp_right (.imp_right fun h => decide_eq_false (by omega))) _ _
  case masks => exact ⟨withMask_illegal bad _, withMask_illegal bad _, withMask_illegal bad _⟩

/-- smInit's eleven transactions, spelled out for each state machine (R335, R337). -/
theorem initTxns_eq (p : PioId) (n : SmId) (pc : BitVec 5) (c : SmConfig) :
    initTxns p n pc.toNat c =
      [.writem (regAddr p .ctrl) 0#32 (1#32 <<< n.val) false,
       .writeRw (regAddr p (.smClkdiv n)) c.clkdiv, .writeRw (regAddr p (.smExecctrl n)) c.execctrl,
       .writeRw (regAddr p (.smShiftctrl n)) c.shiftctrl, .writeRw (regAddr p (.smPinctrl n)) c.pinctrl,
       .writem (regAddr p (.smShiftctrl n)) 0x80000000#32 0x80000000#32 true,
       .writem (regAddr p (.smShiftctrl n)) 0x80000000#32 0x80000000#32 true,
       .writeRw (regAddr p .fdebug) (0x01010101#32 <<< n.val),
       .writem (regAddr p .ctrl) (0x10#32 <<< n.val) (0x10#32 <<< n.val) false,
       .writem (regAddr p .ctrl) (0x100#32 <<< n.val) (0x100#32 <<< n.val) false,
       .writeRw (regAddr p (.smInstr n)) (pc.setWidth 32)] := by
  have jump : execReg p n (jmpAlwaysWord (BitVec.ofNat 5 pc.toNat)) =
      .writeRw (regAddr p (.smInstr n)) (pc.setWidth 32) := by
    rw [BitVec.ofNat_toNat, BitVec.setWidth_eq, execReg, jmpAlwaysWord, BitVec.setWidth_setWidth (by decide)]
    rfl
  rw [initTxns, jump]
  match n with
  | 0 | 1 | 2 | 3 => rfl

/-- Settles O51: operands in range pass `withSm`, the eleven transactions are `initTxns_eq`, and operands out of range
fail there. -/
theorem smInitIsElevenTransactions : Obligations.SmInitIsElevenTransactions := by
  refine ⟨fun p n pc config => ?taken, fun p n pc config bad => ?illegal⟩
  case taken =>
    intro c
    have inRange : decide (pc.toNat ≤ 31) = true := decide_eq_true (by have := pc.isLt; omega)
    rw [← initTxns_eq]
    exact withSm_ok p n _ inRange _
  case illegal => exact withSm_illegal (bad.imp_right (.imp_right fun h => decide_eq_false (by omega))) _ _

/-! ## Uninterrupted runs of transactions -/

/-- A transaction that ends in a live machine is followed by the rest of the run. -/
theorem runTxns_cons {i : Instr} {s u : State} (h : exec i s = .next u) (live : u.Live) (is : List Instr) :
    runTxns (i :: is) s = runTxns is u := by
  rw [runTxns, h]
  exact if_pos ((State.unmarked_iff u).mpr live)

/-! ## smClearFIFOs (R334) -/

/-- One toggle of FJOIN_RX on a state machine whose TX join is off changes a join bit, so it flushes both FIFOs (R200). -/
theorem exec_toggleTxn {s : State} {p : PioId} {n : SmId} (live : s.Live) (txOff : (s.sm p n).shiftctrl.getLsbD 30 = false)
    (hit : Hits s (regAddr p (.smShiftctrl n)) p (.smShiftctrl n) 0#2) :
    ∃ t, exec (toggleTxn p n) s = .next t ∧ t.Live ∧ t.params = s.params ∧
      t.sm p n = { s.sm p n with
        shiftctrl := ((s.sm p n).shiftctrl ^^^ 0x80000000#32) &&& 0xFFFF0000#32, tx := [], rx := [] } := by
  have value : maskedValue (s.sm p n).shiftctrl 0x80000000#32 0x80000000#32 true =
      (s.sm p n).shiftctrl ^^^ 0x80000000#32 := by
    rw [← writtenValue_maskedValue, writtenValue_xor]
  have txStays : ((s.sm p n).shiftctrl ^^^ 0x80000000#32).getLsbD 30 = false := by
    rw [BitVec.getLsbD_xor, txOff]
    rfl
  have rxTurns : ((s.sm p n).shiftctrl ^^^ 0x80000000#32).getLsbD 31 ≠ (s.sm p n).shiftctrl.getLsbD 31 := by
    rw [BitVec.getLsbD_xor]
    cases (s.sm p n).shiftctrl.getLsbD 31 <;> decide
  rw [← value] at txStays rxTurns ⊢
  have flushes := writeShiftctrl_flush (s := s) (p := p) (n := n)
    (fun both => Bool.false_ne_true (txStays.symm.trans both.2)) (fun same => rxTurns same.1)
  refine ⟨_, exec_writes_ok (.inl ⟨rfl, hit⟩) flushes, ?live, ?params, ?sm⟩
  case live => simpa [State.Live] using live
  case params => simp
  case sm => simp

theorem xor_and (v w k : Word) : (v ^^^ w) &&& k = (v &&& k) ^^^ (w &&& k) := by
  ext i hi
  simp [Bool.and_xor_distrib_right]

/-- Toggling bit 31 twice restores a word whose reserved bits are zero, as a sound SHIFTCTRL's are (R46). -/
theorem toggle_twice {v : Word} (reserved : v &&& 0x0000FFFF#32 = 0#32) :
    (((v ^^^ 0x80000000#32) &&& 0xFFFF0000#32) ^^^ 0x80000000#32) &&& 0xFFFF0000#32 = v := by
  have kept : v &&& 0xFFFF0000#32 = v := by
    calc v &&& 0xFFFF0000#32 = (v &&& 0xFFFF0000#32) ||| (v &&& 0x0000FFFF#32) := by rw [reserved, BitVec.or_zero]
      _ = v &&& (0xFFFF0000#32 ||| 0x0000FFFF#32) := BitVec.and_or_distrib_left.symm
      _ = v := and_full v
  have toggled : (v ^^^ 0x80000000#32) &&& 0xFFFF0000#32 = v ^^^ 0x80000000#32 := by
    rw [xor_and, kept]
    rfl
  rw [toggled, BitVec.xor_assoc, BitVec.xor_self, BitVec.xor_zero, kept]

/-- Settles O53: each of the two toggles flushes, the TX join stays off in between, and SHIFTCTRL comes back. -/
theorem clearFifosEmptiesAndRestores : Obligations.ClearFifosEmptiesAndRestores := by
  intro p n toggle
  refine ⟨withSm_ok p n _ rfl _, fun s live sound txOff hit => ?run⟩
  case run =>
    obtain ⟨u, first, liveU, paramsU, smU⟩ := exec_toggleTxn live txOff hit
    have txOffU : (u.sm p n).shiftctrl.getLsbD 30 = false := by
      rw [smU, BitVec.getLsbD_and, BitVec.getLsbD_xor, txOff]
      rfl
    obtain ⟨t, second, liveT, -, smT⟩ := exec_toggleTxn liveU txOffU (hit.congr paramsU)
    refine ⟨t, ?_, liveT, ?_⟩
    · calc runTxns [toggle, toggle] s = runTxns [toggle] u := runTxns_cons first liveU _
        _ = runTxns [] t := runTxns_cons second liveT _
        _ = .next t := rfl
    · rw [smT, smU]
      simp only [toggle_twice (sound.sms p n).shiftctrlRes]

/-! ## The frame of a pin helper (R340) -/

/-- From s to t, a live run left the parameters, the FIFOs of state machine n of PIO p, and its configuration words other
than PINCTRL as they were. -/
structure KeepsSetup (p : PioId) (n : SmId) (s t : State) : Prop where
  live      : t.Live
  params    : t.params = s.params
  clkdiv    : (t.sm p n).clkdiv = (s.sm p n).clkdiv
  execctrl  : (t.sm p n).execctrl = (s.sm p n).execctrl
  shiftctrl : (t.sm p n).shiftctrl = (s.sm p n).shiftctrl
  tx        : (t.sm p n).tx = (s.sm p n).tx
  rx        : (t.sm p n).rx = (s.sm p n).rx

theorem KeepsSetup.refl {s : State} (p : PioId) (n : SmId) (live : s.Live) : KeepsSetup p n s s :=
  ⟨live, rfl, rfl, rfl, rfl, rfl, rfl⟩

theorem KeepsSetup.trans {p : PioId} {n : SmId} {s t u : State} (h : KeepsSetup p n s t) (k : KeepsSetup p n t u) :
    KeepsSetup p n s u where
  live := k.live
  params := k.params.trans h.params
  clkdiv := k.clkdiv.trans h.clkdiv
  execctrl := k.execctrl.trans h.execctrl
  shiftctrl := k.shiftctrl.trans h.shiftctrl
  tx := k.tx.trans h.tx
  rx := k.rx.trans h.rx

/-- A WRITE of SMn_PINCTRL sets it and nothing else of the setup. -/
theorem exec_writePinctrl {s : State} {p : PioId} {n : SmId} (live : s.Live)
    (hit : Hits s (regAddr p (.smPinctrl n)) p (.smPinctrl n) 0#2) (v : Word) :
    ∃ t, exec (writeReg p (.smPinctrl n) v) s = .next t ∧ KeepsSetup p n s t ∧ (t.sm p n).pinctrl = v := by
  refine ⟨_, exec_writeRw_ok hit rfl, ⟨?live, ?_, ?_, ?_, ?_, ?_, ?_⟩, ?_⟩
  case live => simpa [State.Live] using live
  all_goals simp

/-- With EXEC_OVERWRITE = replace, smExec's WRITE hands its word on and changes nothing of the setup (R211, R326). -/
theorem exec_execReg {s : State} {p : PioId} {n : SmId} (live : s.Live) (replace : s.params.execOverwrite = .replace)
    (hit : Hits s (regAddr p (.smInstr n)) p (.smInstr n) 0#2) (w : Half) :
    ∃ t, exec (execReg p n w) s = .next t ∧ KeepsSetup p n s t := by
  have free : ¬ ((s.sm p n).pending ≠ none ∧ (s.sm p n).execStalled = true ∧ s.params.execOverwrite = .refuse) := by
    rw [replace]
    exact fun ⟨_, _, refuse⟩ => nomatch refuse
  refine ⟨_, exec_writeRw_ok hit (writeInstrReg_ok free _), ⟨?live, ?_, ?_, ?_, ?_, ?_, ?_⟩⟩
  case live => simpa [State.Live] using live
  all_goals simp

section
variable {p : PioId} {n : SmId}

/-- The windows of a frame keep the setup, one after the other, and the run goes on from there (R340). -/
theorem runTxns_windows (windows : List (Word × Half)) (rest : List Instr) {s : State} (live : s.Live)
    (replace : s.params.execOverwrite = .replace)
    (pinctrl : Hits s (regAddr p (.smPinctrl n)) p (.smPinctrl n) 0#2)
    (instr : Hits s (regAddr p (.smInstr n)) p (.smInstr n) 0#2) :
    ∃ t, runTxns (windows.flatMap (windowTxns p n) ++ rest) s = runTxns rest t ∧ KeepsSetup p n s t := by
  induction windows generalizing s with
  | nil => exact ⟨s, rfl, .refl p n live⟩
  | cons w ws ih =>
    obtain ⟨u, write, keepsU, -⟩ := exec_writePinctrl live pinctrl w.1
    obtain ⟨v, inject, keepsV⟩ :=
      exec_execReg keepsU.live (keepsU.params ▸ replace) (instr.congr keepsU.params) w.2
    have keeps := keepsU.trans keepsV
    obtain ⟨t, run, keepsT⟩ :=
      ih keepsV.live (keeps.params ▸ replace) (pinctrl.congr keeps.params) (instr.congr keeps.params)
    refine ⟨t, ?_, keeps.trans keepsT⟩
    rw [List.flatMap_cons, List.append_assoc]
    calc runTxns (windowTxns p n w ++ (ws.flatMap (windowTxns p n) ++ rest)) s
        = runTxns (execReg p n w.2 :: (ws.flatMap (windowTxns p n) ++ rest)) u := runTxns_cons write keepsU.live _
      _ = runTxns (ws.flatMap (windowTxns p n) ++ rest) v := runTxns_cons inject keepsV.live _
      _ = runTxns rest t := run

/-- A whole frame keeps the setup and ends with PINCTRL at the saved value (R340). -/
theorem runTxns_frameTxns (windows : List (Word × Half)) (saved : Word) {s : State} (live : s.Live)
    (replace : s.params.execOverwrite = .replace)
    (pinctrl : Hits s (regAddr p (.smPinctrl n)) p (.smPinctrl n) 0#2)
    (instr : Hits s (regAddr p (.smInstr n)) p (.smInstr n) 0#2) :
    ∃ t, runTxns (frameTxns p n windows saved) s = .next t ∧ KeepsSetup p n s t ∧ (t.sm p n).pinctrl = saved := by
  obtain ⟨u, run, keepsU⟩ := runTxns_windows windows [writeReg p (.smPinctrl n) saved] live replace pinctrl instr
  obtain ⟨t, restore, keepsT, restored⟩ := exec_writePinctrl keepsU.live (pinctrl.congr keepsU.params) saved
  exact ⟨t, run.trans (runTxns_cons restore keepsT.live []), keepsU.trans keepsT, restored⟩

end

/-- Settles O54: each helper passes its checks to a `pinMacro`, whose frame keeps the setup and restores PINCTRL. -/
theorem pinFrameRestoresPinctrl : Obligations.PinFrameRestoresPinctrl := by
  refine ⟨fun p n v mask pin count out hpin hcount => ?starts, fun p n windows saved => ⟨rfl, rfl, ?frame⟩⟩
  case starts =>
    have inRange : (decide (pin ≤ 31) && decide (count ≤ 32)) = true := by simp [hpin, hcount]
    exact ⟨⟨_, withSm_ok p n _ rfl _⟩, ⟨_, withSm_ok p n _ rfl _⟩, ⟨_, withSm_ok p n _ rfl _⟩,
      ⟨_, withSm_ok p n _ inRange _⟩⟩
  case frame =>
    intro s live replace pinctrl instr
    obtain ⟨t, run, keeps, restored⟩ := runTxns_frameTxns windows saved live replace pinctrl instr
    exact ⟨t, run, keeps.live, restored, keeps.clkdiv, keeps.execctrl, keeps.shiftctrl, keeps.tx, keeps.rx⟩

/-! ## The critical section of a pin helper (R345, R407) -/

/-- A thread that another one's critical section excludes takes no transaction (R345; log 15). -/
theorem step_of_excluded {s : State} {t u : Nat} {ms : List Move} (live : s.Live) (inside : s.critical = some t)
    (other : u ≠ t) (move : s.moves = .host u :: ms) : step s = .next { s with moves := ms } := by
  rw [step_of_move live move]
  exact if_pos (by simp [excluded, inside, Ne.symm other])

/-- An operation takes its next transaction, inside its critical section if it is a pin helper, and goes on. -/
theorem macroStep_cons {m : MacroState} {i : Instr} {rest : List Instr} {s u : State} (todo : m.todo = i :: rest)
    (h : exec i (enterFrame m s) = .next u) : macroStep m s = .next (macroContinue m rest u) := by
  unfold macroStep
  simp only [todo, h]

/-- An error ends an operation, which leaves its critical section (R407; log 20). -/
theorem macroContinue_error (m : MacroState) (rest : List Instr) {s : State} {e : Err} (live : s.Live)
    (h : (s.thread s.turn).result = some (.error e)) :
    macroContinue m rest s = (leaveFrame m s).finish (.error e) := by
  unfold macroContinue
  rw [if_pos ((State.unmarked_iff s).mpr live), h]

/-- While a transaction is left, a normal end lets an operation go on with it (R9). -/
theorem macroContinue_next (m : MacroState) (i : Instr) (is : List Instr) {s : State} {r : Result} (live : s.Live)
    (h : (s.thread s.turn).result = some r) (normal : ∀ e, r ≠ .error e) :
    macroContinue m (i :: is) s = s.proceed (.running { m with todo := i :: is }) := by
  unfold macroContinue
  rw [if_pos ((State.unmarked_iff s).mpr live), h]
  cases r with
  | error e => exact absurd rfl (normal e)
  | unit | word _ | offset _ | label _ => rfl

/-- An operation with nothing left to do or decide ends with no value and leaves its critical section (R345). -/
theorem macroContinue_last {m : MacroState} {s : State} {r : Result} (done : m.cont = .done) (live : s.Live)
    (h : (s.thread s.turn).result = some r) (normal : ∀ e, r ≠ .error e) :
    macroContinue m [] s = (leaveFrame m s).finish .unit := by
  unfold macroContinue
  rw [if_pos ((State.unmarked_iff s).mpr live), h, done]
  cases r with
  | error e => exact absurd rfl (normal e)
  | unit | word _ | offset _ | label _ => rfl

/-- From s to t, neither the hardware nor the history moved. -/
structure SameBlock (s t : State) : Prop where
  pio0    : t.pio0 = s.pio0
  pio1    : t.pio1 = s.pio1
  history : t.history = s.history

theorem SameBlock.leaveFrame_finish (m : MacroState) (s : State) (r : Result) :
    SameBlock s ((leaveFrame m s).finish r) := by
  unfold leaveFrame
  split <;> exact ⟨rfl, rfl, rfl⟩

/-- Going on after a transaction is the host's affair alone. -/
theorem SameBlock.macroContinue (m : MacroState) (rest : List Instr) (s : State) :
    SameBlock s (macroContinue m rest s) := by
  unfold Machine.macroContinue
  split
  · split
    · exact .leaveFrame_finish m s _
    · split
      · exact ⟨rfl, rfl, rfl⟩
      · split
        · exact .leaveFrame_finish m s _
        · exact ⟨rfl, rfl, rfl⟩
    · exact ⟨rfl, rfl, rfl⟩
  · exact ⟨rfl, rfl, rfl⟩

/-- A finished operation leaves its thread idle with its result. -/
theorem State.thread_finish_of_turn {s : State} {t : Nat} (turn : s.turn = t) (r : Result) :
    ((s.finish r).thread t).op = .idle ∧ ((s.finish r).thread t).result = some r := by
  subst turn
  rw [State.thread_finish_turn]
  exact ⟨rfl, rfl⟩

theorem State.thread_proceed_of_turn {s : State} {t : Nat} (turn : s.turn = t) (op : HostOp) :
    ((s.proceed op).thread t).op = op := by
  subst turn
  rw [State.thread_proceed_turn]

/-- The first READ of a pin helper enters the critical section, and the frame to come restores the value read (R340). -/
theorem step_pinFrame {s : State} {t : Nat} {ms : List Move} {p : PioId} {n : SmId} {windows : List (Word × Half)}
    (live : s.Live) (free : s.critical = none) (move : s.moves = .host t :: ms)
    (op : (s.thread t).op = .running (pinMacro p n windows))
    (hit : Hits s (regAddr p (.smPinctrl n)) p (.smPinctrl n) 0#2) :
    ∃ u, step s = .next u ∧ u.critical = some t ∧
      (u.thread t).op = .running ⟨frameTxns p n windows (s.sm p n).pinctrl, .done, true⟩ := by
  have hit' : Hits (enterFrame (pinMacro p n windows) { s with moves := ms, turn := t }) (regAddr p (.smPinctrl n)) p
      (.smPinctrl n) 0#2 := hit.congr rfl
  have read := macroStep_cons (m := pinMacro p n windows) rfl (exec_read_of_pioRead hit' (pioRead_plain rfl))
  rw [macroContinue_deliver _ _ ?live ?normal] at read
  case live => exact live
  case normal => exact fun _ => nofun
  exact ⟨_, (step_of_running live (.inl free) move op).trans read, rfl, State.thread_proceed_of_turn rfl _⟩

/-- Settles O55: a step of a helper's thread is its transaction followed by `macroContinue`, which goes on, ends, or ends
with the error, by the result the transaction delivered. -/
theorem criticalSectionExcludesOtherHosts : Obligations.CriticalSectionExcludesOtherHosts := by
  refine ⟨fun s t u ms live inside other move => step_of_excluded live inside other move,
    fun s t ms p n windows live free move op hit => step_pinFrame live free move op hit, ?_⟩
  intro s v t ms i rest live free move op run liveV
  have only := (exec_cases run).onlyItsThread
  have turn : v.turn = t := only.turn
  have same := SameBlock.macroContinue ⟨i :: rest, .done, true⟩ rest v
  refine ⟨_, (step_of_running live free move op).trans (macroStep_cons rfl run), same.pio0, same.pio1,
    same.history, fun e failed => ?error, fun r ended normal => ⟨fun more => ?stays, fun last => ?leaves⟩⟩
  case error =>
    rw [macroContinue_error _ rest liveV (turn.symm ▸ failed)]
    exact ⟨rfl, State.thread_finish_of_turn turn _⟩
  case stays =>
    obtain ⟨j, is, rfl⟩ := List.exists_cons_of_ne_nil more
    rw [macroContinue_next _ j is liveV (turn.symm ▸ ended) normal]
    exact ⟨only.critical, State.thread_proceed_of_turn turn _⟩
  case leaves =>
    subst last
    rw [macroContinue_last rfl liveV (turn.symm ▸ ended) normal]
    exact ⟨rfl, State.thread_finish_of_turn turn _⟩

/-! ## The configuration builder (R301 to R316) -/

/-- Two fields of one word with no bit in common are set as one (R301). -/
theorem setField_setField {f g : Field} (disjoint : f.mask &&& g.mask = 0#32) (w : Word) (u v : Nat) :
    setField g v (setField f u w) =
      (w &&& ~~~(f.mask ||| g.mask)) |||
        ((BitVec.ofNat 32 v <<< g.lsb) &&& g.mask ||| (BitVec.ofNat 32 u <<< f.lsb) &&& f.mask) := by
  unfold setField packField
  ext i hi
  have apart : (f.mask[i] && g.mask[i]) = false := by
    rw [← BitVec.getElem_and, disjoint]
    exact BitVec.getElem_zero hi
  simp only [BitVec.getElem_or, BitVec.getElem_and, BitVec.getElem_not]
  cases hf : f.mask[i] with
  | false => cases g.mask[i] <;> simp
  | true =>
    have outside : g.mask[i] = false := by simpa [hf] using apart
    simp [outside]

/-- Two checked arguments in range give the new configuration (R301). -/
theorem setter_ok {a b : Nat} {oka okb : Bool} (ha : oka = true) (hb : okb = true) (c : SmConfig) :
    setter [(a, oka), (b, okb)] c = .ok c := by
  simp only [setter, firstBad, ha, hb, if_true]

/-- One of two checked arguments out of range is ILLEGAL_ARGUMENT with the first such (R301). -/
theorem setter_illegal {a b : Nat} {oka okb : Bool} (h : oka = false ∨ okb = false) (c : SmConfig) :
    ∃ v, setter [(a, oka), (b, okb)] c = .error (.illegalArgument [v]) := by
  cases oka with
  | false => exact ⟨a, rfl⟩
  | true =>
    cases okb with
    | false => exact ⟨b, rfl⟩
    | true => exact absurd h (by decide)

/-- The values of two fields that do not overlap, the lower one first, are the bits of their sum. -/
theorem ofNat_or_field (u k v : Nat) (h : u < 2 ^ k) :
    BitVec.ofNat 32 (2 ^ k * v) ||| BitVec.ofNat 32 u = BitVec.ofNat 32 (v * 2 ^ k + u) := by
  rw [← BitVec.ofNat_or, ← Nat.two_pow_add_eq_or_of_lt h v, Nat.mul_comm]

/-- OUT_BASE and OUT_COUNT hold every legal base and count (R309). -/
theorem outField_values : (∀ v : Fin 32, (BitVec.ofNat 32 v <<< 0) &&& 0x0000001F#32 = BitVec.ofNat 32 v) ∧
    ∀ v : Fin 33, (BitVec.ofNat 32 v <<< 20) &&& 0x03F00000#32 = BitVec.ofNat 32 (2 ^ 20 * v) := by decide

/-- WRAP_BOTTOM and WRAP_TOP hold every legal target and wrap (R304). -/
theorem wrapField_values : (∀ v : Fin 32, (BitVec.ofNat 32 v <<< 7) &&& 0x00000F80#32 = BitVec.ofNat 32 (v * 2 ^ 7)) ∧
    ∀ v : Fin 32, (BitVec.ofNat 32 v <<< 12) &&& 0x0001F000#32 = BitVec.ofNat 32 (2 ^ 12 * v) := by decide

/-- OUT_COUNT and OUT_BASE set together (R309). -/
theorem setField_out (w : Word) {base count : Nat} (hb : base ≤ 31) (hc : count ≤ 32) :
    setField fOutCount count (setField fOutBase base w) =
      (w &&& ~~~0x03F0001F#32) ||| BitVec.ofNat 32 (count * 2 ^ 20 + base) := by
  have baseBits := outField_values.1 ⟨base, by omega⟩
  have countBits := outField_values.2 ⟨count, by omega⟩
  rw [setField_setField (by decide), ← ofNat_or_field base 20 count (by omega)]
  exact congrArg₂ _ rfl (congrArg₂ _ countBits baseBits)

/-- WRAP_TOP and WRAP_BOTTOM set together (R304). -/
theorem setField_wrap (w : Word) {target wrap : Nat} (ht : target ≤ 31) (hw : wrap ≤ 31) :
    setField fWrapTop wrap (setField fWrapBottom target w) =
      (w &&& ~~~0x0001FF80#32) ||| BitVec.ofNat 32 (wrap * 2 ^ 12 + target * 2 ^ 7) := by
  have targetBits := wrapField_values.1 ⟨target, by omega⟩
  have wrapBits := wrapField_values.2 ⟨wrap, by omega⟩
  rw [setField_setField (by decide), ← ofNat_or_field (target * 2 ^ 7) 12 wrap (by omega)]
  exact congrArg₂ _ rfl (congrArg₂ _ wrapBits targetBits)

/-- Settles O56: the two fields of each setter are set as one, and the range checks come first. -/
theorem settersTouchOnlyTheirFields : Obligations.SettersTouchOnlyTheirFields := by
  intro c
  have outside {v bound : Nat} (h : bound < v) : decide (v ≤ bound) = false := decide_eq_false (Nat.not_le.mpr h)
  refine ⟨fun base count hb hc => ?outPins, fun base count bad => setter_illegal (bad.imp outside outside) _,
    fun target wrap ht hw => ?wrap, fun target wrap bad => setter_illegal (bad.imp outside outside) _,
    fun mode => ?join⟩
  case outPins =>
    rw [← setField_out _ hb hc]
    exact setter_ok (decide_eq_true hb) (decide_eq_true hc) _
  case wrap =>
    rw [← setField_wrap _ ht hw]
    exact setter_ok (decide_eq_true ht) (decide_eq_true hw) _
  case join =>
    rw [setFifoJoin, setField_setField (by decide)]
    cases mode <;> rfl

end Sys2Proof.Machine
end

section
/-! SUPPORT. The exceptions family (60_exceptions): a transaction that ends with an error has changed nothing but its
thread (R403), and one that ends with a mark nothing but that mark (R404, R405). -/

namespace Sys2Proof.Machine

open Sys2Proof

/-! ## Error results (R403) -/

/-- The issuing thread holds the result its operation ends with (R400). -/
theorem Works.result_finish {s u : State} (h : Works s u) (r : Result) :
    ((u.finish r).thread s.turn).result = some r := by
  rw [← h.turn, State.thread_finish_turn]

/-- A suspended WAIT leaves its thread without a result (R163). -/
theorem Works.result_proceed {s u : State} (h : Works s u) (op : HostOp) :
    ((u.proceed op).thread s.turn).result = none := by
  rw [← h.turn, State.thread_proceed_turn]

/-- Only a `raise` leaves an error with a thread that had no result, and it was preceded by at most a draw. -/
theorem Ends.of_error {s t : State} {e : Err} (h : Ends s t) (fresh : (s.thread s.turn).result = none)
    (failed : (t.thread s.turn).result = some (.error e)) :
    ∃ u e', (u = s ∨ u = s.drawn) ∧ (t = u.deliver (.error e') ∨ t = u.finish (.error e')) := by
  cases h with
  | fatal info => rw [State.thread_fatal, fresh] at failed; cases failed
  | refuse reason => rw [State.thread_refuse, fresh] at failed; cases failed
  | raise u e' hu t ht => exact ⟨u, e', hu, ht⟩
  | normal u r work normal t ht =>
    have ended : (t.thread s.turn).result = some r := by
      rcases ht with rfl | rfl
      · exact work.result_deliver r
      · exact work.result_finish r
    exact absurd (Option.some.inj (ended.symm.trans failed)) (normal e)
  | suspend u w work => rw [work.result_proceed] at failed; cases failed

/-- Settles O46: the error was raised in the state before or right after a draw, and delivered to its thread alone. -/
theorem errorResultsChangeNoState : Obligations.ErrorResultsChangeNoState := by
  intro i s t e h fresh failed
  obtain ⟨_, _, rfl | rfl, rfl | rfl⟩ := (exec_cases h).of_error fresh failed
  all_goals exact ⟨rfl, rfl, rfl, rfl, rfl⟩

/-! ## Marks (R404, R405) -/

/-- A mark is set by `fatal` or `refuse` alone, and on the state before the transaction (R404, R405). -/
theorem Ends.mark_cases {s t : State} (h : Ends s t) :
    (∃ info, t = s.fatal info) ∨ (∃ reason, t = s.refuse reason) ∨
      (t.faultMark = s.faultMark ∧ t.refusalMark = s.refusalMark) := by
  cases h with
  | fatal info => exact .inl ⟨info, rfl⟩
  | refuse reason => exact .inr (.inl ⟨reason, rfl⟩)
  | raise u e hu t ht =>
    rcases hu with rfl | rfl <;> rcases ht with rfl | rfl <;> exact .inr (.inr ⟨rfl, rfl⟩)
  | normal u r work _ t ht =>
    rcases ht with rfl | rfl <;> exact .inr (.inr ⟨work.faultMark, work.refusalMark⟩)
  | suspend u w work => exact .inr (.inr ⟨work.faultMark, work.refusalMark⟩)

/-- Settles O47: each mark is moved by its own end of a transaction alone. -/
theorem marksAreSetAlone : Obligations.MarksAreSetAlone := by
  intro i s t h
  obtain ⟨info, rfl⟩ | ⟨reason, rfl⟩ | ⟨fault, refusal⟩ := (exec_cases h).mark_cases
  · exact ⟨fun _ => rfl, fun moved => absurd rfl moved⟩
  · exact ⟨fun moved => absurd rfl moved, fun _ => rfl⟩
  · exact ⟨fun moved => absurd fault moved, fun moved => absurd refusal moved⟩

end Sys2Proof.Machine
end

section
/-! SUPPORT. The reset family (70_reset): what the registers of a PIO instance at its reset state read and the rest of
the state right after reset (R451, R452; values of log 25). -/

namespace Sys2Proof.Machine

open Sys2Proof

/-! ## A PIO instance at its reset state (R451) -/

/-- Both PIO instances are at their reset state after reset, whatever the parameters and the clocks' start. -/
theorem pio_resetWith (P : Params) (c m : Nat) (p : PioId) : (State.resetWith P c m).pio p = .reset := by
  match p with
  | 0 | 1 => rfl

/-- Every TX FIFO reads empty and not full, every RX FIFO likewise. -/
theorem Pio.fstat_reset : Pio.reset.fstat = 0x0F000F00#32 := by decide

/-- No stall, overflow or underflow is flagged. -/
theorem Pio.fdebug_reset : Pio.reset.fdebug = 0#32 := by decide

theorem Pio.flevel_reset : Pio.reset.flevel = 0#32 := by decide

/-- The interrupts a reset block raises are the four "TX not full". -/
theorem Pio.intr_reset : Pio.reset.intr = 0x0F0#12 := by decide

theorem Pio.word_reset (i : Fin 32) : Pio.reset.word i = 0#16 := Vector.getElem_replicate i.isLt

theorem Pio.inte_reset (k : Fin 2) : Pio.reset.inte k = 0#12 := by
  match k with
  | 0 | 1 => rfl

theorem Pio.intf_reset (k : Fin 2) : Pio.reset.intf k = 0#12 := by
  match k with
  | 0 | 1 => rfl

/-- Nothing is enabled at reset, so no raised interrupt passes. -/
theorem Pio.ints_reset (k : Fin 2) : Pio.reset.ints k = 0#12 := by
  rw [Pio.ints, Pio.inte_reset, BitVec.and_zero]

/-! ## The machine after reset (R451, R452) -/

/-- No request is listed after reset, so every host thread is idle. -/
theorem thread_resetWith (P : Params) (c m t : Nat) : (State.resetWith P c m).thread t = .idle := rfl

/-- Settles O57: every `view` is a function of the PIO and of the state machine, each at its reset state; the computed
registers are read off above, SMn_INSTR answers word 0 as nothing is pending, and the others are fields. -/
theorem resetValues : Obligations.ResetValues := by
  intro P c m p n i k s
  have pio : s.pio p = .reset := pio_resetWith P c m p
  have sm : s.sm p n = .reset := sm_resetWith P c m p n
  have idle : ∀ t, (s.thread t).op = .idle := fun t => congrArg Thread.op (thread_resetWith P c m t)
  simp only [pioView, pio, sm, Pio.fstat_reset, Pio.fdebug_reset, Pio.flevel_reset, Pio.intr_reset, Pio.word_reset,
    Pio.inte_reset, Pio.intf_reset, Pio.ints_reset, idle, implies_true, true_and, and_true]
  and_intros
  all_goals rfl

end Sys2Proof.Machine
end
